-- ==== Sys2Proof/Word.lean ====
section
/-! DEFINITION. The word types of the machine (00_scope.md R7, R8): bytes, doublewords, 64-bit words and the vector
register's full width. Slices are Lean's own `BitVec.extractLsb'` (start, length). -/

namespace Sys2Proof

/-- A byte is 8 bits (R7). -/
abbrev Byte := BitVec 8

/-- A doubleword, the "low doubleword element" (R7). -/
abbrev Word32 := BitVec 32

/-- A general register, an address, an opmask register. -/
abbrev Word64 := BitVec 64

/-- A vector register at its greatest width, MAXVL = 512 (R6, R20). -/
abbrev VReg := BitVec 512

end Sys2Proof
end

