-- ==== Sys2Proof/Config.lean ====
section
/-! DEFINITION. The configuration of 00_scope.md R6 and the open parameters of 92_eei_decisions.md D16 to D22. The
configuration is PLAIN DATA and is part of the launch state (70_reset_and_hazards.md R200), so `State` holds it as a
field. Where a parameter admits several outcomes, the choice among them is a FREE VALUE: an opaque constant below,
applied to the counter `State.draws` (log 18). Nothing can be proved of what it is. -/

namespace Sys2Proof

/-- `MAXVL`, the width of one vector register (R6; log 3). Which values go with `HAS_AVX512F` is `Config.MaxVlLegal`. -/
inductive MaxVl where
  | w128
  | w256
  | w512
  deriving DecidableEq, Repr

/-- `MAXVL` in bits. -/
def MaxVl.bits : MaxVl → Nat
  | .w128 => 128
  | .w256 => 256
  | .w512 => 512

/-- The access kinds of `Translate` (20_memory.md R55), each at a privilege level: the page permissions that `Translate`
applies depend on the level (60_exceptions.md R180; that a fetch's do too is the model's choice, log 4). -/
inductive AccessKind where
  | dataRead (cpl : BitVec 2)
  | fetch (cpl : BitVec 2)
  deriving DecidableEq, Repr

/-- What a range of linear addresses translates to: physical addresses counted on from `base`, or the page fault
`#PF(code)` (R55). DESIGN CHOICE (log 32): an error code is 32 bits wide; the spec gives it no width. -/
inductive TransTarget where
  | phys (base : Word64)
  | pageFault (code : Word32)
  deriving DecidableEq, Repr

/-- One range `lo` to `hi` (inclusive) of linear addresses of `Translate` (R55; log 4). -/
structure TransRange where
  lo : Word64
  hi : Word64
  kind : AccessKind
  target : TransTarget
  deriving DecidableEq, Repr

/-- `P_NAN` (D18): which NaN is returned. -/
inductive PNan where
  | firstInOperationOrder
  | anyQuietOperand
  deriving DecidableEq, Repr

/-- `P_IE_INFZERO_QNAN` (D19): is Invalid signalled for zero times infinity with a QNaN addend. -/
inductive PIeInfZeroQnan where
  | noFlag
  | ie
  | either
  deriving DecidableEq, Repr

/-- `P_SAE_FLAGS` (D21): MXCSR flags under embedded rounding. -/
inductive PSaeFlags where
  | suppressed
  | either
  deriving DecidableEq, Repr

/-- `P_FAULTSUPP` (D22): is the memory operand of a masked-off element read. -/
inductive PFaultSupp where
  | noAccess
  | either
  deriving DecidableEq, Repr

/-- `P_LL11` (D17): EVEX with `b = 0` and `L'L = 11b`. -/
inductive PLl11 where
  | faultUd
  | ignore
  deriving DecidableEq, Repr

/-- `P_B_MEM` (D16): EVEX with `b = 1` and a memory operand. -/
inductive PBMem where
  | faultUd
  | executeAsB0
  deriving DecidableEq, Repr

/-- `P_XM_FLAGS` (D20): MXCSR flags after an unmasked SIMD floating-point exception. -/
inductive PXmFlags where
  | setAsDescribed
  | unconstrained
  deriving DecidableEq, Repr

/-- The configuration of R6: properties of the processor and of its environment, read by the instructions and written
by none. (`MODE` and the enable bits are registers of `State`.) -/
structure Config where
  maxvl : MaxVl
  hasFma : Bool
  hasAvx512f : Bool
  fiveLevel : Bool
  translate : List TransRange
  pNan : PNan
  pIeInfZeroQnan : PIeInfZeroQnan
  pSaeFlags : PSaeFlags
  pFaultSupp : PFaultSupp
  pLL11 : PLl11
  pBMem : PBMem
  pXmFlags : PXmFlags
  deriving DecidableEq, Repr

/-- The legal values of `MAXVL`: 512 with AVX512F and 256 with FMA alone (R6); with neither, no bits above 255, so not
512 (10_state.md R21). -/
def Config.MaxVlLegal (c : Config) : Prop :=
  (c.hasAvx512f = true → c.maxvl = .w512) ∧
  (c.hasAvx512f = false → c.hasFma = true → c.maxvl = .w256) ∧
  (c.hasAvx512f = false → c.maxvl ≠ .w512)

/-- A configuration with every open parameter at the default that 92_eei_decisions.md recommends (D16 to D22), the
identity translation (D8), and a processor that has both extensions at full width (DESIGN CHOICE, log 3). -/
def Config.recommended : Config where
  maxvl := .w512
  hasFma := true
  hasAvx512f := true
  fiveLevel := false
  translate := []
  pNan := .firstInOperationOrder
  pIeInfZeroQnan := .noFlag
  pSaeFlags := .suppressed
  pFaultSupp := .noAccess
  pLL11 := .faultUd
  pBMem := .faultUd
  pXmFlags := .unconstrained

/-- Free value: which of the quieted NaN operands is returned under `P_NAN = any_quiet_operand` (D18; logs 11, 18). -/
opaque Config.freeNanPick : Nat → Nat

/-- Free value: is IE signalled under `P_IE_INFZERO_QNAN = either` (D19; logs 12, 18). -/
opaque Config.freeIeInfZeroQnan : Nat → Bool

/-- Free value: are the flags ORed in under `P_SAE_FLAGS = either` (D21; logs 13, 18). -/
opaque Config.freeSaeFlags : Nat → Bool

/-- Free value: is a masked-off memory operand read under `P_FAULTSUPP = either` (D22; logs 14, 18). -/
opaque Config.freeMaskedAccess : Nat → Bool

/-- Free value: which of the signalled flags MXCSR holds after an unmasked exception under
`P_XM_FLAGS = unconstrained` (D20; logs 17, 18). -/
opaque Config.freeXmFlags : Nat → BitVec 6

end Sys2Proof
end

