-- ==== Sys2Proof/Syntax.lean ====
section
/-! DEFINITION. The syntax of the six encodings (30_encoding.md R70 to R81), one constructor of `Instr` per row of
spec/opcode_table.json. A term keeps EVERY bit of its encoding, the ignored ones too (`VEX.L`; X and B where the
operand form does not use them; `L'L` with `b = 0`; the order and number of the legacy prefixes), so that decoding
drops no bit. Register numbers and extension bits hold the CONTRIBUTED (un-inverted) values (R78). -/

namespace Sys2Proof

/-- The three operand orders of R111. -/
inductive Form where
  | f132
  | f213
  | f231
  deriving DecidableEq, Repr

/-- The legacy prefixes that R80 accepts: the ES, CS, SS, DS, FS, GS overrides and the address-size prefix 67. -/
inductive LegacyPrefix where
  | es
  | cs
  | ss
  | ds
  | fs
  | gs
  | a32
  deriving DecidableEq, Repr

/-- The displacement of a form with a base register: none (`mod = 00b`), one byte (`01b`) or four (`10b`) (R77). -/
inductive Disp where
  | none
  | d8 (v : Byte)
  | d32 (v : Word32)
  deriving DecidableEq, Repr

/-- A memory operand (R75, R76, R77, R79). `x` and `b` are contributed prefix bits that the form ignores. -/
inductive MemOperand where
  /-- `mod = 00b, rm = 101b`: RIP-relative. -/
  | ripRel (x b : BitVec 1) (disp : Word32)
  /-- `rm != 100b`: base register and displacement, no SIB byte. -/
  | base (x : BitVec 1) (reg : BitVec 4) (disp : Disp)
  /-- SIB byte with a base register; index `0100b` is no index. -/
  | sib (scale : BitVec 2) (index : BitVec 4) (reg : BitVec 4) (disp : Disp)
  /-- SIB byte, `base = 101b` with `mod = 00b`: no base register, 32-bit displacement. -/
  | sibNoBase (scale : BitVec 2) (index : BitVec 4) (b : BitVec 1) (disp : Word32)
  deriving DecidableEq, Repr

/-- The third operand of a VEX form: a vector register (with the ignored X bit) or memory (R78). -/
inductive VexSrc3 where
  | reg (x : BitVec 1) (num : BitVec 4)
  | mem (m : MemOperand)
  deriving DecidableEq, Repr

/-- The third operand of an EVEX form: a vector register (X is bit 4 of its number) or memory (R78). -/
inductive EvexSrc3 where
  | reg (num : BitVec 5)
  | mem (m : MemOperand)
  deriving DecidableEq, Repr

/-- The operands of a VEX form (R72, R78, R116): `d` is DEST, `s2` is SRC2, `l` the ignored `VEX.L`. -/
structure VexOperands where
  pfx : List LegacyPrefix
  l : BitVec 1
  d : BitVec 4
  s2 : BitVec 4
  src3 : VexSrc3
  deriving DecidableEq, Repr

/-- The operands of an EVEX form (R74, R78, R84, R85, R119): `ll` is `L'L`, or `RC` under embedded rounding. -/
structure EvexOperands where
  pfx : List LegacyPrefix
  d : BitVec 5
  s2 : BitVec 5
  z : BitVec 1
  ll : BitVec 2
  b : BitVec 1
  aaa : BitVec 3
  src3 : EvexSrc3
  deriving DecidableEq, Repr

/-- The six encodings, the rows of spec/opcode_table.json in its order (R81). -/
inductive Instr where
  /-- Row 1, `VEX.DDS.LIG.66.0F38.W0 9F /r` (R116). -/
  | vfnmsub132ssVex (o : VexOperands)
  /-- Row 2, `VEX.DDS.LIG.66.0F38.W0 AF /r` (R117). -/
  | vfnmsub213ssVex (o : VexOperands)
  /-- Row 3, `VEX.DDS.LIG.66.0F38.W0 BF /r` (R118). -/
  | vfnmsub231ssVex (o : VexOperands)
  /-- Row 4, `EVEX.DDS.LIG.66.0F38.W0 9F /r` (R119). -/
  | vfnmsub132ssEvex (o : EvexOperands)
  /-- Row 5, `EVEX.DDS.LIG.66.0F38.W0 AF /r` (R120). -/
  | vfnmsub213ssEvex (o : EvexOperands)
  /-- Row 6, `EVEX.DDS.LIG.66.0F38.W0 BF /r` (R121). -/
  | vfnmsub231ssEvex (o : EvexOperands)
  deriving DecidableEq, Repr

end Sys2Proof
end

