-- ==== Sys2Proof/Decode.lean ====
section
/-! DEFINITION. The decoder of 30_encoding.md R96 (rules R70 to R90), total on any list of bytes and rejecting by name,
and after it the encoder written from the same layouts (R72, R74, R75, R76, R77, R80). The decoder reads bytes from the
left and answers `needMore` exactly when the list ends before the instruction does. -/

namespace Sys2Proof

/-! ## Legacy prefixes (R80) -/

/-- The byte of an accepted legacy prefix (R80). -/
def legacyByte : LegacyPrefix → Byte
  | .es => 0x26
  | .cs => 0x2E
  | .ss => 0x36
  | .ds => 0x3E
  | .fs => 0x64
  | .gs => 0x65
  | .a32 => 0x67

/-- One byte that may stand before the escape byte: an accepted legacy prefix, one of 66, F2, F3, F0, or a REX byte
(R80). -/
inductive PfxByte where
  | legacy (p : LegacyPrefix)
  | forbidden (c : Byte)
  | rex (c : Byte)
  deriving DecidableEq, Repr

/-- The class of a byte among those of R80, or none where the escape byte is reached. -/
def pfxOfByte (c : Byte) : Option PfxByte :=
  if c = 0x26 then some (.legacy .es)
  else if c = 0x2E then some (.legacy .cs)
  else if c = 0x36 then some (.legacy .ss)
  else if c = 0x3E then some (.legacy .ds)
  else if c = 0x64 then some (.legacy .fs)
  else if c = 0x65 then some (.legacy .gs)
  else if c = 0x67 then some (.legacy .a32)
  else if c = 0x66 ∨ c = 0xF2 ∨ c = 0xF3 ∨ c = 0xF0 then some (.forbidden c)
  else if c.extractLsb' 4 4 = 4#4 then some (.rex c)
  else none

/-- The loop of R96: the longest run of prefix bytes, and the bytes after it. -/
def splitPfx : List Byte → List PfxByte × List Byte
  | [] => ([], [])
  | c :: cs =>
    match pfxOfByte c with
    | none => ([], c :: cs)
    | some p => (p :: (splitPfx cs).1, (splitPfx cs).2)

/-- Is the byte a REX byte. -/
def PfxByte.isRex : PfxByte → Bool
  | .rex _ => true
  | _ => false

/-- `rex_early` of R96: a REX byte that is not the last prefix byte (D13). -/
def rexEarly (ps : List PfxByte) : Bool := ps.dropLast.any PfxByte.isRex

/-- The prefixes as a list of accepted ones; none where one of them is forbidden or a REX byte (`bad or rex_last` of
R96). -/
def acceptedPfx : List PfxByte → Option (List LegacyPrefix)
  | [] => some []
  | .legacy p :: ps => (acceptedPfx ps).map (p :: ·)
  | _ :: _ => none

/-! ## ModRM, SIB, displacement (R75, R76, R77) -/

/-- Little-endian assembly of four bytes (R51, R77). -/
def le32 (b0 b1 b2 b3 : Byte) : Word32 := b3 ++ b2 ++ b1 ++ b0

/-- A 32-bit displacement at the head of the list (R77). -/
def decodeDisp32 : List Byte → Option Word32
  | b0 :: b1 :: b2 :: b3 :: _ => some (le32 b0 b1 b2 b3)
  | _ => none

/-- The displacement that `mod` = 00, 01 or 10 calls for, with a base register (R77). -/
def decodeDisp (mod : BitVec 2) (bs : List Byte) : Option Disp :=
  if mod = 0#2 then some .none
  else if mod = 1#2 then bs.head?.map .d8
  else (decodeDisp32 bs).map .d32

/-- The memory operand of `mod != 11b` (R75, R76, R77, R79); none where the bytes end before it. -/
def decodeMem (x b : BitVec 1) (mod : BitVec 2) (rm : BitVec 3) (bs : List Byte) : Option MemOperand :=
  if rm = 4#3 then
    match bs with
    | [] => none
    | sib :: rest =>
      let scale := sib.extractLsb' 6 2
      let index := x ++ sib.extractLsb' 3 3
      let base := sib.extractLsb' 0 3
      if mod = 0#2 ∧ base = 5#3 then (decodeDisp32 rest).map (.sibNoBase scale index b)
      else (decodeDisp mod rest).map (.sib scale index (b ++ base))
  else if mod = 0#2 ∧ rm = 5#3 then (decodeDisp32 bs).map (.ripRel x b)
  else (decodeDisp mod bs).map (.base x (b ++ rm))

/-- How many bytes a displacement takes (R77). -/
def dispLen : Disp → Nat
  | .none => 0
  | .d8 _ => 1
  | .d32 _ => 4

/-- How many bytes follow ModRM for a memory operand: the SIB byte and the displacement (R89). -/
def memLen : MemOperand → Nat
  | .ripRel _ _ _ => 4
  | .base _ _ d => dispLen d
  | .sib _ _ _ d => 1 + dispLen d
  | .sibNoBase _ _ _ _ => 5

/-- The bytes after ModRM of a VEX form's third operand. -/
def vexSrc3Len : VexSrc3 → Nat
  | .reg _ _ => 0
  | .mem m => memLen m

/-- The bytes after ModRM of an EVEX form's third operand. -/
def evexSrc3Len : EvexSrc3 → Nat
  | .reg _ => 0
  | .mem m => memLen m

/-- `len` of a VEX form (R89): prefixes, 3, opcode, ModRM, SIB and displacement. -/
def vexLen (o : VexOperands) : Nat := o.pfx.length + 3 + 1 + 1 + vexSrc3Len o.src3

/-- `len` of an EVEX form (R89). -/
def evexLen (o : EvexOperands) : Nat := o.pfx.length + 4 + 1 + 1 + evexSrc3Len o.src3

/-- `len` of an instruction (R89). -/
def instrLen : Instr → Nat
  | .vfnmsub132ssVex o => vexLen o
  | .vfnmsub213ssVex o => vexLen o
  | .vfnmsub231ssVex o => vexLen o
  | .vfnmsub132ssEvex o => evexLen o
  | .vfnmsub213ssEvex o => evexLen o
  | .vfnmsub231ssEvex o => evexLen o

/-- The third operand of a VEX form (R75, R78): register `B ++ rm`, X ignored, or memory. -/
def decodeVexSrc3 (x b : BitVec 1) (modrm : Byte) (bs : List Byte) : Option VexSrc3 :=
  if modrm.extractLsb' 6 2 = 3#2 then some (.reg x (b ++ modrm.extractLsb' 0 3))
  else (decodeMem x b (modrm.extractLsb' 6 2) (modrm.extractLsb' 0 3) bs).map .mem

/-- The third operand of an EVEX form (R75, R78): register `X ++ B ++ rm`, or memory. -/
def decodeEvexSrc3 (x b : BitVec 1) (modrm : Byte) (bs : List Byte) : Option EvexSrc3 :=
  if modrm.extractLsb' 6 2 = 3#2 then some (.reg (x ++ b ++ modrm.extractLsb' 0 3))
  else (decodeMem x b (modrm.extractLsb' 6 2) (modrm.extractLsb' 0 3) bs).map .mem

/-! ## The decoder (R96) -/

/-- Why bytes are refused; each is safe, for nothing is claimed of what the bytes do. -/
inductive DecodeRefusal where
  /-- The first byte after the prefixes is neither C4 nor 62 (R87; the escape C5, R73). -/
  | otherOpcode
  /-- C4 with another map, W, pp or opcode byte (R87). -/
  | vexNeighbour
  /-- 62 with another map, W, pp or opcode byte (R87). -/
  | evexNeighbour
  /-- 62 with `P0[3:2] != 00b` (R86). -/
  | evexReserved
  /-- A REX byte that is not the last prefix byte (R80, D13). -/
  | rexEarly
  deriving DecidableEq, Repr

/-- What the decoder answers. -/
inductive Decoded where
  /-- One of the six encodings. -/
  | ok (i : Instr)
  /-- A known illegal near-miss of `len` bytes: #UD (R80, R86). -/
  | illegal (len : Nat)
  /-- An instruction of `len` bytes, more than 15: #GP(0) (R70, R174). -/
  | tooLong (len : Nat)
  /-- Not one of the six encodings (R87). -/
  | refuse (r : DecodeRefusal)
  /-- The list ended before the instruction did. -/
  | needMore
  deriving DecidableEq, Repr

/-- The opcode byte's form (R81). -/
def formOfOpcode (op : Byte) : Option Form :=
  if op = 0x9F then some .f132
  else if op = 0xAF then some .f213
  else if op = 0xBF then some .f231
  else none

/-- The VEX constructor of a form (R81 rows 1 to 3). -/
def vexInstr : Form → VexOperands → Instr
  | .f132, o => .vfnmsub132ssVex o
  | .f213, o => .vfnmsub213ssVex o
  | .f231, o => .vfnmsub231ssVex o

/-- The EVEX constructor of a form (R81 rows 4 to 6). -/
def evexInstr : Form → EvexOperands → Instr
  | .f132, o => .vfnmsub132ssEvex o
  | .f213, o => .vfnmsub213ssEvex o
  | .f231, o => .vfnmsub231ssEvex o

/-- The last tests of R96 in the order of 60_exceptions.md R174: the length, then the #UD conditions. -/
def finishDecode (len : Nat) (i : Option Instr) : Decoded :=
  if 15 < len then .tooLong len
  else match i with
    | none => .illegal len
    | some i => .ok i

/-- The `C4` branch of R96 (R72, R82). -/
def decodeVex (ps : List PfxByte) (v1 v2 op : Byte) (bs : List Byte) : Decoded :=
  match formOfOpcode op with
  | none => .refuse .vexNeighbour
  | some f =>
    if v1 &&& 0x1F ≠ 0x02 ∨ v2 &&& 0x83 ≠ 0x01 then .refuse .vexNeighbour
    else if rexEarly ps then .refuse .rexEarly
    else match bs with
      | [] => .needMore
      | modrm :: rest =>
        let r := ~~~(v1.extractLsb' 7 1)
        let x := ~~~(v1.extractLsb' 6 1)
        let b := ~~~(v1.extractLsb' 5 1)
        match decodeVexSrc3 x b modrm rest with
        | none => .needMore
        | some src3 =>
          finishDecode (ps.length + 5 + vexSrc3Len src3)
            ((acceptedPfx ps).map fun pfx =>
              vexInstr f
                { pfx := pfx, l := v2.extractLsb' 2 1, d := r ++ modrm.extractLsb' 3 3,
                  s2 := ~~~(v2.extractLsb' 3 4), src3 := src3 })

/-- The `62` branch of R96 (R74, R83, R84, R85, R86). The tests of `b` with a memory operand and of `L'L = 11b` depend
on the parameters `P_B_MEM` and `P_LL11`; they stand beside the other #UD conditions of the EVEX forms (R172), in
Machine/Evex.lean. -/
def decodeEvex (ps : List PfxByte) (p0 p1 p2 op : Byte) (bs : List Byte) : Decoded :=
  if p0 &&& 0x0C ≠ 0 then .refuse .evexReserved
  else match formOfOpcode op with
  | none => .refuse .evexNeighbour
  | some f =>
    if p0 &&& 0x03 ≠ 0x02 ∨ p1 &&& 0x83 ≠ 0x01 then .refuse .evexNeighbour
    else if rexEarly ps then .refuse .rexEarly
    else match bs with
      | [] => .needMore
      | modrm :: rest =>
        let r := ~~~(p0.extractLsb' 7 1)
        let x := ~~~(p0.extractLsb' 6 1)
        let b := ~~~(p0.extractLsb' 5 1)
        let r' := ~~~(p0.extractLsb' 4 1)
        let v' := ~~~(p2.extractLsb' 3 1)
        let z := p2.extractLsb' 7 1
        let aaa := p2.extractLsb' 0 3
        match decodeEvexSrc3 x b modrm rest with
        | none => .needMore
        | some src3 =>
          finishDecode (ps.length + 6 + evexSrc3Len src3)
            (if p1.extractLsb' 2 1 = 0#1 ∨ (z = 1#1 ∧ aaa = 0#3) then none
             else (acceptedPfx ps).map fun pfx =>
              evexInstr f
                { pfx := pfx, d := r' ++ r ++ modrm.extractLsb' 3 3, s2 := v' ++ ~~~(p1.extractLsb' 3 4),
                  z := z, ll := p2.extractLsb' 5 2, b := p2.extractLsb' 4 1, aaa := aaa, src3 := src3 })

/-- The branch on the escape byte (R96). All bytes that a branch tests are read before its first test. -/
def decodeEscape (ps : List PfxByte) : List Byte → Decoded
  | [] => .needMore
  | c :: bs =>
    if c = 0xC4 then
      match bs with
      | v1 :: v2 :: op :: rest => decodeVex ps v1 v2 op rest
      | _ => .needMore
    else if c = 0x62 then
      match bs with
      | p0 :: p1 :: p2 :: op :: rest => decodeEvex ps p0 p1 p2 op rest
      | _ => .needMore
    else .refuse .otherOpcode

/-- The decoder for `Mode64` (R96). -/
def decode (bs : List Byte) : Decoded := decodeEscape (splitPfx bs).1 (splitPfx bs).2

/-- The bytes after the prefixes, completed by bytes that match R82 or R83 where they end before the opcode. -/
def padToPattern : List Byte → List Byte
  | [] => [0xC4, 0x02, 0x01, 0x9F]
  | c :: bs =>
    if c = 0xC4 then c :: (bs ++ [0x02, 0x01, 0x9F].drop bs.length)
    else if c = 0x62 then c :: (bs ++ [0x02, 0x05, 0x08, 0x9F].drop bs.length)
    else c :: bs

/-- Why bytes are refused however they go on: the tests of R96 that give `Refuse`, on as many bytes as there are. -/
def refusedAnyway (bs : List Byte) : Option DecodeRefusal :=
  match decodeEscape (splitPfx bs).1 (padToPattern (splitPfx bs).2) with
  | .refuse why => some why
  | _ => none

/-! ## The encoder -/

/-- The four bytes of a 32-bit displacement, lowest address first (R51, R77). -/
def encodeDisp32 (d : Word32) : List Byte :=
  [d.extractLsb' 0 8, d.extractLsb' 8 8, d.extractLsb' 16 8, d.extractLsb' 24 8]

/-- `mod` of a displacement after a base register (R77). -/
def dispMod : Disp → BitVec 2
  | .none => 0#2
  | .d8 _ => 1#2
  | .d32 _ => 2#2

/-- The bytes of a displacement (R77). -/
def encodeDisp : Disp → List Byte
  | .none => []
  | .d8 v => [v]
  | .d32 v => encodeDisp32 v

/-- A byte of ModRM's layout (R75) or SIB's (R76): two bits, three bits, three bits. -/
def byte233 (hi : BitVec 2) (mid lo : BitVec 3) : Byte := hi ++ mid ++ lo

/-- What a memory operand contributes: X, B, `mod`, `rm` and the bytes after ModRM (R75 to R79). -/
structure RmFields where
  x : BitVec 1
  b : BitVec 1
  mod : BitVec 2
  rm : BitVec 3
  tail : List Byte
  deriving DecidableEq, Repr

/-- The fields of a memory operand. -/
def encodeMem : MemOperand → RmFields
  | .ripRel x b d => ⟨x, b, 0#2, 5#3, encodeDisp32 d⟩
  | .base x reg d => ⟨x, reg.extractLsb' 3 1, dispMod d, reg.extractLsb' 0 3, encodeDisp d⟩
  | .sib scale index reg d =>
    ⟨index.extractLsb' 3 1, reg.extractLsb' 3 1, dispMod d, 4#3,
      byte233 scale (index.extractLsb' 0 3) (reg.extractLsb' 0 3) :: encodeDisp d⟩
  | .sibNoBase scale index b d =>
    ⟨index.extractLsb' 3 1, b, 0#2, 4#3, byte233 scale (index.extractLsb' 0 3) 5#3 :: encodeDisp32 d⟩

/-- The fields of a VEX form's third operand. -/
def encodeVexSrc3 : VexSrc3 → RmFields
  | .reg x num => ⟨x, num.extractLsb' 3 1, 3#2, num.extractLsb' 0 3, []⟩
  | .mem m => encodeMem m

/-- The fields of an EVEX form's third operand. -/
def encodeEvexSrc3 : EvexSrc3 → RmFields
  | .reg num => ⟨num.extractLsb' 4 1, num.extractLsb' 3 1, 3#2, num.extractLsb' 0 3, []⟩
  | .mem m => encodeMem m

/-- The opcode byte of a form (R81). -/
def opcodeOfForm : Form → Byte
  | .f132 => 0x9F
  | .f213 => 0xAF
  | .f231 => 0xBF

/-- The bytes of a VEX form (R70, R72): `V1` is `~R ~X ~B 00010`, `V2` is `0 ~vvvv L 01`. -/
def encodeVex (f : Form) (o : VexOperands) : List Byte :=
  let rm := encodeVexSrc3 o.src3
  let v1 : Byte := ~~~(o.d.extractLsb' 3 1) ++ ~~~rm.x ++ ~~~rm.b ++ 2#5
  let v2 : Byte := 0#1 ++ ~~~o.s2 ++ o.l ++ 1#2
  o.pfx.map legacyByte ++ 0xC4 :: v1 :: v2 :: opcodeOfForm f :: byte233 rm.mod (o.d.extractLsb' 0 3) rm.rm :: rm.tail

/-- The bytes of an EVEX form (R70, R74): `P0` is `~R ~X ~B ~R' 00 10`, `P1` is `0 ~vvvv 1 01`, `P2` is
`z L'L b ~V' aaa`. -/
def encodeEvex (f : Form) (o : EvexOperands) : List Byte :=
  let rm := encodeEvexSrc3 o.src3
  let p0 : Byte := ~~~(o.d.extractLsb' 3 1) ++ ~~~rm.x ++ ~~~rm.b ++ ~~~(o.d.extractLsb' 4 1) ++ 2#4
  let p1 : Byte := 0#1 ++ ~~~(o.s2.extractLsb' 0 4) ++ 5#3
  let p2 : Byte := o.z ++ o.ll ++ o.b ++ ~~~(o.s2.extractLsb' 4 1) ++ o.aaa
  o.pfx.map legacyByte ++
    0x62 :: p0 :: p1 :: p2 :: opcodeOfForm f :: byte233 rm.mod (o.d.extractLsb' 0 3) rm.rm :: rm.tail

/-- The bytes of an instruction at rising addresses (R70). -/
def encode : Instr → List Byte
  | .vfnmsub132ssVex o => encodeVex .f132 o
  | .vfnmsub213ssVex o => encodeVex .f213 o
  | .vfnmsub231ssVex o => encodeVex .f231 o
  | .vfnmsub132ssEvex o => encodeEvex .f132 o
  | .vfnmsub213ssEvex o => encodeEvex .f213 o
  | .vfnmsub231ssEvex o => encodeEvex .f231 o

/-! ## The table's words -/

/-- The low `n` bytes of `w`, the MOST significant first: spec/opcode_table.json writes a row's `match` with "byte 0
most significant", and byte 0 lies at the lowest address (log 8). -/
def bytesMsbFirst : Nat → Nat → List Byte
  | 0, _ => []
  | n + 1, w => BitVec.ofNat 8 (w / 2 ^ (8 * n)) :: bytesMsbFirst n w

/-- The bytes of an instruction whose table word is `w` (`nbits` bits), followed by zero bytes up to the longest
instruction, 15 bytes (R70). -/
def tableBytes (nbits w : Nat) : List Byte :=
  (bytesMsbFirst (nbits / 8) w ++ List.replicate 15 0#8).take (max 15 (nbits / 8))

/-- The instruction that the decoder reads from a word of spec/opcode_table.json. -/
def decodeTableWord (nbits w : Nat) : Option Instr :=
  match decode (tableBytes nbits w) with
  | .ok i => some i
  | _ => none

end Sys2Proof
end

