-- ==== Sys2Proof/Machine/State.lean ====
section
/-! DEFINITION. The state of the machine (10_state.md R20 to R34; the launch state of 70_reset_and_hazards.md R200), its
value at reset, and the reasons a step stops. -/

namespace Sys2Proof.Machine

/-- The processor mode (00_scope.md R6; 10_state.md R34; 60_exceptions.md R171). -/
inductive Mode where
  /-- Real-address mode, the mode after reset (R34). -/
  | real
  /-- Virtual-8086 mode (R171). -/
  | virtual8086
  /-- `Mode32`: compatibility or protected mode with 32-bit code (R6, R90). -/
  | mode32
  /-- `Mode64`: 64-bit mode (R6). -/
  | mode64
  deriving DecidableEq, Repr

/-- A finite partial map from addresses to bytes (20_memory.md R57), in canonical form: addresses strictly rising. An
unlisted address holds no byte. -/
abbrev Memory := List Host.Cell

/-- All the state that the spec gives the machine; INVENTORY.md names the rule of each field. -/
structure State where
  /-- V[0] to V[31] at 512 bits, of which `cfg.maxvl` exist (R20, R21). -/
  v : Vector VReg 32
  /-- K[0] to K[7] (R23). -/
  k : Vector Word64 8
  /-- MXCSR (R24, R25). -/
  mxcsr : Word32
  /-- x[0] to x[15] (R27). -/
  x : Vector Word64 16
  /-- RIP (R28). -/
  pc : Word64
  /-- RFLAGS (R29); AC is bit 18 (R31). -/
  rflags : Word64
  /-- The processor mode (R6, R34). -/
  mode : Mode
  /-- The current privilege level (R31, R180). -/
  cpl : BitVec 2
  /-- CS base, zero in effect in 64-bit mode (R30, R34). DESIGN CHOICE (log 33): 64 bits, a width the spec does not
  give. -/
  csBase : Word64
  /-- FS.base (R30). -/
  fsBase : Word64
  /-- GS.base (R30). -/
  gsBase : Word64
  /-- CR0: TS is bit 3, AM bit 18 (R31). -/
  cr0 : Word64
  /-- CR4: OSXMMEXCPT is bit 10, OSXSAVE bit 18 (R31). -/
  cr4 : Word64
  /-- XCR0: SSE and AVX state are bits 2:1, opmask and ZMM state bits 7:5 (R31). -/
  xcr0 : Word64
  /-- The memory that data reads see, by physical address (R57). -/
  mem : Memory
  /-- The program text that the decoder reads, by physical address (R61, D11; log 6). -/
  text : Memory
  /-- The configuration and the open parameters (R6; D16 to D22). -/
  cfg : Config
  /-- The model's own counter of completed instructions, the argument of every free value (log 18). -/
  draws : Nat
  deriving DecidableEq, Repr

/-- The exceptions of R173, with the information each records. DESIGN CHOICE (log 32): an error code is 32 bits wide;
the spec gives it no width. -/
inductive Exception where
  /-- #UD invalid opcode. -/
  | ud
  /-- #NM device not available. -/
  | nm
  /-- #SS(code) stack-segment fault. -/
  | ss (code : Word32)
  /-- #GP(code) general protection. -/
  | gp (code : Word32)
  /-- #PF(code), with the faulting linear address that CR2 receives. -/
  | pf (code : Word32) (linear : Word64)
  /-- #AC(code) alignment check. -/
  | ac (code : Word32)
  /-- #XM SIMD floating-point exception. -/
  | xm
  deriving DecidableEq, Repr

/-- Why the machine stops in a fault. -/
inductive Fault where
  /-- `Fault(e, state')` of 00_scope.md R10: exception `e` was raised and `after` is the state it leaves (R175). Raised
  by the fetch, the decoder and every meaning through `raise`. Terminal, as the spec says (R175, D14): safe. -/
  | exception (e : Exception) (after : State)
  /-- Stuck: a data read or a fetch needs the byte at a physical address that the map does not contain (R57, D9).
  Raised by `MemRead` and by the fetch; no architectural exception. Safe: a stuck run proves nothing. -/
  | absentByte (phys : Word64) (after : State)
  deriving DecidableEq, Repr

/-- Why a step is refused (`Refuse(reason)` of 00_scope.md R10). -/
inductive Refusal where
  /-- `exec` has no meaning for the instruction yet. No arm answers so. Safe. -/
  | notModelled (mnemonic : String)
  /-- The machine is in `Mode32` (30_encoding.md R90, D2). Raised by the step and by every meaning. Safe. -/
  | mode32
  /-- The bytes are not one of the six encodings (R86, R87, D1, D13). Raised by the decoder through the step. Safe. -/
  | notInScope (why : DecodeRefusal)
  /-- The instruction's bytes pass 2^64 - 1, or `pc + len` is not a canonical address (10_state.md R28, D4). Raised by
  the fetch and by every meaning. Safe. -/
  | pcPastTop
  deriving DecidableEq, Repr

/-- What executing an instruction answers (R10). -/
abbrev Result := Host.Outcome State Fault Refusal

/-- The state after power-up or RESET# (10_state.md R34, 70_reset_and_hazards.md R200). Where R34 gives no value, the
log does: x[0] and x[2] (log 19), `cfg` (logs 3, 4, 11 to 17, 22), the memories (logs 5, 6), `draws` (log 18). -/
def State.reset : State where
  v := Vector.replicate 32 0
  k := Vector.replicate 8 0
  mxcsr := 0x00001F80
  x := Vector.replicate 16 0
  pc := 0xFFF0
  rflags := 0x00000002
  mode := .real
  cpl := 0
  csBase := 0xFFFF0000
  fsBase := 0
  gsBase := 0
  cr0 := 0x60000010
  cr4 := 0
  xcr0 := 1
  mem := []
  text := []
  cfg := Config.recommended
  draws := 0

end Sys2Proof.Machine
end

