-- ==== Sys2Proof/Machine/Flags.lean ====
section
/-! DEFINITION. MXCSR: its fields (10_state.md R25), what the instructions read of it and write to it (R26), the test
for an unmasked SIMD floating-point exception and the flags one leaves (41_fma_numerics.md R156, R157). A flag set is a
6-bit value in MXCSR's own bit positions (R156). -/

namespace Sys2Proof.Machine

/-- The four rounding modes (41_fma_numerics.md R152). -/
inductive RoundMode where
  | rn
  | rd
  | ru
  | rz
  deriving DecidableEq, Repr

/-- The encoding that MXCSR.RC and EVEX.RC share (10_state.md R25; 30_encoding.md R84). -/
def roundModeOf (rc : BitVec 2) : RoundMode :=
  if rc = 0#2 then .rn else if rc = 1#2 then .rd else if rc = 2#2 then .ru else .rz

/-- The empty flag set. -/
def flagNone : BitVec 6 := 0
/-- IE, invalid operation, bit 0 (R25). -/
def flagIE : BitVec 6 := 0x01
/-- DE, denormal operand, bit 1 (R25). -/
def flagDE : BitVec 6 := 0x02
/-- OE, overflow, bit 3 (R25). -/
def flagOE : BitVec 6 := 0x08
/-- UE, underflow, bit 4 (R25). -/
def flagUE : BitVec 6 := 0x10
/-- PE, precision, bit 5 (R25). -/
def flagPE : BitVec 6 := 0x20

/-- MXCSR.DAZ, bit 6 (R25). -/
def mxcsrDaz (m : Word32) : Bool := m.getLsbD 6

/-- The six mask bits, MXCSR[12:7] (R25). -/
def mxcsrMasks (m : Word32) : BitVec 6 := m.extractLsb' 7 6

/-- MXCSR.UM, bit 11 (R25). -/
def mxcsrUm (m : Word32) : Bool := m.getLsbD 11

/-- MXCSR.RC, bits 14:13 (R25). -/
def mxcsrRc (m : Word32) : RoundMode := roundModeOf (m.extractLsb' 13 2)

/-- MXCSR.FTZ, bit 15 (R25). -/
def mxcsrFtz (m : Word32) : Bool := m.getLsbD 15

/-- `MXCSR[5:0] <- MXCSR[5:0] | fl` (R26, R156). -/
def mxcsrOr (m : Word32) (fl : BitVec 6) : Word32 := m ||| fl.setWidth 32

/-- `Unmasked(fl, tiny)` (41_fma_numerics.md R157). -/
def unmasked (fl : BitVec 6) (tiny : Bool) (m : Word32) : Bool :=
  (fl &&& ~~~(mxcsrMasks m)) != 0 || (tiny && !mxcsrUm m)

/-- The flags an unmasked exception leaves set under `P_XM_FLAGS = set_as_described` (R157): an unmasked IE or DE is
raised before the computation, so no OE, UE or PE comes with it; otherwise the flags of the computation. Only where
underflow is unmasked (UM = 0) is FTZ not applied: then a tiny result has the flags without FTZ, and UE (log 17). `fl`
is the flag set under MXCSR.FTZ, `flNoFtz` the one without. -/
def xmFlagsDescribed (fl flNoFtz : BitVec 6) (tiny : Bool) (m : Word32) : BitVec 6 :=
  if fl &&& (flagIE ||| flagDE) &&& ~~~(mxcsrMasks m) ≠ 0 then fl &&& (flagIE ||| flagDE)
  else if tiny && !mxcsrUm m then flNoFtz ||| flagUE
  else fl

/-- The flags the computation could set: those signalled with MXCSR.FTZ and, for a tiny result, UE (R157, D20). -/
def xmFlagsPossible (fl : BitVec 6) (tiny : Bool) : BitVec 6 := if tiny then fl ||| flagUE else fl

/-- MXCSR after an unmasked exception (`P_XM_FLAGS`, D20; U11): the described flags, or the old flags ORed with a free
subset of those that the computation could set. `fl` is the flag set under MXCSR.FTZ, `flNoFtz` the one without. -/
def xmMxcsr (p : PXmFlags) (draw fl flNoFtz : BitVec 6) (tiny : Bool) (m : Word32) : Word32 :=
  match p with
  | .setAsDescribed => mxcsrOr m (xmFlagsDescribed fl flNoFtz tiny m)
  | .unconstrained => mxcsrOr m (xmFlagsPossible fl tiny &&& draw)

end Sys2Proof.Machine
end

