-- ==== Sys2Proof/Machine/Numerics.lean ====
section
/-! DEFINITION. The arithmetic `FNMSUB32` (41_fma_numerics.md R140 to R161). Finite operands are taken as exact integers
in units of 2^-149, so a product, and the exact `v`, are integers in units of 2^-298; only `v` is rounded (R151). -/

namespace Sys2Proof.Machine

/-! ## The format (R140, R141) -/

/-- The sign bit (R140). -/
def signOf (u : Word32) : Bool := u.getLsbD 31

/-- The biased exponent (R140). -/
def expOf (u : Word32) : Nat := (u.extractLsb' 23 8).toNat

/-- The fraction (R140). -/
def fracOf (u : Word32) : Nat := (u.extractLsb' 0 23).toNat

/-- A zero (R140). -/
def isZero (u : Word32) : Bool := expOf u == 0 && fracOf u == 0

/-- A denormal (R140). -/
def isDenormal (u : Word32) : Bool := expOf u == 0 && fracOf u != 0

/-- An infinity (R140). -/
def isInf (u : Word32) : Bool := expOf u == 255 && fracOf u == 0

/-- A NaN, signalling or quiet (R140). -/
def isNaN (u : Word32) : Bool := expOf u == 255 && fracOf u != 0

/-- A signalling NaN: bit 22 is 0 (R140). -/
def isSNaN (u : Word32) : Bool := isNaN u && !u.getLsbD 22

/-- A zero, denormal or normal number (R140). -/
def isFinite (u : Word32) : Bool := expOf u != 255

/-- `quiet(u)` (R141). -/
def quiet (u : Word32) : Word32 := u ||| 0x00400000

/-- The QNaN floating-point indefinite (R141). -/
def indefinite : Word32 := 0xFFC00000

/-- The magnitude of a finite `u` in units of 2^-149 (R140). -/
def magOf (u : Word32) : Nat :=
  if expOf u = 0 then fracOf u else (2 ^ 23 + fracOf u) * 2 ^ (expOf u - 1)

/-- `val(u)` of a finite `u` in units of 2^-149 (R141). -/
def valOf (u : Word32) : Int := if signOf u then -(magOf u : Int) else magOf u

/-- A word from its sign and its lower 31 bits. -/
def packWord (neg : Bool) (low : Nat) : Word32 := BitVec.ofBool neg ++ BitVec.ofNat 31 low

/-- The infinity of a sign (R149). -/
def infOf (neg : Bool) : Word32 := packWord neg 0x7F800000

/-- The zero of a sign (R140). -/
def zeroOf (neg : Bool) : Word32 := packWord neg 0

/-- The largest finite value of a sign (R140, R153). -/
def maxFiniteOf (neg : Bool) : Word32 := packWord neg 0x7F7FFFFF

/-! ## Rounding (R152 to R155) -/

/-- What `FNMSUB32` returns: the result, the flag set and `tiny` (R143). -/
structure FmaResult where
  value : Word32
  fl : BitVec 6
  tiny : Bool
  deriving DecidableEq, Repr

/-- `RoundInt(num/den, neg, rm)` (R152). -/
def roundInt (rm : RoundMode) (neg : Bool) (num den : Nat) : Nat :=
  let q := num / den
  let r := num % den
  match rm with
  | .rz => q
  | .rd => if neg ∧ r ≠ 0 then q + 1 else q
  | .ru => if ¬ neg ∧ r ≠ 0 then q + 1 else q
  | .rn => if den < 2 * r then q + 1 else if 2 * r < den then q else q + q % 2

/-- The masked result of an overflow (R153). -/
def overflowValue (rm : RoundMode) (neg : Bool) : Word32 :=
  match rm with
  | .rn => infOf neg
  | .rz => maxFiniteOf neg
  | .rd => if neg then infOf neg else maxFiniteOf neg
  | .ru => if neg then maxFiniteOf neg else infOf neg

/-- The flags of a rounding: PE when it was inexact. -/
def inexactFlag (inexact : Bool) : BitVec 6 := if inexact then flagPE else flagNone

/-- A tiny result (R154): flushed to zero, or rounded again from the exact `a` (in units of 2^-298) to a multiple of
2^-149. -/
def roundTiny (rm : RoundMode) (ftz neg : Bool) (a : Nat) : FmaResult :=
  if ftz then ⟨zeroOf neg, flagUE ||| flagPE, true⟩
  else ⟨packWord neg (roundInt rm neg a (2 ^ 149)),
    if a % 2 ^ 149 ≠ 0 then flagUE ||| flagPE else flagNone, true⟩

/-- The precision-limited rounding of R152, exponent unbounded, of `a` in units of 2^-298 with leading bit `k`: the
24-bit significand and the position of its leading bit after a carry out. -/
def roundSig (rm : RoundMode) (neg : Bool) (a : Nat) : Nat × Nat :=
  let n := roundInt rm neg (a * 2 ^ 23) (2 ^ a.log2)
  if n = 2 ^ 24 then (2 ^ 23, a.log2 + 1) else (n, a.log2)

/-- `Round(v, rm, ftz)` of a nonzero exact `v` in units of 2^-298 (R152 to R155). With `k` the leading bit's position
after rounding, the exponent `E` is `k - 298`: over 127 is overflow, under -126 is tiny. -/
def roundResult (rm : RoundMode) (ftz : Bool) (v : Int) : FmaResult :=
  let neg : Bool := decide (v < 0)
  let a := v.natAbs
  let n := (roundSig rm neg a).1
  let k := (roundSig rm neg a).2
  if 298 + 127 < k then ⟨overflowValue rm neg, flagOE ||| flagPE, false⟩
  else if k < 298 - 126 then roundTiny rm ftz neg a
  else ⟨packWord neg ((k + 127 - 298) * 2 ^ 23 + n % 2 ^ 23), inexactFlag (decide (a * 2 ^ 23 % 2 ^ a.log2 ≠ 0)), false⟩

/-! ## The function (R143) -/

/-- `DAZ(u)` (R144). -/
def dazOf (daz : Bool) (u : Word32) : Word32 := if daz && isDenormal u then u &&& 0x80000000 else u

/-- The NaN operands in the order x, y, z (R145). -/
def nanOperands (x y z : Word32) : List Word32 := [x, y, z].filter isNaN

/-- The NaN result (R145): the quieted operand that `pick` chooses, the first for `pick = 0`; IE if an operand is an
SNaN, or if `ieInfZero` holds and zero times infinity meets a QNaN `z` (`P_NAN`, `P_IE_INFZERO_QNAN`). -/
def nanResult (pick : Nat) (ieInfZero : Bool) (x y z : Word32) : FmaResult :=
  let ns := nanOperands x y z
  ⟨quiet (ns.getD (pick % ns.length) indefinite),
    if isSNaN x || isSNaN y || isSNaN z then flagIE
    else if ieInfZero && ((isZero x && isInf y) || (isInf x && isZero y)) then flagIE
    else flagNone,
    false⟩

/-- The sign of the first term, `-(x*y)` (R147). -/
def signProd (x y : Word32) : Bool := !(signOf x ^^ signOf y)

/-- The sign of the second term, `-z` (R147). -/
def signSub (z : Word32) : Bool := !signOf z

/-- The flags of R148. -/
def denormalFlag (x y z : Word32) : BitVec 6 :=
  if isDenormal x || isDenormal y || isDenormal z then flagDE else flagNone

/-- The exact `v = -(val(x)*val(y)) - val(z)` in units of 2^-298 (R151). -/
def exactValue (x y z : Word32) : Int := -(valOf x * valOf y) - valOf z * 2 ^ 149

/-- The exact zero result (R150). -/
def exactZero (rm : RoundMode) (x y z : Word32) : Word32 :=
  if (isZero x || isZero y) && isZero z && (signProd x y == signSub z) then zeroOf (signProd x y)
  else zeroOf (decide (rm = .rd))

/-- The finite case, steps 7 to 9 of R143, with the flags so far. -/
def finiteResult (rm : RoundMode) (ftz : Bool) (fl : BitVec 6) (x y z : Word32) : FmaResult :=
  let v := exactValue x y z
  if v = 0 then ⟨exactZero rm x y z, fl, false⟩
  else
    let r := roundResult rm ftz v
    ⟨r.value, fl ||| r.fl, r.tiny⟩

/-- Steps 2 to 9 of R143, on operands that step 1 has read through DAZ. -/
def fnmsubCore (pick : Nat) (ieInfZero : Bool) (x y z : Word32) (rm : RoundMode) (ftz : Bool) : FmaResult :=
  if isNaN x || isNaN y || isNaN z then nanResult pick ieInfZero x y z
  else if (isZero x && isInf y) || (isInf x && isZero y) then ⟨indefinite, flagIE, false⟩
  else if (isInf x || isInf y) && isInf z && (signProd x y != signSub z) then ⟨indefinite, flagIE, false⟩
  else if isInf x || isInf y then ⟨infOf (signProd x y), denormalFlag x y z, false⟩
  else if isInf z then ⟨infOf (signSub z), denormalFlag x y z, false⟩
  else finiteResult rm ftz (denormalFlag x y z) x y z

/-- `FNMSUB32(x, y, z, rm, daz, ftz)` (R143). `pick` and `ieInfZero` resolve the parameters `P_NAN` and
`P_IE_INFZERO_QNAN`; their defaults are 0 and false. -/
def fnmsub32 (pick : Nat) (ieInfZero : Bool) (x y z : Word32) (rm : RoundMode) (daz ftz : Bool) : FmaResult :=
  fnmsubCore pick ieInfZero (dazOf daz x) (dazOf daz y) (dazOf daz z) rm ftz

end Sys2Proof.Machine
end

