-- ==== Sys2Proof/Machine/Ops.lean ====
section
/-! DEFINITION. The shared operations over memory and registers: the memory map (20_memory.md R57), translation (R55),
canonical addresses (R54), `MemRead` (R56), the vector and opmask registers (10_state.md R20 to R23), raising an
exception (60_exceptions.md R173, R175), the instruction pointer's advance (10_state.md R28, D4), and the launch
(70_reset_and_hazards.md R200, D12). -/

namespace Sys2Proof.Machine

/-! ## The memory map (R57) -/

/-- The byte at a physical address, if the map contains one. -/
def memGet : Memory → Nat → Option Byte
  | [], _ => none
  | c :: m, a => if c.1 = a then some c.2 else memGet m a

/-- The map with the byte at a physical address set, addresses kept strictly rising. Only the launch writes (R50). -/
def memSet : Memory → Nat → Byte → Memory
  | [], a, b => [(a, b)]
  | c :: m, a, b =>
    if a < c.1 then (a, b) :: c :: m
    else if a = c.1 then (a, b) :: m
    else c :: memSet m a b

/-- The canonical form: addresses strictly rising and physical, that is below 2^64. An unlisted address holds no byte,
so no entry can equal what an unlisted address reads as. -/
abbrev Memory.wf (m : Memory) : Prop := m.Pairwise (fun c c' => c.1 < c'.1) ∧ ∀ c ∈ m, c.1 < 2 ^ 64

/-! ## Exceptions (R173, R175) -/

/-- The vector number (R173). -/
def Exception.vector : Exception → Nat
  | .ud => 6
  | .nm => 7
  | .ss _ => 12
  | .gp _ => 13
  | .pf _ _ => 14
  | .ac _ => 17
  | .xm => 19

/-- The error code, where the exception has one (R173). -/
def Exception.errorCode : Exception → Option Word32
  | .ss code => some code
  | .gp code => some code
  | .pf code _ => some code
  | .ac code => some code
  | .ud => none
  | .nm => none
  | .xm => none

/-- Taking an exception: `raise e` ends the step with `Fault(e, info)`, terminal, and the state as it was before the
instruction (R175). The spec does not describe trap entry or return (R176, R177, D14; log 2). -/
def raise (e : Exception) (s : State) : Result := .fault (.exception e s)

/-- Why a memory access stops: an exception, or an absent byte (R56, R57). -/
inductive Stop where
  | exception (e : Exception)
  | absent (phys : Word64)
  deriving DecidableEq, Repr

/-- The outcome of a step that an access stopped. -/
def stopWith (e : Stop) (s : State) : Result :=
  match e with
  | .exception e => raise e s
  | .absent p => .fault (.absentByte p s)

/-! ## Addresses (R54, R55) -/

/-- Canonical: bits 63:47 all equal, or bits 63:56 with 5-level paging (R54). -/
def canonical (c : Config) (a : Word64) : Bool :=
  if c.fiveLevel then a.extractLsb' 56 8 == 0 || a.extractLsb' 56 8 == BitVec.allOnes 8
  else a.extractLsb' 47 17 == 0 || a.extractLsb' 47 17 == BitVec.allOnes 17

/-- `Translate(linear, kind)` (R55, R180): the first range that holds the address decides, and the identity where none does
(D8; log 4). -/
def translate : List TransRange → AccessKind → Word64 → TransTarget
  | [], _, a => .phys a
  | r :: rs, kind, a =>
    if r.kind = kind ∧ r.lo ≤ a ∧ a ≤ r.hi then
      match r.target with
      | .phys base => .phys (base + (a - r.lo))
      | .pageFault code => .pageFault code
    else translate rs kind a

/-- Is alignment checking on: CR0.AM, RFLAGS.AC and CPL 3 (R52; 10_state.md R31). -/
def alignCheckOn (s : State) : Bool := s.cr0.getLsbD 18 && s.rflags.getLsbD 18 && s.cpl == 3

/-! ## `MemRead` (R56) -/

/-- The fault of a non-canonical address: #SS(0) through the SS segment, else #GP(0) (R54). -/
def nonCanonical (viaSs : Bool) : Exception := if viaSs then .ss 0 else .gp 0

/-- Step (2) of R56 for one byte address: a data read at the current privilege level (R55, R180). -/
def translateData (s : State) (a : Word64) : Except Stop Word64 :=
  match translate s.cfg.translate (.dataRead s.cpl) a with
  | .phys p => .ok p
  | .pageFault code => .error (.exception (.pf code a))

/-- Step (4) of R56 for one byte: the run is stuck where the map has none (R57, D9). -/
def loadByte (m : Memory) (p : Word64) : Except Stop Byte :=
  match memGet m p.toNat with
  | some b => .ok b
  | none => .error (.absent p)

/-- `MemRead(linear, 4)` with the order of R56: canonical, translation in rising order, alignment, bytes. Byte addresses
are `linear + i` modulo 2^64 (log 21); the value is little-endian (R51). -/
def memRead (s : State) (viaSs : Bool) (a : Word64) : Except Stop Word32 :=
  if !(canonical s.cfg a && canonical s.cfg (a + 1) && canonical s.cfg (a + 2) && canonical s.cfg (a + 3)) then
    .error (.exception (nonCanonical viaSs))
  else do
    let p0 ← translateData s a
    let p1 ← translateData s (a + 1)
    let p2 ← translateData s (a + 2)
    let p3 ← translateData s (a + 3)
    if alignCheckOn s && a.extractLsb' 0 2 != 0 then
      .error (.exception (.ac 0))
    else do
      let b0 ← loadByte s.mem p0
      let b1 ← loadByte s.mem p1
      let b2 ← loadByte s.mem p2
      let b3 ← loadByte s.mem p3
      return le32 b0 b1 b2 b3

/-! ## Registers (R20 to R23, R112) -/

/-- `V[i][31:0]` (R22). -/
def lowDword (s : State) (i : Fin 32) : Word32 := s.v[i].extractLsb' 0 32

/-- `zext_MAXVL(old[127:32] ++ low)`: bits 127:32 kept, every bit above 127 zero (R112). -/
def mergeLow (old : VReg) (low : Word32) : VReg := (old.extractLsb' 32 96 ++ low).setWidth 512

/-- `V[d] <- zext_MAXVL(V[d][127:32] ++ low)` (R112). -/
def writeLow (v : Vector VReg 32) (d : Fin 32) (low : Word32) : Vector VReg 32 := v.set d (mergeLow v[d] low)

/-- `K[i][0]`, the one mask bit that is read (R113, R23). -/
def maskBit (s : State) (i : Fin 8) : Bool := s.k[i].getLsbD 0

/-! ## The instruction pointer (R28, D4) -/

/-- `pc + len`, or none where it wraps past 2^64 or is not canonical, which is refused (R28, D4; log 10). -/
def nextPc (s : State) (len : Nat) : Option Word64 :=
  if s.pc.toNat + len < 2 ^ 64 ∧ canonical s.cfg (s.pc + BitVec.ofNat 64 len) = true
  then some (s.pc + BitVec.ofNat 64 len) else none

/-! ## Enable bits (10_state.md R31) -/

/-- CR0.TS (R31). -/
def tsSet (s : State) : Bool := s.cr0.getLsbD 3

/-- CR4.OSXSAVE (R31). -/
def osxsave (s : State) : Bool := s.cr4.getLsbD 18

/-- CR4.OSXMMEXCPT (R31). -/
def osxmmexcpt (s : State) : Bool := s.cr4.getLsbD 10

/-- XCR0[2:1] = 11b (R31). -/
def avxStateOn (s : State) : Bool := s.xcr0.extractLsb' 1 2 == 3

/-- XCR0[7:5] = 111b (R31). -/
def avx512StateOn (s : State) : Bool := s.xcr0.extractLsb' 5 3 == 7

/-! ## The launch (R200, D12) -/

/-- What the launch sets in a machine that is not in 64-bit mode: `Mode64` and the enable bits of R31 in their enabling
position, as 10_state.md R34 recommends (log 7). -/
def launch (s : State) : State :=
  { s with
    mode := .mode64
    cr0 := s.cr0 &&& ~~~(0x8 : Word64)
    cr4 := s.cr4 ||| 0x40400
    xcr0 := s.xcr0 ||| 0xE6 }

/-- A code byte at the linear address `a`: its physical place under `Translate(_, fetch)` in the program text, and in
memory, whose address space the text shares (10_state.md R32; log 6). -/
def placeCodeByte (s : State) (a : Word64) (b : Byte) : State :=
  match translate s.cfg.translate (.fetch s.cpl) a with
  | .phys p => { s with text := memSet s.text p.toNat b, mem := memSet s.mem p.toNat b }
  | .pageFault _ => s

/-- Code bytes at rising linear addresses. -/
def placeCode (s : State) (a : Word64) : List Byte → State
  | [] => s
  | b :: bs => placeCode (placeCodeByte s a b) (a + 1) bs

end Sys2Proof.Machine
end

