-- ==== Sys2Proof/Machine/Operands.lean ====
section
/-! DEFINITION. The operands of an instruction in scope: the segment and the effective address of a memory operand
(30_encoding.md R79, R80; 20_memory.md R54), the decoded record that R110 works on, and the reading of SRC3
(40_vfnmsub_ss.md R110 step 4, R111). -/

namespace Sys2Proof.Machine

/-! ## Prefixes (R80) -/

/-- Is an address-size prefix 67 present (R80). -/
def addrSize32 (pfx : List LegacyPrefix) : Bool := pfx.contains .a32

/-- The segment base after a list of prefixes: the last FS or GS override counts, the others add nothing (R80). -/
def segBase (s : State) : List LegacyPrefix → Word64 → Word64
  | [], acc => acc
  | .fs :: ps, _ => segBase s ps s.fsBase
  | .gs :: ps, _ => segBase s ps s.gsBase
  | _ :: ps, acc => segBase s ps acc

/-- Is any segment override present (R54, R80). -/
def segOverride (pfx : List LegacyPrefix) : Bool := pfx.any (· != .a32)

/-! ## The effective address (R77, R79) -/

/-- A register or `pc + len` as the address size sees it (R79). -/
def narrow (a32 : Bool) (a : Word64) : Word64 := if a32 then (a.setWidth 32).setWidth 64 else a

/-- The value of a displacement: an 8-bit one is scaled by `n8`, 1 for VEX and 4 for EVEX; a 32-bit one never (R77). -/
def dispValue (n8 : Word64) : Disp → Word64
  | .none => 0
  | .d8 v => v.signExtend 64 * n8
  | .d32 v => v.signExtend 64

/-- `x[i]` for the 4-bit number that the encoding assembles (R27, R79). -/
def gpr (s : State) (i : BitVec 4) : Word64 := s.x[i.toNat]

/-- The scaled index; `0100b` is no index (R76, R79). -/
def indexValue (s : State) (a32 : Bool) (scale : BitVec 2) (index : BitVec 4) : Word64 :=
  if index = 4#4 then 0 else narrow a32 (gpr s index) <<< scale.toNat

/-- The effective address of R79. -/
def effAddr (s : State) (a32 : Bool) (n8 : Word64) (len : Nat) : MemOperand → Word64
  | .ripRel _ _ d => narrow a32 (narrow a32 (s.pc + BitVec.ofNat 64 len) + d.signExtend 64)
  | .base _ r d => narrow a32 (narrow a32 (gpr s r) + dispValue n8 d)
  | .sib sc ix r d => narrow a32 (narrow a32 (gpr s r) + indexValue s a32 sc ix + dispValue n8 d)
  | .sibNoBase sc ix _ d => narrow a32 (indexValue s a32 sc ix + d.signExtend 64)

/-- Is the base register RSP or RBP (10_state.md R30; R79). -/
def baseIsStack : MemOperand → Bool
  | .ripRel _ _ _ => false
  | .base _ r _ => r == 4 || r == 5
  | .sib _ _ r _ => r == 4 || r == 5
  | .sibNoBase _ _ _ _ => false

/-- A memory operand with what its address depends on. -/
structure MemRef where
  pfx : List LegacyPrefix
  n8 : Word64
  len : Nat
  operand : MemOperand
  deriving DecidableEq, Repr

/-- The linear address (20_memory.md R54). -/
def linearAddr (s : State) (m : MemRef) : Word64 :=
  effAddr s (addrSize32 m.pfx) m.n8 m.len m.operand + segBase s m.pfx 0

/-- Is the segment used SS: base RSP or RBP and no segment override (R54; log 20). -/
def usesSs (m : MemRef) : Bool := baseIsStack m.operand && !segOverride m.pfx

/-! ## The decoded record (30_encoding.md R96) -/

/-- The third operand: a vector register or memory (R75). -/
inductive Src3 where
  | reg (n : Fin 32)
  | mem (m : MemRef)
  deriving DecidableEq, Repr

/-- What R110 works on: the form, the register numbers, the third operand, the writemask register (none for the VEX
forms and for `aaa = 000b`, R113), zeroing, and the embedded rounding mode (R114). -/
structure FmaOp where
  form : Form
  dest : Fin 32
  src2 : Fin 32
  src3 : Src3
  mask : Option (Fin 8)
  zeroing : Bool
  er : Option RoundMode
  len : Nat
  deriving DecidableEq, Repr

/-- The vector register of a 4-bit number (R78). -/
def vreg4 (n : BitVec 4) : Fin 32 := ⟨n.toNat, by omega⟩

/-- The vector register of a 5-bit number (R78). -/
def vreg5 (n : BitVec 5) : Fin 32 := ⟨n.toNat, by omega⟩

/-- The opmask register of a 3-bit number (R85). -/
def kreg3 (n : BitVec 3) : Fin 8 := ⟨n.toNat, by omega⟩

/-- The record of a VEX form (R116): no writemask, no embedded rounding, an 8-bit displacement unscaled (R77). -/
def vexOp (f : Form) (o : VexOperands) : FmaOp where
  form := f
  dest := vreg4 o.d
  src2 := vreg4 o.s2
  src3 := match o.src3 with
    | .reg _ n => .reg (vreg4 n)
    | .mem m => .mem ⟨o.pfx, 1, vexLen o, m⟩
  mask := none
  zeroing := false
  er := none
  len := vexLen o

/-- Is the third operand a register (R75). -/
def evexSrc3IsReg : EvexSrc3 → Bool
  | .reg _ => true
  | .mem _ => false

/-- The record of an EVEX form (R119): writemask R85, embedded rounding R84 and R114 (with a register operand only), an
8-bit displacement scaled by 4 (R77). -/
def evexOp (f : Form) (o : EvexOperands) : FmaOp where
  form := f
  dest := vreg5 o.d
  src2 := vreg5 o.s2
  src3 := match o.src3 with
    | .reg n => .reg (vreg5 n)
    | .mem m => .mem ⟨o.pfx, 4, evexLen o, m⟩
  mask := if o.aaa = 0#3 then none else some (kreg3 o.aaa)
  zeroing := o.z == 1#1
  er := if o.b = 1#1 ∧ evexSrc3IsReg o.src3 = true then some (roundModeOf o.ll) else none
  len := evexLen o

/-! ## Reading the operands (R110 step 4, R111, R113) -/

/-- Is the low element active: no writemask, or bit 0 of the mask register (R113). -/
def active (op : FmaOp) (s : State) : Bool :=
  match op.mask with
  | none => true
  | some i => maskBit s i

/-- The value of SRC3[31:0]: the register's low doubleword, or `MemRead` (R50, R110). -/
def readSrc3 (op : FmaOp) (s : State) : Except Stop Word32 :=
  match op.src3 with
  | .reg n => .ok (lowDword s n)
  | .mem m => memRead s (usesSs m) (linearAddr s m)

/-- Is a masked-off memory operand read all the same: never under `P_FAULTSUPP = no_access`, a free value under
`either` (D22; log 14). -/
def maskedAccess (s : State) : Bool :=
  match s.cfg.pFaultSupp with
  | .noAccess => false
  | .either => Config.freeMaskedAccess s.draws

/-- The multiplicands x, y and the subtrahend z of a form (R111). -/
def bindOperands (f : Form) (dv s2v s3v : Word32) : Word32 × Word32 × Word32 :=
  match f with
  | .f132 => (dv, s3v, s2v)
  | .f213 => (s2v, dv, s3v)
  | .f231 => (s2v, s3v, dv)

end Sys2Proof.Machine
end

