-- ==== Sys2Proof/Machine/Fma.lean ====
section
/-! DEFINITION. The steps that all six encodings share (40_vfnmsub_ss.md R110, steps 2 to 7): the checks in the order of
60_exceptions.md R174, the arithmetic, the delivery of flags or of an exception, and the write of the destination. -/

namespace Sys2Proof.Machine

/-- The choice among NaN operands that `P_NAN` makes (D18; log 11). -/
def nanPick (s : State) : Nat :=
  match s.cfg.pNan with
  | .firstInOperationOrder => 0
  | .anyQuietOperand => Config.freeNanPick s.draws

/-- Whether zero times infinity with a QNaN addend signals Invalid (`P_IE_INFZERO_QNAN`, D19; log 12). -/
def ieInfZero (s : State) : Bool :=
  match s.cfg.pIeInfZeroQnan with
  | .noFlag => false
  | .ie => true
  | .either => Config.freeIeInfZeroQnan s.draws

/-- The rounding mode (R114): EVEX.RC under embedded rounding, else MXCSR.RC. -/
def roundingOf (op : FmaOp) (s : State) : RoundMode := op.er.getD (mxcsrRc s.mxcsr)

/-- `FNMSUB32` of the form's operands under the machine's MXCSR and parameters (R110 step 5), with a given FTZ. -/
def computeWith (op : FmaOp) (s : State) (s3v : Word32) (ftz : Bool) : FmaResult :=
  let b := bindOperands op.form (lowDword s op.dest) (lowDword s op.src2) s3v
  fnmsub32 (nanPick s) (ieInfZero s) b.1 b.2.1 b.2.2 (roundingOf op s) (mxcsrDaz s.mxcsr) ftz

/-- `FNMSUB32` of the form's operands (R110 step 5). -/
def compute (op : FmaOp) (s : State) (s3v : Word32) : FmaResult := computeWith op s s3v (mxcsrFtz s.mxcsr)

/-- MXCSR after a delivered result (R110 step 5): the flags ORed in (R156), or left alone under embedded rounding
(R158; `P_SAE_FLAGS`, D21, log 13). -/
def deliveredMxcsr (op : FmaOp) (s : State) (fl : BitVec 6) : Word32 :=
  match op.er with
  | none => mxcsrOr s.mxcsr fl
  | some _ =>
    match s.cfg.pSaeFlags with
    | .suppressed => s.mxcsr
    | .either => if Config.freeSaeFlags s.draws then mxcsrOr s.mxcsr fl else s.mxcsr

/-- Is an unmasked exception raised: never under embedded rounding (R115, R157, R158). -/
def raisesNumeric (op : FmaOp) (s : State) (r : FmaResult) : Bool :=
  op.er.isNone && unmasked r.fl r.tiny s.mxcsr

/-- The unmasked SIMD floating-point exception (R157): #XM, or #UD if CR4.OSXMMEXCPT = 0; nothing but the MXCSR flags
changes (R175). -/
def raiseNumeric (op : FmaOp) (s : State) (s3v : Word32) : Result :=
  let r := compute op s s3v
  raise (if osxmmexcpt s then .xm else .ud)
    { s with
      mxcsr := xmMxcsr s.cfg.pXmFlags (Config.freeXmFlags s.draws) r.fl (computeWith op s s3v false).fl r.tiny s.mxcsr }

/-- Steps 6 and 7 of R110: `V[d]`, MXCSR and `pc`, and the model's own counter. -/
def complete (op : FmaOp) (next : Word64) (low mxcsr : Word32) (s : State) : State :=
  { s with v := writeLow s.v op.dest low, mxcsr := mxcsr, pc := next, draws := s.draws + 1 }

/-- Step 5 of R110 for an active element, its operands read. -/
def executeActive (op : FmaOp) (next : Word64) (s : State) (s3v : Word32) : Result :=
  let r := compute op s s3v
  if raisesNumeric op s r then raiseNumeric op s s3v
  else .next (complete op next r.value (deliveredMxcsr op s r.fl) s)

/-- The low doubleword of a masked-off element: zero, or the old value (R113). -/
def maskedLow (op : FmaOp) (s : State) : Word32 := if op.zeroing then 0 else lowDword s op.dest

/-- Steps 3 to 7 of R110. -/
def executeOp (op : FmaOp) (next : Word64) (s : State) : Result :=
  if active op s then
    match readSrc3 op s with
    | .error e => stopWith e s
    | .ok s3v => executeActive op next s s3v
  else
    match (if maskedAccess s then readSrc3 op s else .ok 0) with
    | .error e => stopWith e s
    | .ok _ => .next (complete op next (maskedLow op s) s.mxcsr s)

/-- An instruction of `len` bytes from its first check on, in the order of 60_exceptions.md R174 (D10): `Mode32` and a
`pc + len` past the top are refused (D2, D4); real-address and virtual-8086 mode raise #UD (R171, 10_state.md R34); then
the #UD conditions `ud`, then #NM for CR0.TS, then steps 3 to 7 of R110. -/
def executeChecked (ud : Bool) (op : FmaOp) (s : State) : Result :=
  match s.mode with
  | .mode32 => .refused .mode32
  | .real => raise .ud s
  | .virtual8086 => raise .ud s
  | .mode64 =>
    match nextPc s op.len with
    | none => .refused .pcPastTop
    | some next =>
      if ud then raise .ud s
      else if tsSet s then raise .nm s
      else executeOp op next s

end Sys2Proof.Machine
end

