-- ==== Sys2Proof/Machine/Evex.lean ====
section
/-! DEFINITION. The three EVEX forms (40_vfnmsub_ss.md R119 to R121), whose other exceptions are those of "Exceptions
Type E3" (60_exceptions.md R172). -/

namespace Sys2Proof.Machine

/-- The illegal EVEX fields that a parameter decides (30_encoding.md R86, R96): `b = 1` with a memory operand
(`P_B_MEM`, D16; log 16) and `b = 0` with `L'L = 11b` (`P_LL11`, D17; log 15). -/
def evexFieldIllegal (c : Config) (o : EvexOperands) : Bool :=
  (o.b == 1#1 && !evexSrc3IsReg o.src3 && c.pBMem == .faultUd) || (o.b == 0#1 && o.ll == 3#2 && c.pLL11 == .faultUd)

/-- The #UD conditions of R172 that the decoder has not met: CR4.OSXSAVE, XCR0[2:1] and XCR0[7:5], the CPUID flag
AVX512F, and the fields above. -/
def evexUndefined (o : EvexOperands) (s : State) : Bool :=
  !osxsave s || !avxStateOn s || !avx512StateOn s || !s.cfg.hasAvx512f || evexFieldIllegal s.cfg o

/-- `EVEX.DDS.LIG.66.0F38.W0 9F /r` (R119): `-(DEST*SRC3) - SRC2`. -/
def execVfnmsub132ssEvex (o : EvexOperands) (s : State) : Result :=
  executeChecked (evexUndefined o s) (evexOp .f132 o) s

/-- `EVEX.DDS.LIG.66.0F38.W0 AF /r` (R120): `-(SRC2*DEST) - SRC3`. -/
def execVfnmsub213ssEvex (o : EvexOperands) (s : State) : Result :=
  executeChecked (evexUndefined o s) (evexOp .f213 o) s

/-- `EVEX.DDS.LIG.66.0F38.W0 BF /r` (R121): `-(SRC2*SRC3) - DEST` (SRC3[31:0], 90_conflicts.md C1). -/
def execVfnmsub231ssEvex (o : EvexOperands) (s : State) : Result :=
  executeChecked (evexUndefined o s) (evexOp .f231 o) s

end Sys2Proof.Machine
end

