-- ==== Sys2Proof/Machine/Vex.lean ====
section
/-! DEFINITION. The three VEX forms (40_vfnmsub_ss.md R116 to R118), whose other exceptions are those of "Exceptions
Type 3" (60_exceptions.md R171). -/

namespace Sys2Proof.Machine

/-- The #UD conditions of R171 that do not concern the bytes: CR4.OSXSAVE, XCR0[2:1], the CPUID flag FMA. -/
def vexUndefined (s : State) : Bool := !osxsave s || !avxStateOn s || !s.cfg.hasFma

/-- `VEX.DDS.LIG.66.0F38.W0 9F /r` (R116): `-(DEST*SRC3) - SRC2`. -/
def execVfnmsub132ssVex (o : VexOperands) (s : State) : Result :=
  executeChecked (vexUndefined s) (vexOp .f132 o) s

/-- `VEX.DDS.LIG.66.0F38.W0 AF /r` (R117): `-(SRC2*DEST) - SRC3`. -/
def execVfnmsub213ssVex (o : VexOperands) (s : State) : Result :=
  executeChecked (vexUndefined s) (vexOp .f213 o) s

/-- `VEX.DDS.LIG.66.0F38.W0 BF /r` (R118): `-(SRC2*SRC3) - DEST`. -/
def execVfnmsub231ssVex (o : VexOperands) (s : State) : Result :=
  executeChecked (vexUndefined s) (vexOp .f231 o) s

end Sys2Proof.Machine
end

