-- ==== Sys2Proof/Machine/Dispatch.lean ====
section
/-! DEFINITION. One arm per constructor of `Instr`, each one call of its meaning. -/

namespace Sys2Proof.Machine

def exec (i : Instr) (s : State) : Host.Outcome State Fault Refusal :=
  match i with
  | .vfnmsub132ssVex o => Sys2Proof.Machine.execVfnmsub132ssVex o s
  | .vfnmsub213ssVex o => Sys2Proof.Machine.execVfnmsub213ssVex o s
  | .vfnmsub231ssVex o => Sys2Proof.Machine.execVfnmsub231ssVex o s
  | .vfnmsub132ssEvex o => Sys2Proof.Machine.execVfnmsub132ssEvex o s
  | .vfnmsub213ssEvex o => Sys2Proof.Machine.execVfnmsub213ssEvex o s
  | .vfnmsub231ssEvex o => Sys2Proof.Machine.execVfnmsub231ssEvex o s

end Sys2Proof.Machine
end

