-- ==== Sys2Proof/Machine/Fetch.lean ====
section
/-! DEFINITION. Fetching and decoding the instruction at `pc` (20_memory.md R61; 30_encoding.md R96; 60_exceptions.md
R174 steps (1) to (3)). -/

namespace Sys2Proof.Machine

/-- Why the fetch of a byte stops: an exception, an absent byte (R57, D9), or an address past 2^64 - 1 (D4). -/
inductive FetchStop where
  | exception (e : Exception)
  | absent (phys : Word64)
  | pastTop
  deriving DecidableEq, Repr

/-- The linear address of the instruction's first byte: CS base counts as zero in 64-bit mode (10_state.md R30, R34;
log 26). DESIGN CHOICE (log 33): elsewhere CS base + pc is a sum modulo 2^64. -/
def fetchBase (s : State) : Word64 := if s.mode = .mode64 then s.pc else s.csBase + s.pc

/-- The instruction byte at an offset from the first: #GP(0) for a non-canonical address, #PF through
`Translate(_, fetch)` at the current privilege level (R61, R180), then the program text (D11). -/
def fetchByte (s : State) (offset : Nat) : Except FetchStop Byte :=
  let a := fetchBase s + BitVec.ofNat 64 offset
  if 2 ^ 64 ≤ (fetchBase s).toNat + offset then .error .pastTop
  else if !canonical s.cfg a then .error (.exception (.gp 0))
  else match translate s.cfg.translate (.fetch s.cpl) a with
    | .pageFault code => .error (.exception (.pf code a))
    | .phys p =>
      match memGet s.text p.toNat with
      | none => .error (.absent p)
      | some b => .ok b

/-- At most `n` bytes from an offset on, and what stopped the fetch before the `n`-th, if anything did. -/
def fetchFrom (s : State) : Nat → Nat → List Byte × Option FetchStop
  | 0, _ => ([], none)
  | n + 1, offset =>
    match fetchByte s offset with
    | .error e => ([], some e)
    | .ok b => (b :: (fetchFrom s n (offset + 1)).1, (fetchFrom s n (offset + 1)).2)

/-- The bytes at `pc`, at most 15 (R61). -/
def fetchBytes (s : State) : List Byte × Option FetchStop := fetchFrom s 15 0

/-- What the fetch and the decoder answer: an instruction to run, or the step's outcome. -/
inductive Fetched where
  | run (i : Instr)
  | stop (r : Result)
  deriving Repr

/-- The bytes that R96 reads past the limit of 15, from an offset among the prefixes on: the run of prefix bytes, and at
most ten bytes after the first other one. No instruction has more after its prefixes (R70). -/
def fetchRun (s : State) : Nat → Nat → List Byte × Option FetchStop
  | 0, _ => ([], none)
  | n + 1, offset =>
    match fetchByte s offset with
    | .error e => ([], some e)
    | .ok b =>
      if (pfxOfByte b).isSome then
        (b :: (fetchRun s n (offset + 1)).1, (fetchRun s n (offset + 1)).2)
      else (b :: (fetchFrom s 10 (offset + 1)).1, (fetchFrom s 10 (offset + 1)).2)

/-- All the bytes at `pc` that R96 reads, whatever their number: a run of prefixes ends at 2^64 at the latest. -/
def bytesAhead (s : State) : List Byte × Option FetchStop := fetchRun s (2 ^ 64) 0

/-- The outcome for an instruction of `len` bytes, more than 15: #GP(0) (R70), after the refusal of D4 (R174; log
10). -/
def overlong (s : State) (len : Nat) : Result :=
  if s.mode = .mode64 ∧ nextPc s len = none then .refused .pcPastTop else raise (.gp 0) s

/-- The outcome where a byte past the fifteenth cannot be read. Such a byte is not fetched (R61), so the fetch does not
fault: #GP(0) for the length; but bytes past 2^64 - 1 or at a non-canonical address are refused (D4; log 9). -/
def unreadable (s : State) : Option FetchStop → Result
  | some (.exception (.pf _ _)) => raise (.gp 0) s
  | some (.absent _) => raise (.gp 0) s
  | _ => .refused .pcPastTop

/-- The outcome of bytes of which 15 are not enough: `Refuse` where R96 has it, since it comes before the length (R174,
90_conflicts.md C14), and else the length (R70; log 9). -/
def pastFifteen (s : State) : Result :=
  match decode (bytesAhead s).1 with
  | .refuse why => .refused (.notInScope why)
  | .tooLong len => overlong s len
  | _ =>
    match refusedAnyway (bytesAhead s).1 with
    | some why => .refused (.notInScope why)
    | none => unreadable s (bytesAhead s).2

/-- The outcome of a step whose bytes ended before the instruction did: what stopped the fetch (R174 step (1)), or, with
all 15 bytes read, the outcome of bytes of which 15 are not enough. -/
def endedEarly (s : State) : Option FetchStop → Result
  | none => pastFifteen s
  | some (.exception e) => raise e s
  | some (.absent p) => .fault (.absentByte p s)
  | some .pastTop => .refused .pcPastTop

/-- The outcome of a known illegal near-miss of `len` bytes: #UD (R86, R80), after the refusal of D4 (R174). -/
def illegalEncoding (s : State) (len : Nat) : Result :=
  if s.mode = .mode64 ∧ nextPc s len = none then .refused .pcPastTop else raise .ud s

/-- Fetch and decode (R96, R174): `Mode32` is refused (D2). -/
def fetchInstr (s : State) : Fetched :=
  if s.mode = .mode32 then .stop (.refused .mode32)
  else match decode (fetchBytes s).1 with
    | .ok i => .run i
    | .illegal len => .stop (illegalEncoding s len)
    | .tooLong len => .stop (overlong s len)
    | .refuse why => .stop (.refused (.notInScope why))
    | .needMore => .stop (endedEarly s (fetchBytes s).2)

end Sys2Proof.Machine
end

