-- ==== Sys2Proof/Machine/Step.lean ====
section
/-! DEFINITION. One step: fetch, decode, execute (40_vfnmsub_ss.md R110); and the launch of a word of the opcode table
at `pc`. -/

namespace Sys2Proof.Machine

/-- One step of the machine (00_scope.md R10). -/
def step (s : State) : Host.Outcome State Fault Refusal :=
  match fetchInstr s with
  | .run i => exec i s
  | .stop r => r

/-- The state with the instruction of a table word, zeros after it up to 15 bytes, placed at `pc`. A machine that is not
in 64-bit mode is launched first (D12; log 7): in no other mode does a step run an encoding in scope. -/
def State.withFetchWord (s : State) (nbits w : Nat) : State :=
  let s' := if s.mode = .mode64 then s else launch s
  placeCode s' (fetchBase s') (tableBytes nbits w)

end Sys2Proof.Machine
end

