-- ==== Sys2Proof/WellFormed.lean ====
section
/-! DEFINITION. Which instruction terms stand for bytes: the operand shapes that the encoding can spell (30_encoding.md
R75 to R77), the EVEX mask rule (R85, R86) and the length limit (R70). -/

namespace Sys2Proof

/-- A memory operand that ModRM and SIB can spell. A base register without a SIB byte cannot have `rm = 100b` (R76),
and without a displacement a base register's low three bits cannot be `101b` (R77). -/
def MemOperand.wf : MemOperand → Bool
  | .ripRel _ _ _ => true
  | .base _ reg d => reg.extractLsb' 0 3 != 4#3 && !(d == .none && reg.extractLsb' 0 3 == 5#3)
  | .sib _ _ reg d => !(d == .none && reg.extractLsb' 0 3 == 5#3)
  | .sibNoBase _ _ _ _ => true

/-- The third operand of a VEX form is well formed. -/
def VexSrc3.wf : VexSrc3 → Bool
  | .reg _ _ => true
  | .mem m => m.wf

/-- The third operand of an EVEX form is well formed. -/
def EvexSrc3.wf : EvexSrc3 → Bool
  | .reg _ => true
  | .mem m => m.wf

/-- A VEX form is well formed: its third operand is, and it has at most 15 bytes. "Every value of R, X, B, vvvv and L is
legal" (R86). -/
def VexOperands.wf (o : VexOperands) : Bool := o.src3.wf && decide (vexLen o ≤ 15)

/-- An EVEX form is well formed: its third operand is, zeroing-masking names a mask (R85), and it has at most 15
bytes. -/
def EvexOperands.wf (o : EvexOperands) : Bool :=
  o.src3.wf && !(o.z == 1#1 && o.aaa == 0#3) && decide (evexLen o ≤ 15)

/-- An instruction is well formed. -/
def Instr.wf : Instr → Bool
  | .vfnmsub132ssVex o => o.wf
  | .vfnmsub213ssVex o => o.wf
  | .vfnmsub231ssVex o => o.wf
  | .vfnmsub132ssEvex o => o.wf
  | .vfnmsub213ssEvex o => o.wf
  | .vfnmsub231ssEvex o => o.wf

/-- An instruction is well formed. -/
abbrev WellFormed (i : Instr) : Prop := i.wf = true

end Sys2Proof
end

