-- ==== Sys2Proof/Safety.lean ====
section
/-! DEFINITION. The terms in which statements speak of the machine: the invariant of its states, the conditions under
which an encoding may run, what a completed instruction leaves, and a run without a fault. -/

namespace Sys2Proof.Machine

/-- Did the step complete. -/
def isNext : Result → Bool
  | .next _ => true
  | .fault _ => false
  | .refused _ => false

/-- `n` steps without a fault or a refusal (60_exceptions.md R175: a claim of success shows that none occurs). -/
def SafeRun (n : Nat) (s : State) : Prop := isNext (Sys2Proof.core.run n s) = true

/-- The program text is part of the one address space: memory holds every byte of it (10_state.md R32; log 6). -/
def TextInMemory (s : State) : Prop := ∀ c ∈ s.text, c ∈ s.mem

/-- No vector register has a bit at MAXVL or above (10_state.md R20). -/
def RegistersNarrow (s : State) : Prop := ∀ i : Fin 32, (s.v[i]).toNat < 2 ^ s.cfg.maxvl.bits

/-- Without AVX512F there are no V[16] to V[31] and no bits above 255 (10_state.md R21): the model holds them as zero
(log 30). -/
def HighRegistersAbsent (s : State) : Prop :=
  s.cfg.hasAvx512f = false →
    (∀ i : Fin 32, 16 ≤ i.val → s.v[i] = 0) ∧ ∀ i : Fin 32, (s.v[i]).toNat < 2 ^ 256

/-- MXCSR[31:16] read as zero (10_state.md R25; U18: no other launch state is legal). -/
def MxcsrReservedZero (s : State) : Prop := s.mxcsr.extractLsb' 16 16 = 0

/-- The invariant that every step keeps. -/
structure Invariant (s : State) : Prop where
  memWf : Memory.wf s.mem
  textWf : Memory.wf s.text
  textInMemory : TextInMemory s
  narrow : RegistersNarrow s
  highAbsent : HighRegistersAbsent s
  maxvlLegal : s.cfg.MaxVlLegal
  reservedZero : MxcsrReservedZero s

/-- The VEX forms may run: `Mode64`, no #UD condition of 60_exceptions.md R171, CR0.TS = 0. -/
structure VexReady (s : State) : Prop where
  mode : s.mode = .mode64
  osxsave : osxsave s = true
  avx : avxStateOn s = true
  fma : s.cfg.hasFma = true
  ts : tsSet s = false

/-- The EVEX forms may run: `Mode64`, no #UD condition of 60_exceptions.md R172, CR0.TS = 0. -/
structure EvexReady (o : EvexOperands) (s : State) : Prop where
  mode : s.mode = .mode64
  osxsave : osxsave s = true
  avx : avxStateOn s = true
  avx512 : avx512StateOn s = true
  avx512f : s.cfg.hasAvx512f = true
  fields : evexFieldIllegal s.cfg o = false
  ts : tsSet s = false

/-- What a completed instruction leaves (40_vfnmsub_ss.md R112): `value` in bits 31:0 of V[d], its bits 127:32 kept, its
bits from 128 up zero, the given MXCSR and `pc`, and all other state as it was, but for the model's own counter. -/
structure Leaves (s t : State) (d : Fin 32) (value mxcsr : Word32) (pc : Word64) : Prop where
  low : (t.v[d]).extractLsb' 0 32 = value
  middle : (t.v[d]).extractLsb' 32 96 = (s.v[d]).extractLsb' 32 96
  upper : (t.v[d]).extractLsb' 128 384 = 0
  others : ∀ j : Fin 32, j ≠ d → t.v[j] = s.v[j]
  rest : t = { s with v := t.v, mxcsr := mxcsr, pc := pc, draws := s.draws + 1 }

/-- What every instruction leaves of MXCSR (10_state.md R26): bits 31:6 and ZE as they were, no flag cleared. -/
structure MxcsrKept (m m' : Word32) : Prop where
  upper : m'.extractLsb' 6 26 = m.extractLsb' 6 26
  ze : m'.getLsbD 2 = m.getLsbD 2
  sticky : ∀ i, m.getLsbD i = true → m'.getLsbD i = true

/-- What an instruction whose destination is V[d] leaves unchanged (40_vfnmsub_ss.md R124, R112; 10_state.md R22, R26):
every other vector register, bits 127:32 of V[d], every opmask and general register, RFLAGS, the mode and enable state,
every byte of memory and of the program text, and all of MXCSR but the flags that are set. `pc` may change. -/
structure Frame (s t : State) (d : Fin 32) : Prop where
  others : ∀ j : Fin 32, j ≠ d → t.v[j] = s.v[j]
  middle : (t.v[d]).extractLsb' 32 96 = (s.v[d]).extractLsb' 32 96
  k : t.k = s.k
  x : t.x = s.x
  rflags : t.rflags = s.rflags
  mode : t.mode = s.mode
  cpl : t.cpl = s.cpl
  csBase : t.csBase = s.csBase
  fsBase : t.fsBase = s.fsBase
  gsBase : t.gsBase = s.gsBase
  cr0 : t.cr0 = s.cr0
  cr4 : t.cr4 = s.cr4
  xcr0 : t.xcr0 = s.xcr0
  memory : ∀ a, memGet t.mem a = memGet s.mem a
  program : ∀ a, memGet t.text a = memGet s.text a
  cfg : t.cfg = s.cfg
  mxcsr : MxcsrKept s.mxcsr t.mxcsr

/-- The `pc` of a completed outcome replaced, any other outcome as it is. -/
def withPc (pc : Word64) : Result → Result
  | .next t => .next { t with pc := pc }
  | .fault f => .fault f
  | .refused r => .refused r

/-- The legacy prefixes of an instruction. -/
def pfxOf : Instr → List LegacyPrefix
  | .vfnmsub132ssVex o => o.pfx
  | .vfnmsub213ssVex o => o.pfx
  | .vfnmsub231ssVex o => o.pfx
  | .vfnmsub132ssEvex o => o.pfx
  | .vfnmsub213ssEvex o => o.pfx
  | .vfnmsub231ssEvex o => o.pfx

/-- The destination register of an instruction (R111). -/
def destOf : Instr → Fin 32
  | .vfnmsub132ssVex o => vreg4 o.d
  | .vfnmsub213ssVex o => vreg4 o.d
  | .vfnmsub231ssVex o => vreg4 o.d
  | .vfnmsub132ssEvex o => vreg5 o.d
  | .vfnmsub213ssEvex o => vreg5 o.d
  | .vfnmsub231ssEvex o => vreg5 o.d

/-- The bytes that the fetch finds from `pc` on begin with a list. -/
def CodeAtPc (s : State) (bs : List Byte) : Prop := ∀ j : Fin bs.length, fetchByte s j.val = .ok bs[j]

/-- A byte that R80 makes #UD before an escape byte: 66, F2, F3, F0. -/
def isForbiddenByte (c : Byte) : Bool := c == 0x66 || c == 0xF2 || c == 0xF3 || c == 0xF0

/-- A REX byte, 40 to 4F (R80). -/
def isRexByte (c : Byte) : Bool := c.extractLsb' 4 4 == 4#4

/-- Is a REX byte among the prefix bytes that is not the last of them (R80, D13). -/
def hasEarlyRex (pre : List Byte) : Bool := pre.dropLast.any isRexByte

/-- Is the last of the prefix bytes a REX byte (R80). -/
def endsInRex (pre : List Byte) : Bool := pre.getLast?.any isRexByte

/-- All prefix bytes of an instruction that stands behind further ones. -/
def prefixBytes (pre : List Byte) (i : Instr) : List Byte := pre ++ (pfxOf i).map legacyByte

/-- Is every byte address of a 4-byte read canonical (20_memory.md R54). -/
def canonical4 (c : Config) (a : Word64) : Bool :=
  canonical c a && canonical c (a + 1) && canonical c (a + 2) && canonical c (a + 3)

/-- `FNMSUB32` of a form's operands under MXCSR and the parameters, with a given rounding mode (R110 step 5, R111);
`w` is SRC3. -/
def fnmsubOf (f : Form) (s : State) (d s2 : Fin 32) (w : Word32) (rm : RoundMode) : FmaResult :=
  match f with
  | .f132 => fnmsub32 (nanPick s) (ieInfZero s) (lowDword s d) w (lowDword s s2) rm (mxcsrDaz s.mxcsr) (mxcsrFtz s.mxcsr)
  | .f213 => fnmsub32 (nanPick s) (ieInfZero s) (lowDword s s2) (lowDword s d) w rm (mxcsrDaz s.mxcsr) (mxcsrFtz s.mxcsr)
  | .f231 => fnmsub32 (nanPick s) (ieInfZero s) (lowDword s s2) w (lowDword s d) rm (mxcsrDaz s.mxcsr) (mxcsrFtz s.mxcsr)

/-- A data read at the current privilege level finds a linear address at a physical one (20_memory.md R55). -/
def DataAt (s : State) (a p : Word64) : Prop := translate s.cfg.translate (.dataRead s.cpl) a = .phys p

/-- The state with MXCSR.FTZ = 0. -/
def withoutFtz (s : State) : State := { s with mxcsr := s.mxcsr &&& ~~~0x8000 }

/-- The flags that R157 describes after an unmasked exception, as the model reads it (log 17), of the computation `r` and
the same without FTZ, `r'`: after an unmasked IE or DE those two alone; else, for a tiny result with UM = 0, those of
`r'` and UE; else those of `r`. -/
def DescribedFlags (r r' : FmaResult) (m : Word32) (fl : BitVec 6) : Prop :=
  let early := (r.fl.getLsbD 0 = true ∧ m.getLsbD 7 = false) ∨ (r.fl.getLsbD 1 = true ∧ m.getLsbD 8 = false)
  (early → fl = r.fl &&& 3) ∧
  (¬ early → r.tiny = true ∧ m.getLsbD 11 = false → fl = r'.fl ||| 0x10) ∧
  (¬ early → ¬ (r.tiny = true ∧ m.getLsbD 11 = false) → fl = r.fl)

/-! ## The terms of the arithmetic (41_fma_numerics.md) -/

/-- All three operands are zeros, denormals or normals. -/
def FiniteOperands (x y z : Word32) : Prop := isFinite x = true ∧ isFinite y = true ∧ isFinite z = true

/-- No operand is a NaN. -/
def NoNaN (x y z : Word32) : Prop := isNaN x = false ∧ isNaN y = false ∧ isNaN z = false

/-- `{x, y}` is {zero, infinity} (R146). -/
def ZeroTimesInf (x y : Word32) : Prop := (isZero x = true ∧ isInf y = true) ∨ (isInf x = true ∧ isZero y = true)

/-- The value of a finite word in units of 2^-298, the units of `exactValue`. -/
def scaledVal (u : Word32) : Int := valOf u * 2 ^ 149

/-- A flag is in a flag set. -/
def HasFlag (fl flag : BitVec 6) : Prop := fl &&& flag ≠ 0

/-- The sign bit flipped. -/
def flipSign (u : Word32) : Word32 := u ^^^ 0x80000000

/-- The greatest binary32 value that is at most `v` (round down, R152). -/
def IsRoundDown (v : Int) (r : Word32) : Prop :=
  scaledVal r ≤ v ∧ ∀ w, isFinite w = true → scaledVal w ≤ v → scaledVal w ≤ scaledVal r

/-- The least binary32 value that is at least `v` (round up, R152). -/
def IsRoundUp (v : Int) (r : Word32) : Prop :=
  v ≤ scaledVal r ∧ ∀ w, isFinite w = true → v ≤ scaledVal w → scaledVal r ≤ scaledVal w

/-- A nearest binary32 value, the one with an even last bit where another is as near (round to nearest even, R152). -/
def IsRoundNearest (v : Int) (r : Word32) : Prop :=
  ∀ w, isFinite w = true → |scaledVal r - v| ≤ |scaledVal w - v| ∧
    (|scaledVal w - v| = |scaledVal r - v| → scaledVal w ≠ scaledVal r → r.getLsbD 0 = false)

/-- `r` is the exact `v` rounded to binary32 by the mode (R152), with the sign of `v` (R154). -/
def IsRounded (rm : RoundMode) (v : Int) (r : Word32) : Prop :=
  isFinite r = true ∧ signOf r = decide (v < 0) ∧
  match rm with
  | .rn => IsRoundNearest v r
  | .rd => IsRoundDown v r
  | .ru => IsRoundUp v r
  | .rz => if v < 0 then IsRoundUp v r else IsRoundDown v r

/-- The exact values that overflow (R153), `a` in units of 2^-298: to nearest, from half a unit in the last place above
the largest finite value; away from zero, from anything above that value; toward zero, from 2^128. -/
def Overflows (rm : RoundMode) (v : Int) : Prop :=
  match rm with
  | .rn => (2 ^ 25 - 1) * 2 ^ 401 ≤ v.natAbs
  | .rz => 2 ^ 426 ≤ v.natAbs
  | .rd => if v < 0 then (2 ^ 24 - 1) * 2 ^ 402 < v.natAbs else 2 ^ 426 ≤ v.natAbs
  | .ru => if v < 0 then 2 ^ 426 ≤ v.natAbs else (2 ^ 24 - 1) * 2 ^ 402 < v.natAbs

/-- The exact values that are tiny after rounding to 24 bits (R141, R154), in units of 2^-298 (2^-126 is 2^172). -/
def TinyAfterRounding (rm : RoundMode) (v : Int) : Prop :=
  match rm with
  | .rn => v.natAbs + 2 ^ 147 < 2 ^ 172
  | .rz => v.natAbs < 2 ^ 172
  | .rd => if v < 0 then v.natAbs + 2 ^ 148 ≤ 2 ^ 172 else v.natAbs < 2 ^ 172
  | .ru => if v < 0 then v.natAbs < 2 ^ 172 else v.natAbs + 2 ^ 148 ≤ 2 ^ 172

end Sys2Proof.Machine
end

