-- ==== Sys2Proof/Certificates/Slice0/Obligations.lean ====
section
/-! DEFINITION. The statements for the provers, in the order of OBLIGATIONS.json: encoding and decoding, the step and
its invariants, completion and stops of the six instructions, memory operands, and the arithmetic. -/

open Sys2Proof Sys2Proof.Machine

/-! ## Encoding (30_encoding.md) -/

/-- Decoding the bytes of a well-formed instruction gives that instruction, every operand and ignored bit included,
whatever bytes follow (R70 to R80, R96). -/
def Obligations.DecodeEncodeRoundTrip : Prop :=
  ∀ (i : Instr) (rest : List Byte), WellFormed i → decode (encode i ++ rest) = .ok i

/-- Whatever the decoder accepts is well formed, and the bytes read are exactly its encoding: each accepted byte string
has one meaning and every meaning one spelling (R70 to R80, R96). -/
def Obligations.DecodedBytesAreTheEncoding : Prop :=
  ∀ (bs : List Byte) (i : Instr), decode bs = .ok i → WellFormed i ∧ ∃ rest, bs = encode i ++ rest

/-- Words written out in 95_test_vectors.md section 4.1 (V1, V6, V12, V17, V10, V27, V30, V32, V36) decode to the
instructions the assembler column names. -/
def Obligations.SpecWordsDecode : Prop :=
  decode [0xC4, 0xE2, 0x71, 0x9F, 0xC2] = .ok (.vfnmsub132ssVex ⟨[], 0, 0, 1, .reg 0 2⟩) ∧
  decode [0xC4, 0x42, 0x01, 0xAF, 0xC1] = .ok (.vfnmsub213ssVex ⟨[], 0, 8, 15, .reg 0 9⟩) ∧
  decode [0xC4, 0xE2, 0x69, 0xAF, 0x8C, 0x8B, 0x00, 0x01, 0x00, 0x00] =
    .ok (.vfnmsub213ssVex ⟨[], 0, 1, 2, .mem (.sib 2 1 3 (.d32 0x100))⟩) ∧
  decode [0x64, 0xC4, 0xE2, 0x69, 0xAF, 0x08] = .ok (.vfnmsub213ssVex ⟨[.fs], 0, 1, 2, .mem (.base 0 0 .none)⟩) ∧
  decode [0xC4, 0xE2, 0x59, 0xBF, 0x58, 0x08] = .ok (.vfnmsub231ssVex ⟨[], 0, 3, 4, .mem (.base 0 0 (.d8 8))⟩) ∧
  decode [0x62, 0xF2, 0x75, 0x58, 0x9F, 0xC2] = .ok (.vfnmsub132ssEvex ⟨[], 0, 1, 0, 2, 1, 0, .reg 2⟩) ∧
  decode [0x62, 0xA2, 0x75, 0xB2, 0xAF, 0xC2] = .ok (.vfnmsub213ssEvex ⟨[], 16, 17, 1, 1, 1, 2, .reg 18⟩) ∧
  decode [0x62, 0x02, 0x0D, 0x07, 0xBF, 0xFD] = .ok (.vfnmsub231ssEvex ⟨[], 31, 30, 0, 0, 0, 7, .reg 29⟩) ∧
  decode [0x62, 0x82, 0x5D, 0x08, 0xAF, 0x64, 0x51, 0x7F] =
    .ok (.vfnmsub213ssEvex ⟨[], 20, 4, 0, 0, 0, 0, .mem (.sib 1 10 9 (.d8 0x7F))⟩)

/-- The pattern of R82, which the spec derives from R71 and R72: after accepted legacy prefixes the four bytes from
the escape byte on select the VEX row of a form exactly when they match its pattern; every value of the free bits is
legal. The bytes after the opcode are as many as any operand form can need, and the prefixes few enough for the length
limit. And what is refused (R87, the spec's decision D1), after ANY prefix bytes and whatever follows: C4 with another
map, W, pp or opcode byte, and any escape byte but C4 and 62. -/
def Obligations.VexPatternSelectsRow : Prop :=
  (∀ (ps : List LegacyPrefix) (f : Form) (b0 b1 b2 b3 : Byte) (tail : List Byte),
    ps.length ≤ 5 → pfxOfByte b0 = none → 6 ≤ tail.length →
    ((∃ o, decode (ps.map legacyByte ++ b0 :: b1 :: b2 :: b3 :: tail) = .ok (vexInstr f o)) ↔
      (b0 ++ b1 ++ b2 ++ b3) &&& 0xFF1F83FF#32 =
        (match f with | .f132 => 0xC402019F#32 | .f213 => 0xC40201AF#32 | .f231 => 0xC40201BF#32))) ∧
  (∀ (pre : List Byte) (v1 v2 op : Byte) (tail : List Byte), (∀ c ∈ pre, (pfxOfByte c).isSome = true) →
    v1.extractLsb' 0 5 ≠ 2#5 ∨ v2.getLsbD 7 = true ∨ v2.extractLsb' 0 2 ≠ 1#2 ∨
      (op ≠ 0x9F ∧ op ≠ 0xAF ∧ op ≠ 0xBF) →
    decode (pre ++ 0xC4 :: v1 :: v2 :: op :: tail) = .refuse .vexNeighbour) ∧
  (∀ (pre : List Byte) (b0 : Byte) (tail : List Byte), (∀ c ∈ pre, (pfxOfByte c).isSome = true) →
    pfxOfByte b0 = none → b0 ≠ 0xC4 → b0 ≠ 0x62 → decode (pre ++ b0 :: tail) = .refuse .otherOpcode)

/-- The pattern of R83, which the spec derives from R71 and R74: the same for the EVEX rows and their 40 bits, with `z
= 1` and `aaa = 000b` left out, which R86 makes illegal. Two forms that R86 and R96 make #UD at the defaults of open
parameters, `b = 1` with a memory operand (D16) and `b = 0` with `L'L = 11b` (D17), the decoder lets through: the
parameters stand in the configuration, so their test stands in the execution (`evexFieldIllegal`), which is the model's
choice (logs 15, 16; the #UD itself is EvexConditionsRaiseUd). And what is not selected (R86, R87): after ANY prefix
bytes, `P0[3:2] != 00b` is refused, and so is 62 with another map, W, pp or opcode byte (D1); after accepted prefixes
`P1[2] = 0`, or `z = 1` with `aaa = 000b`, is illegal, with the length of the legal instruction that differs in those
bits alone. -/
def Obligations.EvexPatternSelectsRow : Prop :=
  (∀ (ps : List LegacyPrefix) (f : Form) (b0 b1 b2 b3 b4 : Byte) (tail : List Byte),
    ps.length ≤ 4 → pfxOfByte b0 = none → 6 ≤ tail.length →
    ((∃ o, decode (ps.map legacyByte ++ b0 :: b1 :: b2 :: b3 :: b4 :: tail) = .ok (evexInstr f o)) ↔
      (b0 ++ b1 ++ b2 ++ b3 ++ b4) &&& 0xFF0F8700FF#40 =
        (match f with | .f132 => 0x620205009F#40 | .f213 => 0x62020500AF#40 | .f231 => 0x62020500BF#40) ∧
      ¬ (b3.getLsbD 7 = true ∧ b3.extractLsb' 0 3 = 0#3))) ∧
  (∀ (pre : List Byte) (p0 p1 p2 op : Byte) (tail : List Byte), (∀ c ∈ pre, (pfxOfByte c).isSome = true) →
    (p0.extractLsb' 2 2 ≠ 0#2 → decode (pre ++ 0x62 :: p0 :: p1 :: p2 :: op :: tail) = .refuse .evexReserved) ∧
    (p0.extractLsb' 2 2 = 0#2 →
      p0.extractLsb' 0 2 ≠ 2#2 ∨ p1.getLsbD 7 = true ∨ p1.extractLsb' 0 2 ≠ 1#2 ∨
        (op ≠ 0x9F ∧ op ≠ 0xAF ∧ op ≠ 0xBF) →
      decode (pre ++ 0x62 :: p0 :: p1 :: p2 :: op :: tail) = .refuse .evexNeighbour)) ∧
  (∀ (ps : List LegacyPrefix) (p0 p1 p2 op : Byte) (tail : List Byte) (i : Instr),
    p1.getLsbD 2 = false ∨ (p2.getLsbD 7 = true ∧ p2.extractLsb' 0 3 = 0#3) →
    decode (ps.map legacyByte ++ 0x62 :: p0 :: (p1 ||| 0x04) :: (p2 &&& 0x7F) :: op :: tail) = .ok i →
    decode (ps.map legacyByte ++ 0x62 :: p0 :: p1 :: p2 :: op :: tail) = .illegal (instrLen i))

/-- R73: the escape C5, after any prefix bytes, encodes none of the six. Its refusal is the spec's decision D1. -/
def Obligations.TwoByteVexIsRefused : Prop :=
  ∀ (pre rest : List Byte), (∀ c ∈ pre, (pfxOfByte c).isSome = true) →
    decode (pre ++ 0xC5 :: rest) = .refuse .otherOpcode

/-- R80, R96, for any prefix bytes before a well-formed instruction, forbidden ones and REX bytes among them in any
number and place. A REX byte that is not the last prefix byte makes the bytes refused (the spec's decision D13, log 24);
else, within 15 bytes, one of 66, F2, F3, F0 anywhere, or a REX byte as the last prefix byte, makes them a known
illegal near-miss. And the step of one (R86, R174): of code at `pc` that decodes to an illegal near-miss of `n` bytes,
the step raises #UD, where D4 does not refuse it (log 10). -/
def Obligations.RejectedPrefixes : Prop :=
  (∀ (pre : List Byte) (i : Instr) (rest : List Byte), (∀ c ∈ pre, (pfxOfByte c).isSome = true) → WellFormed i →
    (hasEarlyRex (prefixBytes pre i) = true → decode (pre ++ (encode i ++ rest)) = .refuse .rexEarly) ∧
    (hasEarlyRex (prefixBytes pre i) = false → pre.length + instrLen i ≤ 15 →
      (∃ c ∈ pre, isForbiddenByte c = true) ∨ endsInRex (prefixBytes pre i) = true →
      decode (pre ++ (encode i ++ rest)) = .illegal (pre.length + instrLen i))) ∧
  (∀ (s : State) (bs : List Byte) (n : Nat), s.mode = .mode64 → bs.length ≤ 15 → CodeAtPc s bs →
    decode bs = .illegal n →
    step s = if nextPc s n = none then .refused .pcPastTop else .fault (.exception .ud s))

/-- R70, R96, 90_conflicts.md C14: bytes that the decoder refuses are refused whatever their number, before the length
counts; an instruction longer than 15 bytes in all, forbidden prefixes included, raises #GP(0), where an early REX
(D13) or D4 (its bytes past 2^64 - 1, or `pc + len` not canonical) does not refuse it first (D10; log 10). Where the
sixteenth byte cannot be read it is #GP(0) too, since R61 fetches 15: that is the model's choice (log 9). -/
def Obligations.OverlongInstructionFaults : Prop :=
  (∀ (s : State) (bs : List Byte) (why : DecodeRefusal), s.mode ≠ .mode32 → CodeAtPc s bs → decode bs = .refuse why →
    step s = .refused (.notInScope why)) ∧
  (∀ (s : State) (pre : List Byte) (i : Instr), s.mode = .mode64 → (∀ c ∈ pre, (pfxOfByte c).isSome = true) →
    WellFormed i → 15 < pre.length + instrLen i → hasEarlyRex (prefixBytes pre i) = false →
    (CodeAtPc s (pre ++ encode i) →
      step s = if nextPc s (pre.length + instrLen i) = none then .refused .pcPastTop
        else .fault (.exception (.gp 0) s)) ∧
    (CodeAtPc s ((pre ++ encode i).take 15) →
      (∃ code a, fetchByte s 15 = .error (.exception (.pf code a))) ∨ (∃ p, fetchByte s 15 = .error (.absent p)) →
      step s = .fault (.exception (.gp 0) s)))

/-! ## The step -/

/-- When the bytes at `pc` decode to an instruction, the step is that instruction's execution (R110). -/
def Obligations.StepRunsDecodedInstruction : Prop :=
  ∀ (s : State) (i : Instr), s.mode ≠ .mode32 → decode (fetchBytes s).1 = .ok i → step s = exec i s

/-- When the bytes at `pc` are the encoding of a well-formed instruction, the step is that instruction's execution,
whatever stands after it, readable or not (R61, R96, R110). And where the fetch stops before the instruction ends
(R174 (1), R61; `bs` are the bytes before the stop, fewer than 15): past 2^64 - 1 the step is refused (D4; log 10); at a
non-canonical address it raises #GP(0); at a page fault of `Translate(_, fetch)` #PF with that address; at a byte that
the program text does not hold it is stuck (D9; log 5). -/
def Obligations.StepRunsCodeAtPc : Prop :=
  (∀ (s : State) (i : Instr), s.mode = .mode64 → WellFormed i → CodeAtPc s (encode i) → step s = exec i s) ∧
  (∀ (s : State) (bs : List Byte), s.mode = .mode64 → bs.length < 15 → CodeAtPc s bs → decode bs = .needMore →
    let a := s.pc + BitVec.ofNat 64 bs.length
    (2 ^ 64 ≤ s.pc.toNat + bs.length → step s = .refused .pcPastTop) ∧
    (s.pc.toNat + bs.length < 2 ^ 64 →
      (canonical s.cfg a = false → step s = .fault (.exception (.gp 0) s)) ∧
      (∀ code, canonical s.cfg a = true → translate s.cfg.translate (.fetch s.cpl) a = .pageFault code →
        step s = .fault (.exception (.pf code a) s)) ∧
      (∀ p, canonical s.cfg a = true → translate s.cfg.translate (.fetch s.cpl) a = .phys p →
        memGet s.text p.toNat = none → step s = .fault (.absentByte p s))))

/-- The spec's decision D2 (R90; log 1): in `Mode32` every step and every instruction is refused. -/
def Obligations.Mode32IsRefused : Prop :=
  ∀ (s : State), s.mode = .mode32 → step s = .refused .mode32 ∧ ∀ i, exec i s = .refused .mode32

/-- R171, R172, R34: in real-address and virtual-8086 mode every encoding raises #UD; the reset state is such a state.
-/
def Obligations.NoEncodingRunsInRealMode : Prop :=
  (∀ (s : State) (i : Instr), s.mode = .real ∨ s.mode = .virtual8086 → exec i s = .fault (.exception .ud s)) ∧
  State.reset.mode = .real

/-- R34: the reset values that the rule gives. (x[0] and x[2] are left out: RAX "0 (or a self-test code)", RDX
"processor signature"; log 19 is the model's choice.) -/
def Obligations.ResetValues : Prop :=
  (∀ i : Fin 32, State.reset.v[i] = 0) ∧ (∀ i : Fin 8, State.reset.k[i] = 0) ∧ State.reset.mxcsr = 0x1F80 ∧
  (∀ i : Fin 16, i ≠ 0 → i ≠ 2 → State.reset.x[i] = 0) ∧ State.reset.pc = 0xFFF0 ∧
  State.reset.csBase = 0xFFFF0000 ∧ State.reset.rflags = 2 ∧ State.reset.cr0 = 0x60000010 ∧ State.reset.cr4 = 0 ∧
  State.reset.xcr0 = 1 ∧ State.reset.fsBase = 0 ∧ State.reset.gsBase = 0 ∧ State.reset.mode = .real ∧
  State.reset.cpl = 0

/-- The spec's decision D4 (R28; log 10): where `pc + len` wraps past 2^64 or is not canonical, the instruction is
refused, whatever else holds. -/
def Obligations.PcPastTopIsRefused : Prop :=
  ∀ (s : State) (i : Instr), s.mode = .mode64 →
    (2 ^ 64 ≤ s.pc.toNat + instrLen i ∨ canonical s.cfg (s.pc + BitVec.ofNat 64 (instrLen i)) = false) →
    exec i s = .refused .pcPastTop

/-- Every step keeps the invariant: both memory maps canonical and the program text part of memory, no register bit at
MAXVL or above, without AVX512F no V[16] to V[31] and no bit above 255, MAXVL legal, MXCSR's reserved bits zero (R6,
R20, R21, R25, R57). -/
def Obligations.StepKeepsInvariant : Prop :=
  ∀ (s t : State), Invariant s → step s = .next t → Invariant t

/-- The reset state meets the invariant (R34; its memories, configuration and MAXVL are the model's choice, logs 3, 5,
6). -/
def Obligations.ResetMeetsInvariant : Prop := Invariant State.reset

/-- R124, R26: a step that completes changes one vector register, MXCSR flags by setting them, and `pc`, and nothing
else. -/
def Obligations.StepFrame : Prop :=
  ∀ (s t : State), step s = .next t → ∃ d, Frame s t d ∧ (t.v[d]).extractLsb' 128 384 = 0

/-- The frame of the three VEX forms: only V[d] is written, and of it bits 127:32 are kept (R112, R124, R26). -/
def Obligations.VexFrame : Prop :=
  ∀ (f : Form) (o : VexOperands) (s t : State), exec (vexInstr f o) s = .next t →
    Frame s t (vreg4 o.d) ∧ (t.v[vreg4 o.d]).extractLsb' 128 384 = 0

/-- The frame of the three EVEX forms; with the element masked off MXCSR does not change at all (R26, R113). -/
def Obligations.EvexFrame : Prop :=
  ∀ (f : Form) (o : EvexOperands) (s t : State), exec (evexInstr f o) s = .next t →
    Frame s t (vreg5 o.d) ∧ (t.v[vreg5 o.d]).extractLsb' 128 384 = 0 ∧
    (o.aaa ≠ 0#3 ∧ maskBit s (kreg3 o.aaa) = false → t.mxcsr = s.mxcsr)

/-- R175: a step that faults leaves every register, mask, general register, `pc` and memory byte as it was; MXCSR
changes only in flags that are set, and only with an unmasked SIMD floating-point exception. A run that is stuck at an
absent byte, which the spec's decision D9 says has no step and the model writes as a fault of its own (log 5), leaves
the state as it was too. -/
def Obligations.FaultsArePrecise : Prop :=
  (∀ (s t : State) (e : Exception), step s = .fault (.exception e t) →
    t = { s with mxcsr := t.mxcsr } ∧ MxcsrKept s.mxcsr t.mxcsr ∧
    (t.mxcsr ≠ s.mxcsr → e = .xm ∨ (e = .ud ∧ osxmmexcpt s = false))) ∧
  (∀ (s t : State) (p : Word64), step s = .fault (.absentByte p t) → t = s)

/-! ## Completion of the six instructions (40_vfnmsub_ss.md R116 to R121) -/

/-- R116: VFNMSUB132SS, VEX. With the form enabled, SRC3 readable (`w`) and no unmasked exception, the instruction
completes with `FNMSUB32(DEST, SRC3, SRC2)` under MXCSR. -/
def Obligations.Vfnmsub132ssVexCompletes : Prop :=
  ∀ (o : VexOperands) (s : State) (next : Word64) (w : Word32),
    VexReady s → nextPc s (vexLen o) = some next → readSrc3 (vexOp .f132 o) s = .ok w →
    let r := fnmsub32 (nanPick s) (ieInfZero s) (lowDword s (vreg4 o.d)) w (lowDword s (vreg4 o.s2))
      (mxcsrRc s.mxcsr) (mxcsrDaz s.mxcsr) (mxcsrFtz s.mxcsr)
    unmasked r.fl r.tiny s.mxcsr = false →
    ∃ t, exec (.vfnmsub132ssVex o) s = .next t ∧ Leaves s t (vreg4 o.d) r.value (mxcsrOr s.mxcsr r.fl) next

/-- R117: VFNMSUB213SS, VEX: `FNMSUB32(SRC2, DEST, SRC3)`. -/
def Obligations.Vfnmsub213ssVexCompletes : Prop :=
  ∀ (o : VexOperands) (s : State) (next : Word64) (w : Word32),
    VexReady s → nextPc s (vexLen o) = some next → readSrc3 (vexOp .f213 o) s = .ok w →
    let r := fnmsub32 (nanPick s) (ieInfZero s) (lowDword s (vreg4 o.s2)) (lowDword s (vreg4 o.d)) w
      (mxcsrRc s.mxcsr) (mxcsrDaz s.mxcsr) (mxcsrFtz s.mxcsr)
    unmasked r.fl r.tiny s.mxcsr = false →
    ∃ t, exec (.vfnmsub213ssVex o) s = .next t ∧ Leaves s t (vreg4 o.d) r.value (mxcsrOr s.mxcsr r.fl) next

/-- R118: VFNMSUB231SS, VEX: `FNMSUB32(SRC2, SRC3, DEST)`. -/
def Obligations.Vfnmsub231ssVexCompletes : Prop :=
  ∀ (o : VexOperands) (s : State) (next : Word64) (w : Word32),
    VexReady s → nextPc s (vexLen o) = some next → readSrc3 (vexOp .f231 o) s = .ok w →
    let r := fnmsub32 (nanPick s) (ieInfZero s) (lowDword s (vreg4 o.s2)) w (lowDword s (vreg4 o.d))
      (mxcsrRc s.mxcsr) (mxcsrDaz s.mxcsr) (mxcsrFtz s.mxcsr)
    unmasked r.fl r.tiny s.mxcsr = false →
    ∃ t, exec (.vfnmsub231ssVex o) s = .next t ∧ Leaves s t (vreg4 o.d) r.value (mxcsrOr s.mxcsr r.fl) next

/-- R119: VFNMSUB132SS, EVEX, with the low element active and no embedded rounding: `b = 0`, or `b = 1` with a memory
operand where `P_B_MEM = execute_as_b0` lets that form run (D16, log 16; `EvexReady`). -/
def Obligations.Vfnmsub132ssEvexCompletes : Prop :=
  ∀ (o : EvexOperands) (s : State) (next : Word64) (w : Word32),
    EvexReady o s → nextPc s (evexLen o) = some next → o.b = 0#1 ∨ evexSrc3IsReg o.src3 = false →
    o.aaa = 0#3 ∨ maskBit s (kreg3 o.aaa) = true → readSrc3 (evexOp .f132 o) s = .ok w →
    let r := fnmsub32 (nanPick s) (ieInfZero s) (lowDword s (vreg5 o.d)) w (lowDword s (vreg5 o.s2))
      (mxcsrRc s.mxcsr) (mxcsrDaz s.mxcsr) (mxcsrFtz s.mxcsr)
    unmasked r.fl r.tiny s.mxcsr = false →
    ∃ t, exec (.vfnmsub132ssEvex o) s = .next t ∧ Leaves s t (vreg5 o.d) r.value (mxcsrOr s.mxcsr r.fl) next

/-- R120: VFNMSUB213SS, EVEX, with the low element active and no embedded rounding: `b = 0`, or `b = 1` with a memory
operand where `P_B_MEM = execute_as_b0` lets that form run (D16, log 16; `EvexReady`). -/
def Obligations.Vfnmsub213ssEvexCompletes : Prop :=
  ∀ (o : EvexOperands) (s : State) (next : Word64) (w : Word32),
    EvexReady o s → nextPc s (evexLen o) = some next → o.b = 0#1 ∨ evexSrc3IsReg o.src3 = false →
    o.aaa = 0#3 ∨ maskBit s (kreg3 o.aaa) = true → readSrc3 (evexOp .f213 o) s = .ok w →
    let r := fnmsub32 (nanPick s) (ieInfZero s) (lowDword s (vreg5 o.s2)) (lowDword s (vreg5 o.d)) w
      (mxcsrRc s.mxcsr) (mxcsrDaz s.mxcsr) (mxcsrFtz s.mxcsr)
    unmasked r.fl r.tiny s.mxcsr = false →
    ∃ t, exec (.vfnmsub213ssEvex o) s = .next t ∧ Leaves s t (vreg5 o.d) r.value (mxcsrOr s.mxcsr r.fl) next

/-- R121: VFNMSUB231SS, EVEX, with the low element active and no embedded rounding: `b = 0`, or `b = 1` with a memory
operand where `P_B_MEM = execute_as_b0` lets that form run (D16, log 16; `EvexReady`). -/
def Obligations.Vfnmsub231ssEvexCompletes : Prop :=
  ∀ (o : EvexOperands) (s : State) (next : Word64) (w : Word32),
    EvexReady o s → nextPc s (evexLen o) = some next → o.b = 0#1 ∨ evexSrc3IsReg o.src3 = false →
    o.aaa = 0#3 ∨ maskBit s (kreg3 o.aaa) = true → readSrc3 (evexOp .f231 o) s = .ok w →
    let r := fnmsub32 (nanPick s) (ieInfZero s) (lowDword s (vreg5 o.s2)) w (lowDword s (vreg5 o.d))
      (mxcsrRc s.mxcsr) (mxcsrDaz s.mxcsr) (mxcsrFtz s.mxcsr)
    unmasked r.fl r.tiny s.mxcsr = false →
    ∃ t, exec (.vfnmsub231ssEvex o) s = .next t ∧ Leaves s t (vreg5 o.d) r.value (mxcsrOr s.mxcsr r.fl) next

/-- R114, R115, R158: an active EVEX form with `b = 1` and a register operand completes whatever MXCSR masks, rounded
by `EVEX.RC`; MXCSR does not change under `P_SAE_FLAGS = suppressed`, and is either unchanged or has the flags ORed in
under `either` (D21). -/
def Obligations.EmbeddedRoundingCompletes : Prop :=
  ∀ (f : Form) (o : EvexOperands) (n : BitVec 5) (s : State) (next : Word64),
    EvexReady o s → nextPc s (evexLen o) = some next → o.b = 1#1 → o.src3 = .reg n →
    o.aaa = 0#3 ∨ maskBit s (kreg3 o.aaa) = true →
    let r := fnmsubOf f s (vreg5 o.d) (vreg5 o.s2) (lowDword s (vreg5 n)) (roundModeOf o.ll)
    ∃ t m, exec (evexInstr f o) s = .next t ∧ Leaves s t (vreg5 o.d) r.value m next ∧
      (s.cfg.pSaeFlags = .suppressed → m = s.mxcsr) ∧ (m = s.mxcsr ∨ m = mxcsrOr s.mxcsr r.fl)

/-- R113: an EVEX form whose element is masked off, with a register operand or under `P_FAULTSUPP = no_access`,
completes whatever its operands and memory hold: bits 31:0 kept (merging) or zero (zeroing), no flag set. -/
def Obligations.MaskedOffElementCompletes : Prop :=
  ∀ (f : Form) (o : EvexOperands) (s : State) (next : Word64),
    EvexReady o s → nextPc s (evexLen o) = some next → o.aaa ≠ 0#3 → maskBit s (kreg3 o.aaa) = false →
    evexSrc3IsReg o.src3 = true ∨ s.cfg.pFaultSupp = .noAccess →
    ∃ t, exec (evexInstr f o) s = .next t ∧
      Leaves s t (vreg5 o.d) (if o.z = 1#1 then 0 else lowDword s (vreg5 o.d)) s.mxcsr next

/-- R113, R56 (`P_FAULTSUPP`, D22): under any setting of the parameter a masked-off element either completes as above
or stops as the read of its memory operand stops. -/
def Obligations.MaskedOffMemoryEitherOutcome : Prop :=
  ∀ (f : Form) (o : EvexOperands) (s : State) (next : Word64),
    EvexReady o s → nextPc s (evexLen o) = some next → o.aaa ≠ 0#3 → maskBit s (kreg3 o.aaa) = false →
    (∃ t, exec (evexInstr f o) s = .next t ∧
      Leaves s t (vreg5 o.d) (if o.z = 1#1 then 0 else lowDword s (vreg5 o.d)) s.mxcsr next) ∨
    (s.cfg.pFaultSupp = .either ∧
      ∃ e, readSrc3 (evexOp f o) s = .error e ∧ exec (evexInstr f o) s = stopWith e s)

/-! ## Exceptions of the instructions (60_exceptions.md R171 to R174) -/

/-- R157: an unmasked SIMD floating-point exception is #XM, or #UD if CR4.OSXMMEXCPT = 0; only MXCSR changes, by ORing
in some of the flags that the computation could set (D20), those of `DescribedFlags` under `P_XM_FLAGS =
set_as_described` (log 17). Of the VEX forms and of active EVEX forms without embedded rounding (`b = 0`, or `b = 1`
with memory where `P_B_MEM` lets it run, D16, log 16). The first clause says what `unmasked` means in MXCSR: a flag of bits
5:0 whose mask, seven bits above it, is 0, or a tiny result with UM (bit 11) = 0. -/
def Obligations.UnmaskedExceptionIsRaised : Prop :=
  (∀ (fl : BitVec 6) (tiny : Bool) (m : Word32), unmasked fl tiny m = true ↔
    (∃ i, i < 6 ∧ fl.getLsbD i = true ∧ m.getLsbD (7 + i) = false) ∨ (tiny = true ∧ m.getLsbD 11 = false)) ∧
  (∀ (f : Form) (o : VexOperands) (s : State) (next : Word64) (w : Word32),
    VexReady s → nextPc s (vexLen o) = some next → readSrc3 (vexOp f o) s = .ok w →
    let r := fnmsubOf f s (vreg4 o.d) (vreg4 o.s2) w (mxcsrRc s.mxcsr)
    let r' := fnmsubOf f (withoutFtz s) (vreg4 o.d) (vreg4 o.s2) w (mxcsrRc s.mxcsr)
    unmasked r.fl r.tiny s.mxcsr = true →
    ∃ fl, fl &&& ~~~(xmFlagsPossible r.fl r.tiny) = 0 ∧
      (s.cfg.pXmFlags = .setAsDescribed → DescribedFlags r r' s.mxcsr fl) ∧
      exec (vexInstr f o) s =
        .fault (.exception (if osxmmexcpt s then .xm else .ud) { s with mxcsr := mxcsrOr s.mxcsr fl })) ∧
  (∀ (f : Form) (o : EvexOperands) (s : State) (next : Word64) (w : Word32),
    EvexReady o s → nextPc s (evexLen o) = some next → o.b = 0#1 ∨ evexSrc3IsReg o.src3 = false →
    o.aaa = 0#3 ∨ maskBit s (kreg3 o.aaa) = true → readSrc3 (evexOp f o) s = .ok w →
    let r := fnmsubOf f s (vreg5 o.d) (vreg5 o.s2) w (mxcsrRc s.mxcsr)
    let r' := fnmsubOf f (withoutFtz s) (vreg5 o.d) (vreg5 o.s2) w (mxcsrRc s.mxcsr)
    unmasked r.fl r.tiny s.mxcsr = true →
    ∃ fl, fl &&& ~~~(xmFlagsPossible r.fl r.tiny) = 0 ∧
      (s.cfg.pXmFlags = .setAsDescribed → DescribedFlags r r' s.mxcsr fl) ∧
      exec (evexInstr f o) s =
        .fault (.exception (if osxmmexcpt s then .xm else .ud) { s with mxcsr := mxcsrOr s.mxcsr fl }))

/-- R171: a VEX form without CR4.OSXSAVE, XCR0[2:1] = 11b or the CPUID flag FMA raises #UD. That it does so whatever
CR0.TS and the operands are, #UD before #NM and before the operand's faults, is the spec's decision D10 (R174; log 25).
-/
def Obligations.VexConditionsRaiseUd : Prop :=
  ∀ (f : Form) (o : VexOperands) (s : State), s.mode = .mode64 → (nextPc s (vexLen o)).isSome = true →
    s.cr4.getLsbD 18 = false ∨ s.xcr0.extractLsb' 1 2 ≠ 3#2 ∨ s.cfg.hasFma = false →
    exec (vexInstr f o) s = .fault (.exception .ud s)

/-- R172, R86: an EVEX form without CR4.OSXSAVE, XCR0[2:1] = 11b, XCR0[7:5] = 111b or the CPUID flag AVX512F raises
#UD; so do, under the defaults of `P_B_MEM` and `P_LL11` (D16, D17; logs 15, 16), `b = 1` with a memory operand and
`b = 0` with `L'L = 11b`. That #UD comes before #NM and before the operand's faults is the spec's decision D10 (R174;
log 25). -/
def Obligations.EvexConditionsRaiseUd : Prop :=
  ∀ (f : Form) (o : EvexOperands) (s : State), s.mode = .mode64 → (nextPc s (evexLen o)).isSome = true →
    s.cr4.getLsbD 18 = false ∨ s.xcr0.extractLsb' 1 2 ≠ 3#2 ∨ s.xcr0.extractLsb' 5 3 ≠ 7#3 ∨
      s.cfg.hasAvx512f = false ∨ (o.b = 1#1 ∧ evexSrc3IsReg o.src3 = false ∧ s.cfg.pBMem = .faultUd) ∨
      (o.b = 0#1 ∧ o.ll = 3#2 ∧ s.cfg.pLL11 = .faultUd) →
    exec (evexInstr f o) s = .fault (.exception .ud s)

/-- R174 (4), R31: with no #UD condition and CR0.TS = 1 every form raises #NM. That it does so before any operand is
read, whatever faults the operand has, is the spec's decision D10 (log 25). -/
def Obligations.TaskSwitchedRaisesNm : Prop :=
  (∀ (f : Form) (o : VexOperands) (s : State), s.mode = .mode64 → (nextPc s (vexLen o)).isSome = true →
    vexUndefined s = false → s.cr0.getLsbD 3 = true → exec (vexInstr f o) s = .fault (.exception .nm s)) ∧
  (∀ (f : Form) (o : EvexOperands) (s : State), s.mode = .mode64 → (nextPc s (evexLen o)).isSome = true →
    evexUndefined o s = false → s.cr0.getLsbD 3 = true → exec (evexInstr f o) s = .fault (.exception .nm s))

/-- R174 (5), R110: an active form whose memory operand cannot be read stops as the read stops, with nothing changed.
That a memory fault comes before #XM, whatever the arithmetic would have signalled, is the spec's decision D10 (log 25);
that an absent byte stops the run is D9 (log 5). -/
def Obligations.MemoryOperandStopEndsInstruction : Prop :=
  (∀ (f : Form) (o : VexOperands) (s : State) (next : Word64) (e : Stop),
    VexReady s → nextPc s (vexLen o) = some next → readSrc3 (vexOp f o) s = .error e →
    exec (vexInstr f o) s = stopWith e s) ∧
  (∀ (f : Form) (o : EvexOperands) (s : State) (next : Word64) (e : Stop),
    EvexReady o s → nextPc s (evexLen o) = some next → o.aaa = 0#3 ∨ maskBit s (kreg3 o.aaa) = true →
    readSrc3 (evexOp f o) s = .error e → exec (evexInstr f o) s = stopWith e s)

/-! ## Memory operands (20_memory.md, 30_encoding.md R77 to R80) -/

/-- R50, R51: a memory operand whose four bytes are canonical, translated and present, with no alignment check against
it, is their little-endian assembly, in a VEX and in an EVEX form. R110 step 4, R111, R22: a register operand is bits
31:0 of the vector register that the operand names, whatever the EVEX fields are. -/
def Obligations.MemoryOperandReadsFourBytes : Prop :=
  (∀ (f : Form) (s : State) (m : MemOperand) (p0 p1 p2 p3 : Word64) (b0 b1 b2 b3 : Byte) (a : Word64),
    canonical4 s.cfg a = true →
    DataAt s a p0 → DataAt s (a + 1) p1 → DataAt s (a + 2) p2 → DataAt s (a + 3) p3 →
    alignCheckOn s = false ∨ a.toNat % 4 = 0 →
    memGet s.mem p0.toNat = some b0 → memGet s.mem p1.toNat = some b1 → memGet s.mem p2.toNat = some b2 →
    memGet s.mem p3.toNat = some b3 →
    (∀ o : VexOperands, o.src3 = .mem m → linearAddr s ⟨o.pfx, 1, vexLen o, m⟩ = a →
      readSrc3 (vexOp f o) s = .ok (b3 ++ b2 ++ b1 ++ b0)) ∧
    (∀ o : EvexOperands, o.src3 = .mem m → linearAddr s ⟨o.pfx, 4, evexLen o, m⟩ = a →
      readSrc3 (evexOp f o) s = .ok (b3 ++ b2 ++ b1 ++ b0))) ∧
  (∀ (f : Form) (s : State) (o : VexOperands) (x : BitVec 1) (n : BitVec 4) (j : Fin 32),
    o.src3 = .reg x n → j.val = n.toNat → readSrc3 (vexOp f o) s = .ok ((s.v[j]).extractLsb' 0 32)) ∧
  (∀ (f : Form) (s : State) (o : EvexOperands) (n : BitVec 5) (j : Fin 32),
    o.src3 = .reg n → j.val = n.toNat → readSrc3 (evexOp f o) s = .ok ((s.v[j]).extractLsb' 0 32))

/-- How a 4-byte read stops (R56, R54, R52), in the order that the spec decides in D10 (log 25), stuck where D9
decides so (R57, log 5): a non-canonical byte address; else a page fault of the first byte address that does not
translate; else #AC(0) with alignment checking on; else stuck at an absent byte. The read is an instruction's read of
its memory operand (the last two clauses, R110 step 4); it goes through SS exactly where the base register is RSP or
RBP and every prefix but 67, each of which is a segment override, is absent (R54, R79; log 20). -/
def Obligations.MemReadFaultOrder : Prop :=
  (∀ (s : State) (viaSs : Bool) (a : Word64),
    (canonical4 s.cfg a = false →
      memRead s viaSs a = .error (.exception (if viaSs then .ss 0 else .gp 0))) ∧
    (∀ (n : Fin 4) (code : Word32), canonical4 s.cfg a = true →
      (∀ m : Fin 4, m < n → ∃ p, DataAt s (a + BitVec.ofNat 64 m.val) p) →
      translate s.cfg.translate (.dataRead s.cpl) (a + BitVec.ofNat 64 n.val) = .pageFault code →
      memRead s viaSs a = .error (.exception (.pf code (a + BitVec.ofNat 64 n.val)))) ∧
    (canonical4 s.cfg a = true →
      (∀ m : Fin 4, ∃ p, DataAt s (a + BitVec.ofNat 64 m.val) p) →
      (alignCheckOn s = true ∧ a.toNat % 4 ≠ 0 → memRead s viaSs a = .error (.exception (.ac 0))) ∧
      (¬ (alignCheckOn s = true ∧ a.toNat % 4 ≠ 0) →
        ∀ (n : Fin 4) (p : Word64), DataAt s (a + BitVec.ofNat 64 n.val) p → memGet s.mem p.toNat = none →
          (∀ m : Fin 4, m < n → ∀ q, DataAt s (a + BitVec.ofNat 64 m.val) q → (memGet s.mem q.toNat).isSome = true) →
          memRead s viaSs a = .error (.absent p)))) ∧
  (∀ m : MemRef, usesSs m = true ↔
    ((∃ x r d, m.operand = .base x r d ∧ (r = 4#4 ∨ r = 5#4)) ∨
      ∃ sc ix r d, m.operand = .sib sc ix r d ∧ (r = 4#4 ∨ r = 5#4)) ∧ ∀ p ∈ m.pfx, p = .a32) ∧
  (∀ (f : Form) (s : State) (o : VexOperands) (m : MemOperand), o.src3 = .mem m →
    readSrc3 (vexOp f o) s = memRead s (usesSs ⟨o.pfx, 1, vexLen o, m⟩) (linearAddr s ⟨o.pfx, 1, vexLen o, m⟩)) ∧
  (∀ (f : Form) (s : State) (o : EvexOperands) (m : MemOperand), o.src3 = .mem m →
    readSrc3 (evexOp f o) s = memRead s (usesSs ⟨o.pfx, 4, evexLen o, m⟩) (linearAddr s ⟨o.pfx, 4, evexLen o, m⟩))

/-- R50: the read does not touch any other byte: memories that agree on the four bytes give the same answer. -/
def Obligations.MemReadTouchesFourBytes : Prop :=
  ∀ (s : State) (mem' : Memory) (viaSs : Bool) (a : Word64),
    (∀ (n : Fin 4) (p : Word64), DataAt s (a + BitVec.ofNat 64 n.val) p →
      memGet mem' p.toNat = memGet s.mem p.toNat) →
    memRead { s with mem := mem' } viaSs a = memRead s viaSs a

/-- R22, R124: of SRC2 and SRC3 only bits 31:0 are read. In two states whose vector registers agree in their low
doublewords and in all of DEST, an instruction completes alike. -/
def Obligations.SourcesReadLowDwordOnly : Prop :=
  ∀ (i : Instr) (s t : State) (v' : Vector VReg 32),
    (∀ j : Fin 32, (v'[j]).extractLsb' 0 32 = (s.v[j]).extractLsb' 0 32) → v'[destOf i] = s.v[destOf i] →
    exec i s = .next t →
    ∃ t', exec i { s with v := v' } = .next t' ∧ t'.v[destOf i] = t.v[destOf i] ∧ t'.mxcsr = t.mxcsr ∧
      t'.pc = t.pc

/-- R29, R180: RFLAGS is neither read nor written, and the privilege level enters in two places only: the alignment
check, and the page permissions that `Translate` applies. Two states that differ in RFLAGS and the level alone, in which
the alignment check is alike and `Translate` maps data reads alike at the two levels, complete alike. (`Translate` is
the model's list of ranges, each at one level: log 4.) -/
def Obligations.FlagsAndPrivilegeDoNotMatter : Prop :=
  ∀ (i : Instr) (s t : State) (rflags' : Word64) (cpl' : BitVec 2),
    alignCheckOn { s with rflags := rflags', cpl := cpl' } = alignCheckOn s →
    (∀ a, translate s.cfg.translate (.dataRead cpl') a = translate s.cfg.translate (.dataRead s.cpl) a) →
    exec i s = .next t →
    exec i { s with rflags := rflags', cpl := cpl' } = .next { t with rflags := rflags', cpl := cpl' }

/-- R123, which the spec derives from R110 to R115: for the same form, the same registers below 16 or the same memory
address, the EVEX encoding with `aaa = 000b`, `z = 0`, `b = 0` and `L'L != 11b` does what the VEX encoding does, but
for the length that `pc` advances by. -/
def Obligations.VexAndEvexAgree : Prop :=
  ∀ (f : Form) (ov : VexOperands) (oe : EvexOperands) (s : State) (nv ne : Word64),
    VexReady s → avx512StateOn s = true → s.cfg.hasAvx512f = true →
    nextPc s (vexLen ov) = some nv → nextPc s (evexLen oe) = some ne →
    oe.d.toNat = ov.d.toNat → oe.s2.toNat = ov.s2.toNat → oe.aaa = 0#3 → oe.z = 0#1 → oe.b = 0#1 → oe.ll ≠ 3#2 →
    ((∃ x n m, ov.src3 = .reg x n ∧ oe.src3 = .reg m ∧ m.toNat = n.toNat) ∨
      (∃ m m', ov.src3 = .mem m ∧ oe.src3 = .mem m' ∧
        linearAddr s ⟨oe.pfx, 4, evexLen oe, m'⟩ = linearAddr s ⟨ov.pfx, 1, vexLen ov, m⟩ ∧
        usesSs ⟨oe.pfx, 4, evexLen oe, m'⟩ = usesSs ⟨ov.pfx, 1, vexLen ov, m⟩)) →
    exec (evexInstr f oe) s = withPc ne (exec (vexInstr f ov) s)

/-- R77: an EVEX 8-bit displacement counts four times: the operand has the address of the same operand with the 32-bit
displacement `disp8 * 4`, and a VEX one that of the 32-bit displacement `disp8`. -/
def Obligations.EightBitDisplacementScaling : Prop :=
  ∀ (s : State) (pfx : List LegacyPrefix) (len len' : Nat) (x : BitVec 1) (sc : BitVec 2) (ix r : BitVec 4) (v : Byte),
    linearAddr s ⟨pfx, 4, len, .base x r (.d8 v)⟩ =
      linearAddr s ⟨pfx, 4, len', .base x r (.d32 (v.signExtend 32 * 4))⟩ ∧
    linearAddr s ⟨pfx, 4, len, .sib sc ix r (.d8 v)⟩ =
      linearAddr s ⟨pfx, 4, len', .sib sc ix r (.d32 (v.signExtend 32 * 4))⟩ ∧
    linearAddr s ⟨pfx, 1, len, .base x r (.d8 v)⟩ =
      linearAddr s ⟨pfx, 1, len', .base x r (.d32 (v.signExtend 32))⟩ ∧
    linearAddr s ⟨pfx, 1, len, .sib sc ix r (.d8 v)⟩ =
      linearAddr s ⟨pfx, 1, len', .sib sc ix r (.d32 (v.signExtend 32))⟩

/-- R77, R79: the effective address of each operand form, the index `0100b` adding nothing; no displacement adds 0, an
8-bit one its sign-extension times `n8` (1 for VEX, 4 for EVEX), a 32-bit one its sign-extension; with prefix 67 the
whole sum is the 32-bit one, zero-extended. -/
def Obligations.EffectiveAddress : Prop :=
  ∀ (s : State) (n8 : Word64) (len : Nat),
    (∀ x b d, effAddr s false n8 len (.ripRel x b d) = s.pc + BitVec.ofNat 64 len + d.signExtend 64) ∧
    (∀ x r, effAddr s false n8 len (.base x r .none) = s.x[r.toNat]) ∧
    (∀ x r v, effAddr s false n8 len (.base x r (.d8 v)) = s.x[r.toNat] + v.signExtend 64 * n8) ∧
    (∀ x r v, effAddr s false n8 len (.base x r (.d32 v)) = s.x[r.toNat] + v.signExtend 64) ∧
    (∀ sc ix r, ix ≠ 4#4 → effAddr s false n8 len (.sib sc ix r .none) =
      s.x[r.toNat] + s.x[ix.toNat] * BitVec.ofNat 64 (2 ^ sc.toNat)) ∧
    (∀ sc ix r v, ix ≠ 4#4 → effAddr s false n8 len (.sib sc ix r (.d8 v)) =
      s.x[r.toNat] + s.x[ix.toNat] * BitVec.ofNat 64 (2 ^ sc.toNat) + v.signExtend 64 * n8) ∧
    (∀ sc ix r v, ix ≠ 4#4 → effAddr s false n8 len (.sib sc ix r (.d32 v)) =
      s.x[r.toNat] + s.x[ix.toNat] * BitVec.ofNat 64 (2 ^ sc.toNat) + v.signExtend 64) ∧
    (∀ sc r, effAddr s false n8 len (.sib sc 4 r .none) = s.x[r.toNat]) ∧
    (∀ sc r v, effAddr s false n8 len (.sib sc 4 r (.d8 v)) = s.x[r.toNat] + v.signExtend 64 * n8) ∧
    (∀ sc r v, effAddr s false n8 len (.sib sc 4 r (.d32 v)) = s.x[r.toNat] + v.signExtend 64) ∧
    (∀ sc ix b d, ix ≠ 4#4 → effAddr s false n8 len (.sibNoBase sc ix b d) =
      s.x[ix.toNat] * BitVec.ofNat 64 (2 ^ sc.toNat) + d.signExtend 64) ∧
    (∀ sc b d, effAddr s false n8 len (.sibNoBase sc 4 b d) = d.signExtend 64) ∧
    ∀ m, effAddr s true n8 len m = ((effAddr s false n8 len m).setWidth 32).setWidth 64

/-- R54, R80: the linear address is the effective address plus the segment base, modulo 2^64; the address size is 32
exactly when prefix 67 is among the prefixes; and of the prefixes the last FS or GS override gives the segment base,
with neither nothing is added. -/
def Obligations.LastSegmentOverrideCounts : Prop :=
  (∀ (s : State) (ps qs : List LegacyPrefix), (∀ q ∈ qs, q ≠ .fs ∧ q ≠ .gs) →
    segBase s (ps ++ .fs :: qs) 0 = s.fsBase ∧ segBase s (ps ++ .gs :: qs) 0 = s.gsBase ∧ segBase s qs 0 = 0) ∧
  (∀ (s : State) (m : MemRef),
    (.a32 ∉ m.pfx → linearAddr s m = effAddr s false m.n8 m.len m.operand + segBase s m.pfx 0) ∧
    (.a32 ∈ m.pfx → linearAddr s m = effAddr s true m.n8 m.len m.operand + segBase s m.pfx 0))

/-! ## The arithmetic (41_fma_numerics.md) -/

/-- R144: DAZ replaces each denormal operand by the zero of its sign before anything else looks at it; the zero is no
denormal, and no other operand changes. -/
def Obligations.DazReadsDenormalsAsZeros : Prop :=
  (∀ (pick : Nat) (ie : Bool) (x y z : Word32) (rm : RoundMode) (ftz : Bool),
    fnmsub32 pick ie x y z rm true ftz =
      fnmsub32 pick ie (dazOf true x) (dazOf true y) (dazOf true z) rm false ftz) ∧
  (∀ u, isDenormal u = true →
    dazOf true u = u &&& 0x80000000 ∧ isZero (dazOf true u) = true ∧ isDenormal (dazOf true u) = false ∧
      signOf (dazOf true u) = signOf u) ∧
  (∀ u, isDenormal u = false → dazOf true u = u) ∧ (∀ u, dazOf false u = u)

/-- R145: with a NaN operand the result is a quieted NaN operand, the first in the order x, y, z under the default of
`P_NAN`; IE is set if an operand is an SNaN, or where `P_IE_INFZERO_QNAN` has it; no other flag. What the configuration
makes of the two parameters (D18, D19): the default of `P_NAN` picks the first (log 11), `no_flag` and `IE` decide the
flag (log 12); elsewhere both are free, and the statement holds for every value. -/
def Obligations.NanOperandResult : Prop :=
  (∀ (pick : Nat) (ie : Bool) (x y z : Word32) (rm : RoundMode) (daz ftz : Bool),
    ¬ NoNaN x y z →
    let r := fnmsub32 pick ie x y z rm daz ftz
    (∃ n, (n = x ∨ n = y ∨ n = z) ∧ isNaN n = true ∧ r.value = quiet n) ∧
    (pick = 0 → r.value = if isNaN x then quiet x else if isNaN y then quiet y else quiet z) ∧
    (isSNaN x = true ∨ isSNaN y = true ∨ isSNaN z = true → r.fl = flagIE) ∧
    (isSNaN x = false ∧ isSNaN y = false ∧ isSNaN z = false → ie = false → r.fl = flagNone) ∧
    (isSNaN x = false ∧ isSNaN y = false ∧ isSNaN z = false → ie = true →
      (ZeroTimesInf (dazOf daz x) (dazOf daz y) → r.fl = flagIE) ∧
      (¬ ZeroTimesInf (dazOf daz x) (dazOf daz y) → r.fl = flagNone)) ∧
    r.tiny = false) ∧
  (∀ s : State,
    (s.cfg.pNan = .firstInOperationOrder → nanPick s = 0) ∧
    (s.cfg.pIeInfZeroQnan = .noFlag → ieInfZero s = false) ∧ (s.cfg.pIeInfZeroQnan = .ie → ieInfZero s = true))

/-- R146: with no NaN operand, zero times infinity gives the indefinite with IE alone. -/
def Obligations.InvalidMultiplication : Prop :=
  ∀ (pick : Nat) (ie : Bool) (x y z : Word32) (rm : RoundMode) (daz ftz : Bool),
    NoNaN x y z → ZeroTimesInf (dazOf daz x) (dazOf daz y) →
    fnmsub32 pick ie x y z rm daz ftz = ⟨0xFFC00000, flagIE, false⟩

/-- R147: with no NaN operand and R146 not applying, infinite terms of opposite sign give the indefinite with IE
alone. -/
def Obligations.InvalidSubtraction : Prop :=
  ∀ (pick : Nat) (ie : Bool) (x y z : Word32) (rm : RoundMode) (daz ftz : Bool),
    NoNaN x y z → ¬ ZeroTimesInf (dazOf daz x) (dazOf daz y) → isInf x = true ∨ isInf y = true → isInf z = true →
    (!(signOf x ^^ signOf y)) ≠ !signOf z →
    fnmsub32 pick ie x y z rm daz ftz = ⟨0xFFC00000, flagIE, false⟩

/-- R149: valid infinite operands give the infinity of the term's sign; no flag but DE. -/
def Obligations.ValidInfinities : Prop :=
  ∀ (pick : Nat) (ie : Bool) (x y z : Word32) (rm : RoundMode) (daz ftz : Bool),
    NoNaN x y z → ¬ ZeroTimesInf (dazOf daz x) (dazOf daz y) →
    let r := fnmsub32 pick ie x y z rm daz ftz
    (isInf x = true ∨ isInf y = true → (isInf z = true → (!(signOf x ^^ signOf y)) = !signOf z) →
      r.value = if (!(signOf x ^^ signOf y)) then 0xFF800000 else 0x7F800000) ∧
    (isInf x = false ∧ isInf y = false → isInf z = true → r.value = flipSign z) ∧
    ((isInf x = true ∨ isInf y = true) ∧ (isInf z = true → (!(signOf x ^^ signOf y)) = !signOf z) ∨
        isInf x = false ∧ isInf y = false ∧ isInf z = true →
      r.fl &&& ~~~flagDE = 0 ∧ r.tiny = false)

/-- R150: the sign of an exact zero. Two zero terms of one sign keep it; any other exact zero is +0, or -0 under round
down. No flag but DE. -/
def Obligations.ExactZeroSign : Prop :=
  ∀ (pick : Nat) (ie : Bool) (x₀ y₀ z₀ : Word32) (rm : RoundMode) (daz ftz : Bool),
    let x := dazOf daz x₀
    let y := dazOf daz y₀
    let z := dazOf daz z₀
    FiniteOperands x y z → exactValue x y z = 0 →
    let r := fnmsub32 pick ie x₀ y₀ z₀ rm daz ftz
    ((isZero x = true ∨ isZero y = true) ∧ isZero z = true ∧ (!(signOf x ^^ signOf y)) = (!signOf z) →
      r.value = if !signOf z then 0x80000000 else 0) ∧
    (¬ ((isZero x = true ∨ isZero y = true) ∧ isZero z = true ∧ (!(signOf x ^^ signOf y)) = (!signOf z)) →
      r.value = if rm = .rd then 0x80000000 else 0) ∧
    r.fl &&& ~~~flagDE = 0 ∧ r.tiny = false

/-- R148: where no NaN and no invalid operation ends the function first, DE is in the flag set exactly when an operand,
read through DAZ, is denormal. -/
def Obligations.DenormalOperandFlag : Prop :=
  ∀ (pick : Nat) (ie : Bool) (x y z : Word32) (rm : RoundMode) (daz ftz : Bool),
    NoNaN x y z → ¬ ZeroTimesInf (dazOf daz x) (dazOf daz y) →
    ¬ ((isInf x = true ∨ isInf y = true) ∧ isInf z = true ∧ (!(signOf x ^^ signOf y)) ≠ !signOf z) →
    (HasFlag (fnmsub32 pick ie x y z rm daz ftz).fl flagDE ↔
      isDenormal (dazOf daz x) = true ∨ isDenormal (dazOf daz y) = true ∨ isDenormal (dazOf daz z) = true)

/-- R160: a NaN result is the indefinite, with IE, or a quieted copy of a NaN operand. -/
def Obligations.NanResultsAreIndefiniteOrQuieted : Prop :=
  ∀ (pick : Nat) (ie : Bool) (x y z : Word32) (rm : RoundMode) (daz ftz : Bool),
    let r := fnmsub32 pick ie x y z rm daz ftz
    isNaN r.value = true →
    (NoNaN x y z ∧ r.value = 0xFFC00000 ∧ r.fl = flagIE) ∨
    ∃ n, (n = x ∨ n = y ∨ n = z) ∧ isNaN n = true ∧ r.value = quiet n

/-- R159: ZE is never set and #Z never signalled: not by the arithmetic, not by a step that completes, not by one that
faults. -/
def Obligations.DivideByZeroIsNeverSignalled : Prop :=
  (∀ (pick : Nat) (ie : Bool) (x y z : Word32) (rm : RoundMode) (daz ftz : Bool),
    (fnmsub32 pick ie x y z rm daz ftz).fl.getLsbD 2 = false) ∧
  (∀ s t, step s = .next t → t.mxcsr.getLsbD 2 = s.mxcsr.getLsbD 2) ∧
  (∀ s t e, step s = .fault (.exception e t) → t.mxcsr.getLsbD 2 = s.mxcsr.getLsbD 2)

/-- R153, R152: OE is signalled exactly for the exact values that round to 2^128 or more at 24 bits; then PE is too,
and the result is the infinity or the largest finite value that the mode and the sign call for. -/
def Obligations.OverflowThresholdAndResult : Prop :=
  ∀ (pick : Nat) (ie : Bool) (x₀ y₀ z₀ : Word32) (rm : RoundMode) (daz ftz : Bool),
    let x := dazOf daz x₀
    let y := dazOf daz y₀
    let z := dazOf daz z₀
    FiniteOperands x y z → exactValue x y z ≠ 0 →
    let v := exactValue x y z
    let r := fnmsub32 pick ie x₀ y₀ z₀ rm daz ftz
    (HasFlag r.fl flagOE ↔ Overflows rm v) ∧
    (Overflows rm v → HasFlag r.fl flagPE ∧ r.tiny = false ∧
      r.value = match rm with
        | .rn => if v < 0 then 0xFF800000 else 0x7F800000
        | .rz => if v < 0 then 0xFF7FFFFF else 0x7F7FFFFF
        | .rd => if v < 0 then 0xFF800000 else 0x7F7FFFFF
        | .ru => if v < 0 then 0xFF7FFFFF else 0x7F800000)

/-- R141, R154: `tiny` holds exactly for nonzero exact values whose magnitude, rounded to 24 significant bits, is below
2^-126; on every earlier return it is false (R143). -/
def Obligations.TinyIsDetectedAfterRounding : Prop :=
  ∀ (pick : Nat) (ie : Bool) (x₀ y₀ z₀ : Word32) (rm : RoundMode) (daz ftz : Bool),
    let x := dazOf daz x₀
    let y := dazOf daz y₀
    let z := dazOf daz z₀
    let r := fnmsub32 pick ie x₀ y₀ z₀ rm daz ftz
    (FiniteOperands x y z ∧ exactValue x y z ≠ 0 → (r.tiny = true ↔ TinyAfterRounding rm (exactValue x y z))) ∧
    (¬ (FiniteOperands x y z ∧ exactValue x y z ≠ 0) → r.tiny = false)

/-- R154: a tiny result is flushed to the zero of its sign with UE and PE under FTZ; without FTZ UE is signalled
exactly when PE is. A result that is not tiny never signals UE. -/
def Obligations.UnderflowAndFlushToZero : Prop :=
  ∀ (pick : Nat) (ie : Bool) (x y z : Word32) (rm : RoundMode) (daz ftz : Bool),
    let r := fnmsub32 pick ie x y z rm daz ftz
    (r.tiny = true → ftz = true →
      r.value = (if exactValue (dazOf daz x) (dazOf daz y) (dazOf daz z) < 0 then 0x80000000 else 0) ∧
      HasFlag r.fl flagUE ∧ HasFlag r.fl flagPE) ∧
    (r.tiny = true → ftz = false → (HasFlag r.fl flagUE ↔ HasFlag r.fl flagPE)) ∧
    (r.tiny = false → ¬ HasFlag r.fl flagUE)

/-- R155: PE is in the flag set exactly when the delivered result differs from the exact `v`; never where R145 to R150
return. -/
def Obligations.PrecisionFlagIsInexactness : Prop :=
  ∀ (pick : Nat) (ie : Bool) (x₀ y₀ z₀ : Word32) (rm : RoundMode) (daz ftz : Bool),
    let x := dazOf daz x₀
    let y := dazOf daz y₀
    let z := dazOf daz z₀
    let v := exactValue x y z
    let r := fnmsub32 pick ie x₀ y₀ z₀ rm daz ftz
    (FiniteOperands x y z → v ≠ 0 →
      (HasFlag r.fl flagPE ↔ ¬ (isFinite r.value = true ∧ scaledVal r.value = v))) ∧
    (¬ FiniteOperands x y z ∨ v = 0 → ¬ HasFlag r.fl flagPE)

/-- R151, R152, R154: one rounding. For finite operands and a nonzero exact `v = -(x*y) - z` that does not overflow,
with FTZ off or a result that is not tiny, the result is `v` rounded to binary32 by the mode, among ALL binary32 values,
the denormals included. -/
def Obligations.ResultIsCorrectlyRounded : Prop :=
  ∀ (pick : Nat) (ie : Bool) (x₀ y₀ z₀ : Word32) (rm : RoundMode) (daz ftz : Bool),
    let x := dazOf daz x₀
    let y := dazOf daz y₀
    let z := dazOf daz z₀
    FiniteOperands x y z → exactValue x y z ≠ 0 →
    let r := fnmsub32 pick ie x₀ y₀ z₀ rm daz ftz
    ftz = false ∨ r.tiny = false → ¬ HasFlag r.fl flagOE → IsRounded rm (exactValue x y z) r.value

/-- R161: the multiplicands commute for every numeric result and flag. -/
def Obligations.MultiplicandsCommute : Prop :=
  ∀ (pick : Nat) (ie : Bool) (x y z : Word32) (rm : RoundMode) (daz ftz : Bool),
    NoNaN x y z → fnmsub32 pick ie x y z rm daz ftz = fnmsub32 pick ie y x z rm daz ftz

/-- R161: round down of the one is round up of the other with the sign flipped: negating x and z, which turns
`-(x*y) - z` into `(x*y) + z`, flips the sign of every numeric result and changes no flag. -/
def Obligations.DirectedRoundingMirrors : Prop :=
  ∀ (pick : Nat) (ie : Bool) (x y z : Word32) (daz ftz : Bool),
    NoNaN x y z →
    let r := fnmsub32 pick ie x y z .rd daz ftz
    isNaN r.value = false →
    fnmsub32 pick ie (flipSign x) y (flipSign z) .ru daz ftz = ⟨flipSign r.value, r.fl, r.tiny⟩

/-- R151: where one term is a zero the other passes through: a zero product gives `z` with its sign flipped, exactly,
but for a denormal `z` under FTZ (R154). And the rule's own example of the single rounding. -/
def Obligations.ZeroProductPassesThrough : Prop :=
  (∀ (pick : Nat) (ie : Bool) (x₀ y₀ z₀ : Word32) (rm : RoundMode) (daz ftz : Bool),
    let x := dazOf daz x₀
    let y := dazOf daz y₀
    let z := dazOf daz z₀
    FiniteOperands x y z → isZero x = true ∨ isZero y = true → isZero z = false →
    ftz = false ∨ isDenormal z = false →
    let r := fnmsub32 pick ie x₀ y₀ z₀ rm daz ftz
    r.value = flipSign z ∧ r.fl &&& ~~~flagDE = 0) ∧
  (∀ (pick : Nat) (ie daz ftz : Bool) (rm : RoundMode),
    fnmsub32 pick ie 0x3F800001 0x3F800001 0xBF800002 rm daz ftz = ⟨0xA8800000, flagNone, false⟩)
end

