-- ==== Sys2Proof/Laws/Access.lean ====
section
/-! SUPPORT. What address translation, `MemRead` and the advance of `pc` can answer, said once. -/

namespace Sys2Proof.Machine

/-- The identity translation (D8). -/
@[simp] theorem translate_identity (kind : AccessKind) (a : Word64) : translate [] kind a = .phys a := rfl

theorem translateData_identity {s : State} (h : s.cfg.translate = []) (a : Word64) : translateData s a = .ok a := by
  simp [translateData, h]

/-- A translation that succeeds is `Translate`'s physical address. -/
theorem translateData_ok {s : State} {a p : Word64} (h : translateData s a = .ok p) :
    translate s.cfg.translate (.dataRead s.cpl) a = .phys p := by
  unfold translateData at h
  split at h
  · next q hq => injection h with h; exact h ▸ hq
  · cases h

/-- A translation that fails is a page fault at that address. -/
theorem translateData_error {s : State} {a : Word64} {e : Stop} (h : translateData s a = .error e) :
    ∃ code, translate s.cfg.translate (.dataRead s.cpl) a = .pageFault code ∧ e = .exception (.pf code a) := by
  unfold translateData at h
  split at h
  · cases h
  · next code hc => injection h with h; exact ⟨code, hc, h.symm⟩

theorem loadByte_ok {m : Memory} {p : Word64} {b : Byte} (h : loadByte m p = .ok b) : memGet m p.toNat = some b := by
  unfold loadByte at h
  split at h
  · next c hc => injection h with h; exact h ▸ hc
  · cases h

theorem loadByte_of_memGet {m : Memory} {p : Word64} {b : Byte} (h : memGet m p.toNat = some b) :
    loadByte m p = .ok b := by
  simp [loadByte, h]

theorem loadByte_absent {m : Memory} {p : Word64} (h : memGet m p.toNat = none) :
    loadByte m p = .error (.absent p) := by
  simp [loadByte, h]

/-- Step (1) of R56. -/
theorem memRead_nonCanonical {s : State} {ss : Bool} {a : Word64} (h : canonical4 s.cfg a = false) :
    memRead s ss a = .error (.exception (nonCanonical ss)) := by
  unfold canonical4 at h
  unfold memRead
  rw [h]
  rfl

/-- Steps (2) to (4) of R56 where everything succeeds. -/
theorem memRead_of_bytes {s : State} {ss : Bool} {a p0 p1 p2 p3 : Word64} {b0 b1 b2 b3 : Byte}
    (hc : canonical4 s.cfg a = true) (t0 : translateData s a = .ok p0) (t1 : translateData s (a + 1) = .ok p1)
    (t2 : translateData s (a + 2) = .ok p2) (t3 : translateData s (a + 3) = .ok p3)
    (ha : (alignCheckOn s && a.extractLsb' 0 2 != 0) = false) (l0 : loadByte s.mem p0 = .ok b0)
    (l1 : loadByte s.mem p1 = .ok b1) (l2 : loadByte s.mem p2 = .ok b2) (l3 : loadByte s.mem p3 = .ok b3) :
    memRead s ss a = .ok (le32 b0 b1 b2 b3) := by
  unfold canonical4 at hc
  unfold memRead
  rw [hc]
  simp only [t0, t1, t2, t3, ha, l0, l1, l2, l3, bind, Except.bind, pure, Except.pure, Bool.not_true,
    Bool.false_eq_true, if_false]

/-- What a successful `MemRead` has done (R56): four canonical, translated, present bytes, little-endian. -/
theorem memRead_ok {s : State} {ss : Bool} {a : Word64} {w : Word32} (h : memRead s ss a = .ok w) :
    canonical4 s.cfg a = true ∧ (alignCheckOn s && a.extractLsb' 0 2 != 0) = false ∧
      ∃ p0 p1 p2 p3 b0 b1 b2 b3, translateData s a = .ok p0 ∧ translateData s (a + 1) = .ok p1 ∧
        translateData s (a + 2) = .ok p2 ∧ translateData s (a + 3) = .ok p3 ∧ loadByte s.mem p0 = .ok b0 ∧
        loadByte s.mem p1 = .ok b1 ∧ loadByte s.mem p2 = .ok b2 ∧ loadByte s.mem p3 = .ok b3 ∧
        w = le32 b0 b1 b2 b3 := by
  cases hc : canonical4 s.cfg a with
  | false => rw [memRead_nonCanonical hc] at h; cases h
  | true =>
    refine ⟨rfl, ?_⟩
    unfold canonical4 at hc
    unfold memRead at h
    rw [hc] at h
    simp only [Bool.not_true, Bool.false_eq_true, if_false, bind, Except.bind] at h
    cases t0 : translateData s a <;> simp only [t0] at h
    · cases h
    cases t1 : translateData s (a + 1) <;> simp only [t1] at h
    · cases h
    cases t2 : translateData s (a + 2) <;> simp only [t2] at h
    · cases h
    cases t3 : translateData s (a + 3) <;> simp only [t3] at h
    · cases h
    by_cases ha : (alignCheckOn s && a.extractLsb' 0 2 != 0) = true
    · rw [if_pos ha] at h; cases h
    · rw [if_neg ha] at h
      rename_i p0 p1 p2 p3
      cases l0 : loadByte s.mem p0 <;> simp only [l0] at h
      · cases h
      cases l1 : loadByte s.mem p1 <;> simp only [l1] at h
      · cases h
      cases l2 : loadByte s.mem p2 <;> simp only [l2] at h
      · cases h
      cases l3 : loadByte s.mem p3 <;> simp only [l3] at h
      · cases h
      injection h with h
      exact ⟨Bool.eq_false_iff.2 ha, p0, p1, p2, p3, _, _, _, _, rfl, rfl, rfl, rfl, l0, l1, l2, l3, h.symm⟩

/-- The alignment test of R52, as arithmetic. -/
theorem misaligned_eq (a : Word64) : (a.extractLsb' 0 2 != 0) = decide (a.toNat % 4 ≠ 0) := by
  have key : a.extractLsb' 0 2 = 0 ↔ a.toNat % 4 = 0 := by
    rw [← BitVec.toNat_inj]
    simp [BitVec.extractLsb'_toNat]
  by_cases h : a.toNat % 4 = 0
  · simp [h, key.2 h]
  · have h2 : a.extractLsb' 0 2 ≠ 0 := fun e => h (key.1 e)
    rw [decide_eq_true h, bne_iff_ne.2 h2]

/-! ## What an address and a read depend on -/

/-- The segment base depends on FS.base and GS.base alone (R80). -/
theorem segBase_congr {s t : State} (hf : t.fsBase = s.fsBase) (hg : t.gsBase = s.gsBase) (pfx : List LegacyPrefix)
    (acc : Word64) : segBase t pfx acc = segBase s pfx acc := by
  induction pfx generalizing acc with
  | nil => rfl
  | cons p ps ih => cases p <;> simp only [segBase, hf, hg, ih]

/-- The linear address depends on the general registers, `pc` and the two segment bases alone (R79, R54). -/
theorem linearAddr_congr {s t : State} (hx : t.x = s.x) (hp : t.pc = s.pc) (hf : t.fsBase = s.fsBase)
    (hg : t.gsBase = s.gsBase) (m : MemRef) : linearAddr t m = linearAddr s m := by
  unfold linearAddr
  rw [segBase_congr hf hg]
  cases m.operand <;> simp only [effAddr, indexValue, gpr, hx, hp]

/-- A data translation depends on the configuration, and on the privilege level as far as `Translate` does (R180). -/
theorem translateData_congr {s t : State} (hc : t.cfg = s.cfg) {a : Word64}
    (hl : translate s.cfg.translate (.dataRead t.cpl) a = translate s.cfg.translate (.dataRead s.cpl) a) :
    translateData t a = translateData s a := by
  simp only [translateData, hc, hl]

/-- `MemRead` depends on the configuration, the translation at the privilege level, the alignment check and the memory
alone (R56, R180). -/
theorem memRead_congr {s t : State} (hc : t.cfg = s.cfg)
    (hl : ∀ b, translate s.cfg.translate (.dataRead t.cpl) b = translate s.cfg.translate (.dataRead s.cpl) b)
    (ha : alignCheckOn t = alignCheckOn s) (hm : t.mem = s.mem) (viaSs : Bool) (a : Word64) :
    memRead t viaSs a = memRead s viaSs a := by
  simp only [memRead, translateData_congr hc (hl _), hc, ha, hm]

/-! ## SRC3 (R110 step 4) -/

theorem readSrc3_vex_reg {o : VexOperands} {x : BitVec 1} {n : BitVec 4} (h : o.src3 = .reg x n) (f : Form)
    (s : State) : readSrc3 (vexOp f o) s = .ok (lowDword s (vreg4 n)) := by
  simp only [readSrc3, vexOp, h]

theorem readSrc3_vex_mem {o : VexOperands} {m : MemOperand} (h : o.src3 = .mem m) (f : Form) (s : State) :
    readSrc3 (vexOp f o) s =
      memRead s (usesSs ⟨o.pfx, 1, vexLen o, m⟩) (linearAddr s ⟨o.pfx, 1, vexLen o, m⟩) := by
  simp only [readSrc3, vexOp, h]

theorem readSrc3_evex_reg {o : EvexOperands} {n : BitVec 5} (h : o.src3 = .reg n) (f : Form) (s : State) :
    readSrc3 (evexOp f o) s = .ok (lowDword s (vreg5 n)) := by
  simp only [readSrc3, evexOp, h]

theorem readSrc3_evex_mem {o : EvexOperands} {m : MemOperand} (h : o.src3 = .mem m) (f : Form) (s : State) :
    readSrc3 (evexOp f o) s =
      memRead s (usesSs ⟨o.pfx, 4, evexLen o, m⟩) (linearAddr s ⟨o.pfx, 4, evexLen o, m⟩) := by
  simp only [readSrc3, evexOp, h]

/-- The advance of `pc` is exact: no wrap, and the address after is canonical (R28, D4). -/
theorem nextPc_some {s : State} {len : Nat} {next : Word64} (h : nextPc s len = some next) :
    s.pc.toNat + len < 2 ^ 64 ∧ canonical s.cfg next = true ∧ next = s.pc + BitVec.ofNat 64 len := by
  unfold nextPc at h
  split at h
  · next hc => injection h with h; exact ⟨hc.1, h ▸ hc.2, h.symm⟩
  · cases h

end Sys2Proof.Machine
end

