-- ==== Sys2Proof/Laws/Decode.lean ====
section
/-! SUPPORT. Lemmas about the decoder and the encoder: the prefix loop, the lengths, and that `decode` reads no byte
past the instruction. -/

namespace Sys2Proof

@[simp] theorem splitPfx_nil : splitPfx [] = ([], []) := rfl

theorem splitPfx_cons_none {c : Byte} (h : pfxOfByte c = none) (cs : List Byte) :
    splitPfx (c :: cs) = ([], c :: cs) := by
  simp [splitPfx, h]

theorem splitPfx_cons_some {c : Byte} {p : PfxByte} (h : pfxOfByte c = some p) (cs : List Byte) :
    splitPfx (c :: cs) = (p :: (splitPfx cs).1, (splitPfx cs).2) := by
  simp [splitPfx, h]

/-- An accepted prefix's byte is read as that prefix (R80). -/
@[simp] theorem pfxOfByte_legacyByte (p : LegacyPrefix) : pfxOfByte (legacyByte p) = some (.legacy p) := by
  cases p <;> decide

/-- A byte read as an accepted prefix is that prefix's byte. -/
theorem legacyByte_of_pfxOfByte {c : Byte} {p : LegacyPrefix} (h : pfxOfByte c = some (.legacy p)) :
    c = legacyByte p := by
  unfold pfxOfByte at h
  repeat' (split at h; (first | (injection h with h; injection h with h; subst h; assumption) | skip))
  all_goals simp_all

/-- The escape bytes end the prefix loop. -/
@[simp] theorem pfxOfByte_C4 : pfxOfByte 0xC4 = none := by decide
@[simp] theorem pfxOfByte_62 : pfxOfByte 0x62 = none := by decide
@[simp] theorem pfxOfByte_C5 : pfxOfByte 0xC5 = none := by decide

/-- The loop over accepted prefixes followed by an escape byte. -/
theorem splitPfx_legacy (ps : List LegacyPrefix) {c : Byte} (h : pfxOfByte c = none) (cs : List Byte) :
    splitPfx (ps.map legacyByte ++ c :: cs) = (ps.map .legacy, c :: cs) := by
  induction ps with
  | nil => exact splitPfx_cons_none h cs
  | cons p ps ih =>
    rw [List.map_cons, List.cons_append, splitPfx_cons_some (pfxOfByte_legacyByte p), ih]
    rfl

@[simp] theorem acceptedPfx_legacy (ps : List LegacyPrefix) : acceptedPfx (ps.map .legacy) = some ps := by
  induction ps with
  | nil => rfl
  | cons p ps ih => simp [acceptedPfx, ih]

theorem acceptedPfx_some {ps : List PfxByte} {ls : List LegacyPrefix} (h : acceptedPfx ps = some ls) :
    ps = ls.map .legacy := by
  induction ps generalizing ls with
  | nil => simp [acceptedPfx] at h; simp [← h]
  | cons p ps ih =>
    cases p with
    | legacy p =>
      simp only [acceptedPfx, Option.map_eq_some_iff] at h
      obtain ⟨ls', h', rfl⟩ := h
      simp [ih h']
    | forbidden c => simp [acceptedPfx] at h
    | rex c => simp [acceptedPfx] at h

@[simp] theorem rexEarly_legacy (ps : List LegacyPrefix) : rexEarly (ps.map .legacy) = false := by
  simp only [rexEarly, List.any_eq_false]
  intro p hp
  have := List.mem_of_mem_dropLast hp
  obtain ⟨q, _, rfl⟩ := List.mem_map.1 this
  simp [PfxByte.isRex]

@[simp] theorem formOfOpcode_opcodeOfForm (f : Form) : formOfOpcode (opcodeOfForm f) = some f := by
  cases f <;> decide

theorem opcodeOfForm_of_formOfOpcode {op : Byte} {f : Form} (h : formOfOpcode op = some f) :
    op = opcodeOfForm f := by
  unfold formOfOpcode at h
  split at h
  · injection h with h; subst h; assumption
  · split at h
    · injection h with h; subst h; assumption
    · split at h
      · injection h with h; subst h; assumption
      · cases h

/-! ## Lengths (R89) -/

@[simp] theorem encodeDisp32_length (d : Word32) : (encodeDisp32 d).length = 4 := rfl

@[simp] theorem encodeDisp_length (d : Disp) : (encodeDisp d).length = dispLen d := by
  cases d <;> rfl

@[simp] theorem encodeMem_length (m : MemOperand) : (encodeMem m).tail.length = memLen m := by
  cases m <;> simp [encodeMem, memLen] <;> omega

@[simp] theorem encodeVexSrc3_length (r : VexSrc3) : (encodeVexSrc3 r).tail.length = vexSrc3Len r := by
  cases r <;> simp [encodeVexSrc3, vexSrc3Len]

@[simp] theorem encodeEvexSrc3_length (r : EvexSrc3) : (encodeEvexSrc3 r).tail.length = evexSrc3Len r := by
  cases r <;> simp [encodeEvexSrc3, evexSrc3Len]

theorem encodeVex_length (f : Form) (o : VexOperands) : (encodeVex f o).length = vexLen o := by
  simp [encodeVex, vexLen]; omega

theorem encodeEvex_length (f : Form) (o : EvexOperands) : (encodeEvex f o).length = evexLen o := by
  simp [encodeEvex, evexLen]; omega

/-! ## Displacements (R77) -/

/-- Reading back a 32-bit displacement, whatever follows it. -/
@[simp] theorem decodeDisp32_encode (d : Word32) (rest : List Byte) :
    decodeDisp32 (encodeDisp32 d ++ rest) = some d := by
  simp only [encodeDisp32, List.cons_append, decodeDisp32, le32, Option.some.injEq]
  ext i hi
  simp only [← BitVec.getLsbD_eq_getElem, BitVec.getLsbD_append, BitVec.getLsbD_extractLsb']
  by_cases h0 : i < 8
  · simp [h0]
  · by_cases h1 : i - 8 < 8
    · have e : 8 + (i - 8) = i := by omega
      simp [h0, h1, e]
    · by_cases h2 : i - 8 - 8 < 8
      · have e : 16 + (i - 8 - 8) = i := by omega
        simp [h0, h1, h2, e]
      · have e : 24 + (i - 8 - 8 - 8) = i := by omega
        have h3 : i - 8 - 8 - 8 < 8 := by omega
        simp [h0, h1, h2, h3, e]

/-- Reading back the displacement of a base register. -/
@[simp] theorem decodeDisp_encode (d : Disp) (rest : List Byte) :
    decodeDisp (dispMod d) (encodeDisp d ++ rest) = some d := by
  cases d <;> simp [decodeDisp, dispMod, encodeDisp]

/-! ## No byte past the instruction is read -/

theorem decodeDisp32_append {bs : List Byte} {d : Word32} (h : decodeDisp32 bs = some d) (rest : List Byte) :
    decodeDisp32 (bs ++ rest) = some d := by
  unfold decodeDisp32 at h
  split at h
  · simpa [decodeDisp32] using h
  · cases h

theorem decodeDisp_append {mod : BitVec 2} {bs : List Byte} {d : Disp} (h : decodeDisp mod bs = some d)
    (rest : List Byte) : decodeDisp mod (bs ++ rest) = some d := by
  unfold decodeDisp at h ⊢
  split
  · simpa [*] using h
  · split
    · cases bs with
      | nil => simp_all
      | cons c cs => simpa [*] using h
    · simp only [*, if_false, Option.map_eq_some_iff] at h ⊢
      obtain ⟨d', hd, rfl⟩ := h
      exact ⟨d', decodeDisp32_append hd rest, rfl⟩

theorem decodeMem_append {x b : BitVec 1} {mod : BitVec 2} {rm : BitVec 3} {bs : List Byte} {m : MemOperand}
    (h : decodeMem x b mod rm bs = some m) (rest : List Byte) : decodeMem x b mod rm (bs ++ rest) = some m := by
  unfold decodeMem at h ⊢
  by_cases hr : rm = 4#3
  · rw [if_pos hr] at h ⊢
    cases bs with
    | nil => cases h
    | cons sib bs =>
      simp only [List.cons_append] at h ⊢
      split <;> rename_i hc <;> simp only [hc, and_self, if_true, if_false, Option.map_eq_some_iff] at h ⊢ <;>
        obtain ⟨d, hd, rfl⟩ := h
      · exact ⟨d, decodeDisp32_append hd rest, rfl⟩
      · exact ⟨d, decodeDisp_append hd rest, rfl⟩
  · rw [if_neg hr] at h ⊢
    split <;> rename_i hc <;> simp only [hc, and_self, if_true, if_false, Option.map_eq_some_iff] at h ⊢ <;>
      obtain ⟨d, hd, rfl⟩ := h
    · exact ⟨d, decodeDisp32_append hd rest, rfl⟩
    · exact ⟨d, decodeDisp_append hd rest, rfl⟩

theorem decodeVexSrc3_append {x b : BitVec 1} {modrm : Byte} {bs : List Byte} {r : VexSrc3}
    (h : decodeVexSrc3 x b modrm bs = some r) (rest : List Byte) :
    decodeVexSrc3 x b modrm (bs ++ rest) = some r := by
  unfold decodeVexSrc3 at h ⊢
  split <;> rename_i hc <;> simp only [hc, if_true, if_false, Option.map_eq_some_iff] at h ⊢
  · exact h
  · obtain ⟨m, hm, rfl⟩ := h
    exact ⟨m, decodeMem_append hm rest, rfl⟩

theorem decodeEvexSrc3_append {x b : BitVec 1} {modrm : Byte} {bs : List Byte} {r : EvexSrc3}
    (h : decodeEvexSrc3 x b modrm bs = some r) (rest : List Byte) :
    decodeEvexSrc3 x b modrm (bs ++ rest) = some r := by
  unfold decodeEvexSrc3 at h ⊢
  split <;> rename_i hc <;> simp only [hc, if_true, if_false, Option.map_eq_some_iff] at h ⊢
  · exact h
  · obtain ⟨m, hm, rfl⟩ := h
    exact ⟨m, decodeMem_append hm rest, rfl⟩

theorem decodeVex_append {ps : List PfxByte} {v1 v2 op : Byte} {bs : List Byte}
    (h : decodeVex ps v1 v2 op bs ≠ .needMore) (rest : List Byte) :
    decodeVex ps v1 v2 op (bs ++ rest) = decodeVex ps v1 v2 op bs := by
  unfold decodeVex at h ⊢
  split
  · rfl
  · rename_i f hf
    simp only [hf] at h
    split
    · rfl
    · rename_i hn
      rw [if_neg hn] at h
      split
      · rfl
      · rename_i hr
        rw [if_neg hr] at h
        cases bs with
        | nil => exact absurd rfl h
        | cons modrm bs =>
          simp only [List.cons_append] at h ⊢
          cases hs : decodeVexSrc3 (~~~v1.extractLsb' 6 1) (~~~v1.extractLsb' 5 1) modrm bs with
          | none => simp [hs] at h
          | some r => rw [decodeVexSrc3_append hs]

theorem decodeEvex_append {ps : List PfxByte} {p0 p1 p2 op : Byte} {bs : List Byte}
    (h : decodeEvex ps p0 p1 p2 op bs ≠ .needMore) (rest : List Byte) :
    decodeEvex ps p0 p1 p2 op (bs ++ rest) = decodeEvex ps p0 p1 p2 op bs := by
  unfold decodeEvex at h ⊢
  split
  · rfl
  · rename_i h0
    rw [if_neg h0] at h
    split
    · rfl
    · rename_i f hf
      simp only [hf] at h
      split
      · rfl
      · rename_i hn
        rw [if_neg hn] at h
        split
        · rfl
        · rename_i hr
          rw [if_neg hr] at h
          cases bs with
          | nil => exact absurd rfl h
          | cons modrm bs =>
            simp only [List.cons_append] at h ⊢
            cases hs : decodeEvexSrc3 (~~~p0.extractLsb' 6 1) (~~~p0.extractLsb' 5 1) modrm bs with
            | none => simp [hs] at h
            | some r => rw [decodeEvexSrc3_append hs]

theorem decodeEscape_append {ps : List PfxByte} {bs : List Byte} (h : decodeEscape ps bs ≠ .needMore)
    (rest : List Byte) : decodeEscape ps (bs ++ rest) = decodeEscape ps bs := by
  cases bs with
  | nil => exact absurd rfl h
  | cons c bs =>
    simp only [List.cons_append, decodeEscape] at h ⊢
    split
    · rename_i hc
      rw [if_pos hc] at h
      match bs, h with
      | v1 :: v2 :: op :: bs, h => exact decodeVex_append h rest
      | [_, _], h => exact absurd rfl h
      | [_], h => exact absurd rfl h
      | [], h => exact absurd rfl h
    · rename_i hc
      rw [if_neg hc] at h
      split
      · rename_i h6
        rw [if_pos h6] at h
        match bs, h with
        | p0 :: p1 :: p2 :: op :: bs, h => exact decodeEvex_append h rest
        | [_, _, _], h => exact absurd rfl h
        | [_, _], h => exact absurd rfl h
        | [_], h => exact absurd rfl h
        | [], h => exact absurd rfl h
      · rfl

/-- The prefix loop stops where it stopped, once it has met another byte. -/
theorem splitPfx_append {bs : List Byte} (h : (splitPfx bs).2 ≠ []) (rest : List Byte) :
    splitPfx (bs ++ rest) = ((splitPfx bs).1, (splitPfx bs).2 ++ rest) := by
  induction bs with
  | nil => exact absurd rfl h
  | cons c cs ih =>
    cases hp : pfxOfByte c with
    | none => rw [List.cons_append, splitPfx_cons_none hp, splitPfx_cons_none hp]; rfl
    | some p =>
      rw [splitPfx_cons_some hp] at h ⊢
      rw [List.cons_append, splitPfx_cons_some hp, ih h]

/-- What `decode` answers does not depend on the bytes after those it reads. -/
theorem decode_append {bs : List Byte} (h : decode bs ≠ .needMore) (rest : List Byte) :
    decode (bs ++ rest) = decode bs := by
  unfold decode at h ⊢
  have hne : (splitPfx bs).2 ≠ [] := by
    intro e
    rw [e] at h
    exact h rfl
  rw [splitPfx_append hne]
  exact decodeEscape_append h rest

/-! ## Eleven bytes after the prefixes are enough -/

theorem decodeDisp32_isSome {bs : List Byte} (h : 4 ≤ bs.length) : (decodeDisp32 bs).isSome = true := by
  match bs, h with
  | _ :: _ :: _ :: _ :: _, _ => rfl

theorem decodeDisp_isSome (mod : BitVec 2) {bs : List Byte} (h : 4 ≤ bs.length) :
    (decodeDisp mod bs).isSome = true := by
  unfold decodeDisp
  split
  · rfl
  · split
    · match bs, h with
      | _ :: _, _ => rfl
    · simpa using decodeDisp32_isSome h

theorem decodeMem_isSome (x b : BitVec 1) (mod : BitVec 2) (rm : BitVec 3) {bs : List Byte} (h : 5 ≤ bs.length) :
    (decodeMem x b mod rm bs).isSome = true := by
  match bs, h with
  | c :: bs, h =>
    have h4 : 4 ≤ bs.length := by simpa using h
    have h4' : 4 ≤ (c :: bs).length := by omega
    unfold decodeMem
    split
    · simp only
      split
      · simpa using decodeDisp32_isSome h4
      · simpa using decodeDisp_isSome mod h4
    · split
      · simpa using decodeDisp32_isSome h4'
      · simpa using decodeDisp_isSome mod h4'

theorem decodeVexSrc3_isSome (x b : BitVec 1) (modrm : Byte) {bs : List Byte} (h : 5 ≤ bs.length) :
    (decodeVexSrc3 x b modrm bs).isSome = true := by
  unfold decodeVexSrc3
  split
  · rfl
  · simpa using decodeMem_isSome x b _ _ h

theorem decodeEvexSrc3_isSome (x b : BitVec 1) (modrm : Byte) {bs : List Byte} (h : 5 ≤ bs.length) :
    (decodeEvexSrc3 x b modrm bs).isSome = true := by
  unfold decodeEvexSrc3
  split
  · rfl
  · simpa using decodeMem_isSome x b _ _ h

theorem finishDecode_ne_needMore (len : Nat) (i : Option Instr) : finishDecode len i ≠ .needMore := by
  unfold finishDecode
  split
  · simp
  · cases i <;> simp

theorem decodeVex_ne_needMore (ps : List PfxByte) (v1 v2 op : Byte) {bs : List Byte} (h : 6 ≤ bs.length) :
    decodeVex ps v1 v2 op bs ≠ .needMore := by
  match bs, h with
  | modrm :: bs, h =>
    have h5 : 5 ≤ bs.length := by simpa using h
    obtain ⟨r, hr⟩ := Option.isSome_iff_exists.1
      (decodeVexSrc3_isSome (~~~v1.extractLsb' 6 1) (~~~v1.extractLsb' 5 1) modrm h5)
    unfold decodeVex
    simp only [hr]
    repeat' split
    all_goals first | exact finishDecode_ne_needMore _ _ | simp

theorem decodeEvex_ne_needMore (ps : List PfxByte) (p0 p1 p2 op : Byte) {bs : List Byte} (h : 6 ≤ bs.length) :
    decodeEvex ps p0 p1 p2 op bs ≠ .needMore := by
  match bs, h with
  | modrm :: bs, h =>
    have h5 : 5 ≤ bs.length := by simpa using h
    obtain ⟨r, hr⟩ := Option.isSome_iff_exists.1
      (decodeEvexSrc3_isSome (~~~p0.extractLsb' 6 1) (~~~p0.extractLsb' 5 1) modrm h5)
    unfold decodeEvex
    simp only [hr]
    split
    · simp
    · split
      · simp
      · split
        · simp
        · split
          · simp
          · exact finishDecode_ne_needMore _ _

/-- Eleven bytes after the prefixes decide: the longest instruction has no more (R70). -/
theorem decodeEscape_ne_needMore (ps : List PfxByte) {bs : List Byte} (h : 11 ≤ bs.length) :
    decodeEscape ps bs ≠ .needMore := by
  match bs, h with
  | c :: b0 :: b1 :: b2 :: b3 :: bs, h =>
    have h6 : 6 ≤ bs.length := by simp only [List.length_cons] at h; omega
    have h6' : 6 ≤ (b3 :: bs).length := by simp only [List.length_cons]; omega
    simp only [decodeEscape]
    split
    · exact decodeVex_ne_needMore ps b0 b1 b2 h6'
    · split
      · exact decodeEvex_ne_needMore ps b0 b1 b2 b3 h6
      · simp

end Sys2Proof
end

