-- ==== Sys2Proof/Laws/Registers.lean ====
section
/-! SUPPORT. The destination write of R112 slice by slice, and MXCSR under the OR of R156. -/

namespace Sys2Proof.Machine

theorem mergeLow_getLsbD (old : VReg) (low : Word32) (i : Nat) :
    (mergeLow old low).getLsbD i = if i < 32 then low.getLsbD i else (decide (i < 128) && old.getLsbD i) := by
  simp only [mergeLow, BitVec.getLsbD_setWidth, BitVec.getLsbD_append, BitVec.getLsbD_extractLsb']
  by_cases h : i < 32
  · simp [h]; omega
  · by_cases h' : i < 128
    · have h1 : i < 512 := by omega
      have h2 : i - 32 < 96 := by omega
      have h3 : 32 + (i - 32) = i := by omega
      simp [h, h', h1, h2, h3]
    · have h2 : ¬ i - 32 < 96 := by omega
      simp [h, h', h2]

/-- Bits 31:0 receive the result (R112). -/
@[simp] theorem mergeLow_low (old : VReg) (low : Word32) : (mergeLow old low).extractLsb' 0 32 = low := by
  ext i hi
  simp [mergeLow_getLsbD, hi]

/-- Bits 127:32 are kept (R112). -/
@[simp] theorem mergeLow_middle (old : VReg) (low : Word32) :
    (mergeLow old low).extractLsb' 32 96 = old.extractLsb' 32 96 := by
  ext i hi
  have h : 32 + i < 128 := by omega
  simp [mergeLow_getLsbD, h]

/-- Bits from 128 up become zero (R112). -/
@[simp] theorem mergeLow_upper (old : VReg) (low : Word32) : (mergeLow old low).extractLsb' 128 384 = 0 := by
  ext i hi
  have h : ¬ 128 + i < 32 := by omega
  simp [mergeLow_getLsbD, h]

theorem mergeLow_lt (old : VReg) (low : Word32) : (mergeLow old low).toNat < 2 ^ 128 := by
  unfold mergeLow
  rw [BitVec.toNat_setWidth]
  exact Nat.lt_of_le_of_lt (Nat.mod_le _ _) (BitVec.isLt _)

@[simp] theorem writeLow_same (v : Vector VReg 32) (d : Fin 32) (low : Word32) :
    (writeLow v d low)[d] = mergeLow v[d] low := by
  simp [writeLow]

theorem writeLow_other (v : Vector VReg 32) {d j : Fin 32} (low : Word32) (h : j ≠ d) :
    (writeLow v d low)[j] = v[j] := by
  have h' : d.val ≠ j.val := fun e => h (Fin.ext e.symm)
  simp [writeLow, h']

/-- The destination after a completed instruction (R112). -/
theorem complete_v_dest (op : FmaOp) (next : Word64) (low mxcsr : Word32) (s : State) :
    (complete op next low mxcsr s).v[op.dest] = mergeLow s.v[op.dest] low := writeLow_same s.v op.dest low

/-- Any other vector register after a completed instruction (R124). -/
theorem complete_v_other (op : FmaOp) (next : Word64) (low mxcsr : Word32) (s : State) {j : Fin 32}
    (h : j ≠ op.dest) : (complete op next low mxcsr s).v[j] = s.v[j] := writeLow_other s.v low h

/-- A completed instruction leaves what R112 says. -/
theorem complete_leaves (op : FmaOp) (next : Word64) (low mxcsr : Word32) (s : State) :
    Leaves s (complete op next low mxcsr s) op.dest low mxcsr next where
  low := (congrArg _ (writeLow_same s.v op.dest low)).trans (mergeLow_low _ _)
  middle := (congrArg _ (writeLow_same s.v op.dest low)).trans (mergeLow_middle _ _)
  upper := (congrArg _ (writeLow_same s.v op.dest low)).trans (mergeLow_upper _ _)
  others _ h := writeLow_other s.v low h
  rest := rfl

/-- `Leaves` says everything: with it the state after is the completed one. -/
theorem Leaves.eq_complete {s t : State} {op : FmaOp} {low mxcsr : Word32} {next : Word64}
    (h : Leaves s t op.dest low mxcsr next) : t = complete op next low mxcsr s := by
  have hv : t.v = writeLow s.v op.dest low := by
    apply Vector.ext
    intro j hj
    by_cases e : (⟨j, hj⟩ : Fin 32) = op.dest
    · have h1 := h.low
      have h2 := h.middle
      have h3 := h.upper
      have : t.v[op.dest] = mergeLow s.v[op.dest] low := by
        ext i hi
        rw [← BitVec.getLsbD_eq_getElem hi, ← BitVec.getLsbD_eq_getElem hi, mergeLow_getLsbD]
        by_cases c1 : i < 32
        · have := congrArg (fun w => w.getLsbD i) h1
          simpa [c1] using this
        · by_cases c2 : i < 128
          · have := congrArg (fun w => w.getLsbD (i - 32)) h2
            have e1 : 32 + (i - 32) = i := by omega
            have e2 : i - 32 < 96 := by omega
            simpa [c1, c2, e1, e2] using this
          · have := congrArg (fun w => w.getLsbD (i - 128)) h3
            have e1 : 128 + (i - 128) = i := by omega
            have e2 : i - 128 < 384 := by omega
            simpa [c1, c2, e1, e2] using this
      have e' : op.dest.val = j := by rw [← e]
      subst e'
      exact this.trans (writeLow_same s.v op.dest low).symm
    · have h1 := h.others ⟨j, hj⟩ e
      exact h1.trans (writeLow_other s.v low e).symm
  rw [h.rest, hv]
  rfl

/-! ## MXCSR (R26, R156) -/

theorem mxcsrOr_getLsbD (m : Word32) (fl : BitVec 6) (i : Nat) :
    (mxcsrOr m fl).getLsbD i = (m.getLsbD i || (decide (i < 32) && fl.getLsbD i)) := by
  simp [mxcsrOr, BitVec.getLsbD_or, BitVec.getLsbD_setWidth]

/-- The flags are sticky and nothing above bit 5 is written (R26). -/
theorem mxcsrOr_upper (m : Word32) (fl : BitVec 6) : (mxcsrOr m fl).extractLsb' 6 26 = m.extractLsb' 6 26 := by
  ext i hi
  simp [mxcsrOr_getLsbD]

theorem mxcsrOr_low (m : Word32) (fl : BitVec 6) :
    (mxcsrOr m fl).extractLsb' 0 6 = m.extractLsb' 0 6 ||| fl := by
  ext i hi
  have h : i < 32 := by omega
  simp only [BitVec.getElem_extractLsb', BitVec.getElem_or, Nat.zero_add]
  rw [mxcsrOr_getLsbD, ← BitVec.getLsbD_eq_getElem hi]
  simp [h]

theorem mxcsrOr_none (m : Word32) : mxcsrOr m flagNone = m := by simp [mxcsrOr, flagNone]

/-- Bits 31:16 stay as they are. -/
theorem mxcsrOr_reserved (m : Word32) (fl : BitVec 6) :
    (mxcsrOr m fl).extractLsb' 16 16 = m.extractLsb' 16 16 := by
  ext i hi
  simp [mxcsrOr_getLsbD, BitVec.getLsbD_of_ge fl (16 + i) (by omega)]

/-- An MXCSR that is not written is kept (R26). -/
theorem MxcsrKept.refl (m : Word32) : MxcsrKept m m := ⟨rfl, rfl, fun _ h => h⟩

/-- Flags without ZE ORed in keep MXCSR as R26 says. -/
theorem MxcsrKept.or (m : Word32) {fl : BitVec 6} (h : fl.getLsbD 2 = false) : MxcsrKept m (mxcsrOr m fl) where
  upper := mxcsrOr_upper m fl
  ze := by rw [mxcsrOr_getLsbD, h]; simp
  sticky := by intro i hi; rw [mxcsrOr_getLsbD, hi]; simp

/-- The frame of a completed instruction (R124), for an MXCSR that is kept. -/
theorem complete_frame (op : FmaOp) (next : Word64) (low : Word32) {m : Word32} (s : State)
    (h : MxcsrKept s.mxcsr m) : Frame s (complete op next low m s) op.dest where
  others _ hj := complete_v_other op next low m s hj
  middle := (complete_leaves op next low m s).middle
  k := rfl
  x := rfl
  rflags := rfl
  mode := rfl
  cpl := rfl
  csBase := rfl
  fsBase := rfl
  gsBase := rfl
  cr0 := rfl
  cr4 := rfl
  xcr0 := rfl
  memory _ := rfl
  program _ := rfl
  cfg := rfl
  mxcsr := h

end Sys2Proof.Machine
end

