-- ==== Sys2Proof/Laws/State.lean ====
section
/-! SUPPORT. One lemma per field of the record updates that the meanings make, so that no later proof unfolds one. -/

namespace Sys2Proof.Machine

section complete
variable (op : FmaOp) (next : Word64) (low mxcsr : Word32) (s : State)

@[simp] theorem complete_v : (complete op next low mxcsr s).v = writeLow s.v op.dest low := rfl
@[simp] theorem complete_k : (complete op next low mxcsr s).k = s.k := rfl
@[simp] theorem complete_mxcsr : (complete op next low mxcsr s).mxcsr = mxcsr := rfl
@[simp] theorem complete_x : (complete op next low mxcsr s).x = s.x := rfl
@[simp] theorem complete_pc : (complete op next low mxcsr s).pc = next := rfl
@[simp] theorem complete_rflags : (complete op next low mxcsr s).rflags = s.rflags := rfl
@[simp] theorem complete_mode : (complete op next low mxcsr s).mode = s.mode := rfl
@[simp] theorem complete_cpl : (complete op next low mxcsr s).cpl = s.cpl := rfl
@[simp] theorem complete_csBase : (complete op next low mxcsr s).csBase = s.csBase := rfl
@[simp] theorem complete_fsBase : (complete op next low mxcsr s).fsBase = s.fsBase := rfl
@[simp] theorem complete_gsBase : (complete op next low mxcsr s).gsBase = s.gsBase := rfl
@[simp] theorem complete_cr0 : (complete op next low mxcsr s).cr0 = s.cr0 := rfl
@[simp] theorem complete_cr4 : (complete op next low mxcsr s).cr4 = s.cr4 := rfl
@[simp] theorem complete_xcr0 : (complete op next low mxcsr s).xcr0 = s.xcr0 := rfl
@[simp] theorem complete_mem : (complete op next low mxcsr s).mem = s.mem := rfl
@[simp] theorem complete_text : (complete op next low mxcsr s).text = s.text := rfl
@[simp] theorem complete_cfg : (complete op next low mxcsr s).cfg = s.cfg := rfl
@[simp] theorem complete_draws : (complete op next low mxcsr s).draws = s.draws + 1 := rfl

end complete

section launch
variable (s : State)

@[simp] theorem launch_v : (launch s).v = s.v := rfl
@[simp] theorem launch_k : (launch s).k = s.k := rfl
@[simp] theorem launch_mxcsr : (launch s).mxcsr = s.mxcsr := rfl
@[simp] theorem launch_x : (launch s).x = s.x := rfl
@[simp] theorem launch_pc : (launch s).pc = s.pc := rfl
@[simp] theorem launch_mode : (launch s).mode = .mode64 := rfl
@[simp] theorem launch_mem : (launch s).mem = s.mem := rfl
@[simp] theorem launch_text : (launch s).text = s.text := rfl
@[simp] theorem launch_cfg : (launch s).cfg = s.cfg := rfl

end launch

end Sys2Proof.Machine
end

