-- ==== Sys2Proof/Laws/Exec.lean ====
section
/-! SUPPORT. What the shared operations of R110 can answer, said once: the inversion lemmas of `executeOp`,
`executeChecked`, `exec` and `step`, which later proofs cite instead of unfolding them. -/

namespace Sys2Proof.Machine

/-- The decoded record of an instruction. -/
def opOf : Instr → FmaOp
  | .vfnmsub132ssVex o => vexOp .f132 o
  | .vfnmsub213ssVex o => vexOp .f213 o
  | .vfnmsub231ssVex o => vexOp .f231 o
  | .vfnmsub132ssEvex o => evexOp .f132 o
  | .vfnmsub213ssEvex o => evexOp .f213 o
  | .vfnmsub231ssEvex o => evexOp .f231 o

/-- The #UD conditions of an instruction that do not concern its bytes. -/
def udOf : Instr → State → Bool
  | .vfnmsub132ssVex _, s => vexUndefined s
  | .vfnmsub213ssVex _, s => vexUndefined s
  | .vfnmsub231ssVex _, s => vexUndefined s
  | .vfnmsub132ssEvex o, s => evexUndefined o s
  | .vfnmsub213ssEvex o, s => evexUndefined o s
  | .vfnmsub231ssEvex o, s => evexUndefined o s

/-- Every instruction is the shared operation on its record. -/
theorem exec_eq (i : Instr) (s : State) : exec i s = executeChecked (udOf i s) (opOf i) s := by
  cases i <;> rfl

theorem exec_vex (f : Form) (o : VexOperands) (s : State) :
    exec (vexInstr f o) s = executeChecked (vexUndefined s) (vexOp f o) s := by
  cases f <;> rfl

theorem exec_evex (f : Form) (o : EvexOperands) (s : State) :
    exec (evexInstr f o) s = executeChecked (evexUndefined o s) (evexOp f o) s := by
  cases f <;> rfl

/-- The record's length is the instruction's (R89). -/
theorem opOf_len (i : Instr) : (opOf i).len = instrLen i := by cases i <;> rfl

/-- In `Mode64` with every check passed, what runs is `executeOp`. -/
theorem executeChecked_ready {ud : Bool} {op : FmaOp} {s : State} {next : Word64} (hm : s.mode = .mode64)
    (hn : nextPc s op.len = some next) (hu : ud = false) (ht : tsSet s = false) :
    executeChecked ud op s = executeOp op next s := by
  simp [executeChecked, hm, hn, hu, ht]

/-- With SRC3 read, an active element is executed. -/
theorem executeOp_active {op : FmaOp} {next : Word64} {s : State} {w : Word32} (ha : active op s = true)
    (hr : readSrc3 op s = .ok w) : executeOp op next s = executeActive op next s w := by
  simp [executeOp, ha, hr]

/-- A masked-off element whose memory operand is not read completes (R113). -/
theorem executeOp_masked {op : FmaOp} {next : Word64} {s : State} (ha : active op s = false)
    (hr : maskedAccess s = false) : executeOp op next s = .next (complete op next (maskedLow op s) s.mxcsr s) := by
  simp [executeOp, ha, hr]

/-- No unmasked exception: the result is delivered. -/
theorem executeActive_delivers {op : FmaOp} {next : Word64} {s : State} {w : Word32}
    (h : raisesNumeric op s (compute op s w) = false) :
    executeActive op next s w =
      .next (complete op next (compute op s w).value (deliveredMxcsr op s (compute op s w).fl) s) := by
  simp [executeActive, h]

/-- An unmasked exception is raised (R157). -/
theorem executeActive_raises {op : FmaOp} {next : Word64} {s : State} {w : Word32}
    (h : raisesNumeric op s (compute op s w) = true) : executeActive op next s w = raiseNumeric op s w := by
  simp [executeActive, h]

theorem stopWith_ne_next (e : Stop) (s t : State) : stopWith e s ≠ .next t := by
  cases e <;> simp [stopWith, raise]

theorem raise_ne_next (e : Exception) (s t : State) : raise e s ≠ .next t := by simp [raise]

/-- How `executeOp` completes: an active element whose exceptions are all masked or suppressed, or a masked-off one. -/
theorem executeOp_next {op : FmaOp} {next : Word64} {s t : State} (h : executeOp op next s = .next t) :
    (∃ w, active op s = true ∧ readSrc3 op s = .ok w ∧ raisesNumeric op s (compute op s w) = false ∧
      t = complete op next (compute op s w).value (deliveredMxcsr op s (compute op s w).fl) s) ∨
    (active op s = false ∧ t = complete op next (maskedLow op s) s.mxcsr s) := by
  unfold executeOp at h
  split at h
  · next ha =>
    split at h
    · exact absurd h (stopWith_ne_next _ _ _)
    · next w hr =>
      by_cases hn : raisesNumeric op s (compute op s w) = true
      · rw [executeActive_raises hn] at h
        exact absurd h (raise_ne_next _ _ _)
      · have hn := Bool.eq_false_iff.2 hn
        rw [executeActive_delivers hn] at h
        injection h with h
        exact .inl ⟨w, ha, hr, hn, h.symm⟩
  · next ha =>
    split at h
    · exact absurd h (stopWith_ne_next _ _ _)
    · injection h with h
      exact .inr ⟨Bool.eq_false_iff.2 ha, h.symm⟩

/-- When `executeChecked` completes: in `Mode64`, `pc + len` in range, no #UD condition, CR0.TS = 0. -/
theorem executeChecked_next {ud : Bool} {op : FmaOp} {s t : State} (h : executeChecked ud op s = .next t) :
    s.mode = .mode64 ∧ ud = false ∧ tsSet s = false ∧
      ∃ next, nextPc s op.len = some next ∧ executeOp op next s = .next t := by
  unfold executeChecked at h
  split at h
  · cases h
  · exact absurd h (raise_ne_next _ _ _)
  · exact absurd h (raise_ne_next _ _ _)
  · next hm =>
    split at h
    · cases h
    · next next hn =>
      split at h
      · exact absurd h (raise_ne_next _ _ _)
      · next hu =>
        split at h
        · exact absurd h (raise_ne_next _ _ _)
        · next ht => exact ⟨hm, by simpa using hu, by simpa using ht, next, hn, h⟩

/-- How an instruction completes. -/
theorem exec_next {i : Instr} {s t : State} (h : exec i s = .next t) :
    s.mode = .mode64 ∧ udOf i s = false ∧ tsSet s = false ∧
      ∃ next, nextPc s (instrLen i) = some next ∧ executeOp (opOf i) next s = .next t := by
  rw [exec_eq] at h
  simpa only [opOf_len] using executeChecked_next h

/-- A completed instruction leaves some result and some MXCSR, as R112 and R110 say, and nothing else. -/
theorem exec_next_complete {i : Instr} {s t : State} (h : exec i s = .next t) :
    ∃ next low mxcsr, nextPc s (instrLen i) = some next ∧ t = complete (opOf i) next low mxcsr s ∧
      (mxcsr = s.mxcsr ∨ ∃ w, mxcsr = mxcsrOr s.mxcsr (compute (opOf i) s w).fl) := by
  obtain ⟨_, _, _, next, hn, h⟩ := exec_next h
  rcases executeOp_next h with ⟨w, _, _, _, rfl⟩ | ⟨_, rfl⟩
  · refine ⟨next, _, _, hn, rfl, ?_⟩
    unfold deliveredMxcsr
    split
    · exact .inr ⟨w, rfl⟩
    · split
      · exact .inl rfl
      · split
        · exact .inr ⟨w, rfl⟩
        · exact .inl rfl
  · exact ⟨next, _, _, hn, rfl, .inl rfl⟩

/-- A length over 15 never completes. -/
theorem overlong_ne_next (s t : State) (len : Nat) : overlong s len ≠ .next t := by
  unfold overlong
  split <;> simp [raise]

/-- Bytes of which 15 are not enough never complete. -/
theorem pastFifteen_ne_next (s t : State) : pastFifteen s ≠ .next t := by
  unfold pastFifteen
  split
  · simp
  · exact overlong_ne_next _ _ _
  · split
    · simp
    · unfold unreadable
      split <;> simp [raise]

/-- Bytes that end before the instruction does never complete. -/
theorem endedEarly_ne_next (s t : State) (stop : Option FetchStop) : endedEarly s stop ≠ .next t := by
  unfold endedEarly
  split
  · exact pastFifteen_ne_next _ _
  all_goals simp [raise]

/-- A known illegal near-miss never completes. -/
theorem illegalEncoding_ne_next (s t : State) (len : Nat) : illegalEncoding s len ≠ .next t := by
  unfold illegalEncoding
  split <;> simp [raise]

/-- A step completes only by running a decoded instruction. -/
theorem step_next {s t : State} (h : step s = .next t) :
    ∃ i, decode (fetchBytes s).1 = .ok i ∧ exec i s = .next t := by
  unfold step fetchInstr at h
  by_cases hm : s.mode = .mode32
  · simp [hm] at h
  · rw [if_neg hm] at h
    cases hd : decode (fetchBytes s).1 with
    | ok i => exact ⟨i, rfl, by simpa [hd] using h⟩
    | illegal len => exact absurd (by simpa [hd] using h) (illegalEncoding_ne_next s t len)
    | tooLong len => exact absurd (by simpa [hd] using h) (overlong_ne_next s t len)
    | refuse r => simp [hd] at h
    | needMore => exact absurd (by simpa [hd] using h) (endedEarly_ne_next s t (fetchBytes s).2)

end Sys2Proof.Machine
end

