-- ==== Sys2Proof/Laws/Fetch.lean ====
section
/-! SUPPORT. What the fetch finds where code stands, said once: `fetchFrom` and `fetchRun` split at the bytes known, and
`decode` of the window of 15 bytes. -/

namespace Sys2Proof.Machine

/-- Known bytes are the head of what is fetched; the fetch goes on after them. -/
theorem fetchFrom_code {s : State} {bs : List Byte} {n offset : Nat} (hn : bs.length ≤ n)
    (h : ∀ j : Fin bs.length, fetchByte s (offset + j.val) = .ok bs[j]) :
    fetchFrom s n offset =
      (bs ++ (fetchFrom s (n - bs.length) (offset + bs.length)).1,
        (fetchFrom s (n - bs.length) (offset + bs.length)).2) := by
  induction bs generalizing n offset with
  | nil => rfl
  | cons b bs ih =>
    cases n with
    | zero => simp at hn
    | succ n =>
      have h0 : fetchByte s offset = .ok b := h ⟨0, by simp⟩
      have hr := ih (n := n) (offset := offset + 1) (by simpa using hn) fun j => by
        have := h ⟨j.val + 1, by simp⟩
        simpa [Nat.add_assoc, Nat.add_comm 1] using this
      have e : offset + 1 + bs.length = offset + (bs.length + 1) := by omega
      simp only [fetchFrom, h0, hr, List.length_cons, Nat.add_sub_add_right, List.cons_append, e]

/-- Known prefix bytes are the head of a run. -/
theorem fetchRun_code {s : State} {bs : List Byte} {n offset : Nat} (hn : bs.length ≤ n)
    (hp : ∀ c ∈ bs, (pfxOfByte c).isSome = true)
    (h : ∀ j : Fin bs.length, fetchByte s (offset + j.val) = .ok bs[j]) :
    fetchRun s n offset =
      (bs ++ (fetchRun s (n - bs.length) (offset + bs.length)).1,
        (fetchRun s (n - bs.length) (offset + bs.length)).2) := by
  induction bs generalizing n offset with
  | nil => rfl
  | cons b bs ih =>
    cases n with
    | zero => simp at hn
    | succ n =>
      have h0 : fetchByte s offset = .ok b := h ⟨0, by simp⟩
      have hr := ih (n := n) (offset := offset + 1) (by simpa using hn)
        (fun c hc => hp c (List.mem_cons_of_mem _ hc)) fun j => by
          have := h ⟨j.val + 1, by simp⟩
          simpa [Nat.add_assoc, Nat.add_comm 1] using this
      have e : offset + 1 + bs.length = offset + (bs.length + 1) := by omega
      have hb : (pfxOfByte b).isSome = true := hp b List.mem_cons_self
      simp only [fetchRun, h0, hb, hr, List.length_cons, Nat.add_sub_add_right, List.cons_append, e, if_true]

/-- A run ends at the first byte that is no prefix; ten more bytes are fetched from there. -/
theorem fetchRun_escape {s : State} {b : Byte} {n offset : Nat} (h : fetchByte s offset = .ok b)
    (hb : pfxOfByte b = none) :
    fetchRun s (n + 1) offset =
      (b :: (fetchFrom s 10 (offset + 1)).1, (fetchFrom s 10 (offset + 1)).2) := by
  simp [fetchRun, h, hb]

/-- Code of at most 15 bytes at `pc` is the head of the window. -/
theorem fetchBytes_code {s : State} {bs : List Byte} (hn : bs.length ≤ 15) (h : CodeAtPc s bs) :
    ∃ rest, (fetchBytes s).1 = bs ++ rest := by
  unfold fetchBytes
  rw [fetchFrom_code hn (offset := 0) (by simpa [CodeAtPc] using h)]
  exact ⟨_, rfl⟩

/-- Code at `pc` that the decoder decides is decided so in the window. -/
theorem decode_fetchBytes {s : State} {bs : List Byte} (hn : bs.length ≤ 15) (h : CodeAtPc s bs)
    (hd : decode bs ≠ .needMore) : decode (fetchBytes s).1 = decode bs := by
  obtain ⟨rest, e⟩ := fetchBytes_code hn h
  rw [e, decode_append hd]

/-- A byte that is fetched lies below 2^64 (D4). -/
theorem fetchByte_lt {s : State} {offset : Nat} {b : Byte} (h : fetchByte s offset = .ok b) :
    (fetchBase s).toNat + offset < 2 ^ 64 := by
  unfold fetchByte at h
  simp only at h
  split at h
  · cases h
  · omega

/-- Code at `pc`, of any length, that the decoder decides is decided so in all the bytes that R96 reads: no more than
ten follow the first byte after the prefixes. -/
theorem decode_bytesAhead {s : State} {pre bs : List Byte} {c : Byte} (hp : ∀ b ∈ pre, (pfxOfByte b).isSome = true)
    (hc : pfxOfByte c = none) (h : CodeAtPc s (pre ++ c :: bs))
    (hd : decode (pre ++ c :: bs) ≠ .needMore) : decode (bytesAhead s).1 = decode (pre ++ c :: bs) := by
  have hcode : ∀ j : Fin (pre ++ c :: bs).length, fetchByte s j.val = .ok (pre ++ c :: bs)[j] := h
  have hesc : fetchByte s pre.length = .ok c := by
    have := hcode ⟨pre.length, by simp⟩
    simpa using this
  have hl : pre.length < 2 ^ 64 := by
    have := fetchByte_lt hesc
    omega
  have hrun := fetchRun_code (s := s) (n := 2 ^ 64) (offset := 0) hl.le hp fun j => by
    have := hcode ⟨j.val, by simp; omega⟩
    simpa using this
  obtain ⟨n, hn⟩ : ∃ n, 2 ^ 64 - pre.length = n + 1 := ⟨2 ^ 64 - pre.length - 1, by omega⟩
  have htail := fetchFrom_code (s := s) (bs := bs.take 10) (n := 10) (offset := pre.length + 1) (by simp)
    fun j => by
      have hj : j.val < bs.length := by have := j.isLt; simp at this; omega
      have := hcode ⟨pre.length + 1 + j.val, by simp; omega⟩
      simp only [Fin.getElem_fin] at this ⊢
      rw [this, List.getElem_append_right (by omega)]
      have e : pre.length + 1 + j.val - pre.length = j.val + 1 := by omega
      simp [e]
  have hahead : ∃ rest, (bytesAhead s).1 = (pre ++ c :: bs.take 10) ++ rest := by
    unfold bytesAhead
    rw [hrun, Nat.zero_add, hn, fetchRun_escape hesc hc, htail]
    exact ⟨(fetchFrom s (10 - (bs.take 10).length) (pre.length + 1 + (bs.take 10).length)).1, by simp⟩
  have hne : decode (pre ++ c :: bs.take 10) ≠ .needMore := by
    by_cases hb : bs.length ≤ 10
    · rwa [List.take_of_length_le hb]
    · have hsplit : splitPfx (pre ++ c :: bs.take 10) = ((splitPfx pre).1, c :: bs.take 10) := by
        clear hd hahead htail hn hesc hrun hcode h hl
        induction pre with
        | nil => exact splitPfx_cons_none hc _
        | cons b pre ih =>
          obtain ⟨p, hb'⟩ := Option.isSome_iff_exists.1 (hp b List.mem_cons_self)
          rw [List.cons_append, splitPfx_cons_some hb', splitPfx_cons_some hb',
            ih fun x hx => hp x (List.mem_cons_of_mem _ hx)]
      unfold decode
      rw [hsplit]
      exact decodeEscape_ne_needMore _ (by simp; omega)
  obtain ⟨rest, e⟩ := hahead
  rw [e, decode_append hne]
  have hfull : pre ++ c :: bs = (pre ++ c :: bs.take 10) ++ bs.drop 10 := by simp
  rw [hfull, decode_append hne]

end Sys2Proof.Machine
end

