-- ==== Sys2Proof/Laws/Memory.lean ====
section
/-! SUPPORT. The memory map: reading after writing, and that every memory operation keeps the canonical form. -/

namespace Sys2Proof.Machine

@[simp] theorem memGet_nil (a : Nat) : memGet [] a = none := rfl

theorem memGet_cons (c : Host.Cell) (m : Memory) (a : Nat) :
    memGet (c :: m) a = if c.1 = a then some c.2 else memGet m a := rfl

/-- Reading the address written gives the byte written. -/
theorem memGet_memSet_same (m : Memory) (a : Nat) (b : Byte) : memGet (memSet m a b) a = some b := by
  induction m with
  | nil => simp [memSet, memGet_cons]
  | cons c m ih =>
    unfold memSet
    split
    · simp [memGet_cons]
    · split
      · simp [memGet_cons]
      · next h => rw [memGet_cons, if_neg (fun e => h e.symm), ih]

/-- Writing an address leaves every other address alone. -/
theorem memGet_memSet_other (m : Memory) {a a' : Nat} (b : Byte) (h : a' ≠ a) :
    memGet (memSet m a b) a' = memGet m a' := by
  induction m with
  | nil => simp [memSet, memGet_cons, h.symm]
  | cons c m ih =>
    unfold memSet
    split
    · rw [memGet_cons, if_neg (fun e => h e.symm)]
    · split
      · next _ e => rw [memGet_cons, memGet_cons, if_neg (fun e => h e.symm), if_neg (fun e' => h (e ▸ e'.symm))]
      · rw [memGet_cons, memGet_cons, ih]

/-- The addresses of a map after a write. -/
theorem mem_memSet {m : Memory} {a : Nat} {b : Byte} {c : Host.Cell} (h : c ∈ memSet m a b) :
    c = (a, b) ∨ c ∈ m := by
  induction m with
  | nil => simpa [memSet] using h
  | cons d m ih =>
    unfold memSet at h
    split at h
    · simpa using h
    · split at h
      · rcases List.mem_cons.1 h with h | h
        · exact .inl h
        · exact .inr (List.mem_cons_of_mem _ h)
      · rcases List.mem_cons.1 h with h | h
        · exact .inr (h ▸ List.mem_cons_self)
        · exact (ih h).imp id (List.mem_cons_of_mem _)

/-- A write at a physical address keeps the canonical form. -/
theorem memSet_wf {m : Memory} {a : Nat} {b : Byte} (hm : Memory.wf m) (ha : a < 2 ^ 64) :
    Memory.wf (memSet m a b) := by
  refine ⟨?_, fun c hc => ?_⟩
  · have hp := hm.1
    clear hm
    induction m with
    | nil => simp [memSet]
    | cons d m ih =>
      obtain ⟨hd, hm⟩ := List.pairwise_cons.1 hp
      unfold memSet
      split
      · next h =>
        refine List.pairwise_cons.2 ⟨fun c hc => ?_, hp⟩
        rcases List.mem_cons.1 hc with rfl | hc
        · exact h
        · exact Nat.lt_trans h (hd c hc)
      · split
        · next h => exact List.pairwise_cons.2 ⟨fun c hc => h ▸ hd c hc, hm⟩
        · next h1 h2 =>
          refine List.pairwise_cons.2 ⟨fun c hc => ?_, ih hm⟩
          rcases mem_memSet hc with rfl | hc
          · exact Nat.lt_of_le_of_ne (Nat.le_of_not_lt h1) (fun e => h2 e.symm)
          · exact hd c hc
  · rcases mem_memSet hc with rfl | hc
    · exact ha
    · exact hm.2 c hc

/-- A cell of a canonical map is what reading its address gives. -/
theorem memGet_of_mem {m : Memory} (hm : m.Pairwise (fun c c' => c.1 < c'.1)) {c : Host.Cell} (hc : c ∈ m) :
    memGet m c.1 = some c.2 := by
  induction m with
  | nil => cases hc
  | cons d m ih =>
    obtain ⟨hd, hm⟩ := List.pairwise_cons.1 hm
    rcases List.mem_cons.1 hc with rfl | hc
    · simp [memGet_cons]
    · rw [memGet_cons, if_neg (Nat.ne_of_lt (hd c hc)), ih hm hc]

/-- The empty map is canonical. -/
theorem nil_wf : Memory.wf [] := by simp [Memory.wf]

/-- The memories at reset have the canonical form. -/
theorem reset_memories_wf : Memory.wf State.reset.mem ∧ Memory.wf State.reset.text := ⟨nil_wf, nil_wf⟩

/-- Placing a code byte keeps both maps canonical. -/
theorem placeCodeByte_wf {s : State} (a : Word64) (b : Byte) (hm : Memory.wf s.mem) (ht : Memory.wf s.text) :
    Memory.wf (placeCodeByte s a b).mem ∧ Memory.wf (placeCodeByte s a b).text := by
  unfold placeCodeByte
  split
  · next p _ => exact ⟨memSet_wf hm p.isLt, memSet_wf ht p.isLt⟩
  · exact ⟨hm, ht⟩

/-- Placing code keeps both maps canonical. -/
theorem placeCode_wf {s : State} (a : Word64) (bs : List Byte) (hm : Memory.wf s.mem) (ht : Memory.wf s.text) :
    Memory.wf (placeCode s a bs).mem ∧ Memory.wf (placeCode s a bs).text := by
  induction bs generalizing s a with
  | nil => exact ⟨hm, ht⟩
  | cons b bs ih =>
    have h := placeCodeByte_wf a b hm ht
    exact ih (a + 1) h.1 h.2

end Sys2Proof.Machine
end

