-- ==== Sys2Proof/Laws/Numerics.lean ====
section
/-! SUPPORT. What `FNMSUB32` and its rounding can answer, said once: the branches of R143 and of R153 to R155, which
later proofs cite instead of unfolding the functions. -/

namespace Sys2Proof.Machine

/-! ## DAZ (R144) -/

@[simp] theorem dazOf_false (u : Word32) : dazOf false u = u := rfl

theorem dazOf_of_not_denormal {u : Word32} (daz : Bool) (h : isDenormal u = false) : dazOf daz u = u := by
  simp [dazOf, h]

theorem fnmsub32_eq_core (pick : Nat) (ie : Bool) (x y z : Word32) (rm : RoundMode) (ftz : Bool) :
    fnmsub32 pick ie x y z rm false ftz = fnmsubCore pick ie x y z rm ftz := rfl

/-! ## The branches of R143 -/

/-- The branches of R143 in their order, each with the tests that select it. -/
theorem fnmsubCore_cases (pick : Nat) (ie : Bool) (x y z : Word32) (rm : RoundMode) (ftz : Bool) :
    ((isNaN x || isNaN y || isNaN z) = true ∧ fnmsubCore pick ie x y z rm ftz = nanResult pick ie x y z) ∨
    ((isNaN x || isNaN y || isNaN z) = false ∧
      (((isZero x && isInf y) || (isInf x && isZero y)) = true ∧
          fnmsubCore pick ie x y z rm ftz = ⟨indefinite, flagIE, false⟩ ∨
        ((isZero x && isInf y) || (isInf x && isZero y)) = false ∧
          (((isInf x || isInf y) && isInf z && (signProd x y != signSub z)) = true ∧
              fnmsubCore pick ie x y z rm ftz = ⟨indefinite, flagIE, false⟩ ∨
            ((isInf x || isInf y) && isInf z && (signProd x y != signSub z)) = false ∧
              ((isInf x || isInf y) = true ∧
                  fnmsubCore pick ie x y z rm ftz = ⟨infOf (signProd x y), denormalFlag x y z, false⟩ ∨
                (isInf x || isInf y) = false ∧
                  (isInf z = true ∧
                      fnmsubCore pick ie x y z rm ftz = ⟨infOf (signSub z), denormalFlag x y z, false⟩ ∨
                    isInf z = false ∧
                      fnmsubCore pick ie x y z rm ftz = finiteResult rm ftz (denormalFlag x y z) x y z))))) := by
  unfold fnmsubCore
  cases isNaN x || isNaN y || isNaN z <;> cases (isZero x && isInf y) || (isInf x && isZero y) <;>
    cases (isInf x || isInf y) && isInf z && (signProd x y != signSub z) <;> cases isInf x || isInf y <;>
    cases isInf z <;> simp

/-- A finite word is neither an infinity nor a NaN (R140). -/
theorem isFinite_cases {u : Word32} (h : isFinite u = true) : isInf u = false ∧ isNaN u = false := by
  have h : expOf u ≠ 255 := by simpa [isFinite] using h
  simp [isInf, isNaN, h]

/-- With finite operands only the finite case is left (R143 steps 7 to 9). -/
theorem fnmsubCore_finite {x y z : Word32} (h : FiniteOperands x y z) (pick : Nat) (ie : Bool) (rm : RoundMode)
    (ftz : Bool) : fnmsubCore pick ie x y z rm ftz = finiteResult rm ftz (denormalFlag x y z) x y z := by
  obtain ⟨hx, hy, hz⟩ := h
  simp [fnmsubCore, isFinite_cases hx, isFinite_cases hy, isFinite_cases hz]

/-- A nonzero exact `v` is rounded (R143 steps 8, 9). -/
theorem finiteResult_round {x y z : Word32} (h : exactValue x y z ≠ 0) (rm : RoundMode) (ftz : Bool) (fl : BitVec 6) :
    finiteResult rm ftz fl x y z =
      ⟨(roundResult rm ftz (exactValue x y z)).value, fl ||| (roundResult rm ftz (exactValue x y z)).fl,
        (roundResult rm ftz (exactValue x y z)).tiny⟩ := by
  simp [finiteResult, h]

/-- An exact zero (R150). -/
theorem finiteResult_zero {x y z : Word32} (h : exactValue x y z = 0) (rm : RoundMode) (ftz : Bool) (fl : BitVec 6) :
    finiteResult rm ftz fl x y z = ⟨exactZero rm x y z, fl, false⟩ := by
  simp [finiteResult, h]

/-! ## The branches of R153 to R155 -/

/-- Overflow, a tiny result, or a normal one, by the position of the leading bit after rounding. -/
theorem roundResult_cases (rm : RoundMode) (ftz : Bool) (v : Int) :
    let neg : Bool := decide (v < 0)
    let s := roundSig rm neg v.natAbs
    (425 < s.2 ∧ roundResult rm ftz v = ⟨overflowValue rm neg, flagOE ||| flagPE, false⟩) ∨
    (s.2 < 172 ∧ roundResult rm ftz v = roundTiny rm ftz neg v.natAbs) ∨
    (172 ≤ s.2 ∧ s.2 ≤ 425 ∧
      roundResult rm ftz v = ⟨packWord neg ((s.2 + 127 - 298) * 2 ^ 23 + s.1 % 2 ^ 23),
        inexactFlag (decide (v.natAbs * 2 ^ 23 % 2 ^ v.natAbs.log2 ≠ 0)), false⟩) := by
  intro neg s
  by_cases h1 : 425 < s.2
  · exact .inl ⟨h1, by simp only [roundResult]; rw [if_pos h1]⟩
  · by_cases h2 : s.2 < 172
    · refine .inr (.inl ⟨h2, ?_⟩)
      simp only [roundResult]
      rw [if_neg h1, if_pos h2]
    · refine .inr (.inr ⟨by omega, by omega, ?_⟩)
      simp only [roundResult]
      rw [if_neg h1, if_neg h2]

/-- `tiny` does not depend on FTZ (R154). -/
theorem roundResult_tiny (rm : RoundMode) (ftz : Bool) (v : Int) :
    (roundResult rm ftz v).tiny = decide ((roundSig rm (decide (v < 0)) v.natAbs).2 < 172) := by
  rcases roundResult_cases rm ftz v with ⟨h, e⟩ | ⟨h, e⟩ | ⟨h, _, e⟩
  · rw [e]; simp; omega
  · rw [e]; cases ftz <;> simp [roundTiny, h]
  · rw [e]; simp; omega

/-- `RoundInt` is the floor or the next integer up (R152). -/
theorem roundInt_bounds (rm : RoundMode) (neg : Bool) (num den : Nat) :
    num / den ≤ roundInt rm neg num den ∧ roundInt rm neg num den ≤ num / den + 1 := by
  cases rm <;> simp only [roundInt]
  · split
    · omega
    · split <;> omega
  · split <;> omega
  · split <;> omega
  · omega

/-- An exact quotient is not rounded (R152). -/
theorem roundInt_exact (rm : RoundMode) (neg : Bool) {num den : Nat} (hd : 0 < den) (h : num % den = 0) :
    roundInt rm neg num den = num / den := by
  cases rm <;> simp [roundInt, h, hd]

end Sys2Proof.Machine
end

