-- ==== Sys2Proof/Laws/PerInstr.lean ====
section
/-! SUPPORT. Families of lemmas, one lemma per constructor of `Instr`: the encoder writes as many bytes as the length
formula of R89 says. -/

namespace Sys2Proof.Laws.EncodedLength

/-- The encoded bytes are as many as R89's formula says. -/
def Statement (i : Instr) : Prop := (encode i).length = instrLen i

theorem vfnmsub132ssVex (o : VexOperands) : Statement (.vfnmsub132ssVex o) := encodeVex_length _ o

theorem vfnmsub213ssVex (o : VexOperands) : Statement (.vfnmsub213ssVex o) := encodeVex_length _ o

theorem vfnmsub231ssVex (o : VexOperands) : Statement (.vfnmsub231ssVex o) := encodeVex_length _ o

theorem vfnmsub132ssEvex (o : EvexOperands) : Statement (.vfnmsub132ssEvex o) := encodeEvex_length _ o

theorem vfnmsub213ssEvex (o : EvexOperands) : Statement (.vfnmsub213ssEvex o) := encodeEvex_length _ o

theorem vfnmsub231ssEvex (o : EvexOperands) : Statement (.vfnmsub231ssEvex o) := encodeEvex_length _ o

end Sys2Proof.Laws.EncodedLength
end

