-- ==== Sys2Proof/Tests/Slice0.lean ====
section
/-! SUPPORT. The model's own tests: the well-formedness smoke tests, decoding and single steps on the vectors of
95_test_vectors.md, and, for every statement with hypotheses, a state and operands that meet them (`witness_…`). -/

namespace Sys2Proof.Tests

-- One theorem after another: elaborated at once, the kernel evaluations hold a thread each, and memory with it.
set_option Elab.async false

open Sys2Proof Sys2Proof.Machine

/-! ## Small states -/

/-- A register from its doublewords, the lowest first. -/
def words : List Word32 → Nat
  | [] => 0
  | w :: ws => w.toNat + 2 ^ 32 * words ws

/-- A register from its doublewords. -/
def vreg (ws : List Word32) : VReg := BitVec.ofNat 512 (words ws)

/-- The launched machine at 1000H (D12). -/
def idle : State := { launch State.reset with pc := 0x1000 }

/-- The old upper words of V[0] in 95_test_vectors.md section 3.2 (I6). -/
def wide (w : Word32) : VReg := vreg [w, 0xAAAAAAA1, 0xAAAAAAA2, 0xAAAAAAA3, 0xBBBBBBBB]

/-- What R112 leaves of them. -/
def kept (w : Word32) : VReg := vreg [w, 0xAAAAAAA1, 0xAAAAAAA2, 0xAAAAAAA3]

/-- V[0], V[1], V[2] with the given low doublewords, and an MXCSR. -/
def regs (w0 w1 w2 m : Word32) : State :=
  { idle with v := ((idle.v.set 0 (wide w0)).set 1 (vreg [w1, 0xCCCCCCCC])).set 2 (vreg [w2, 0xDDDDDDDD]), mxcsr := m }

/-- A state with one general register set. -/
def withX (s : State) (i : Fin 16) (w : Word64) : State := { s with x := s.x.set i w }

/-- A state with one opmask register set. -/
def withK (s : State) (i : Fin 8) (w : Word64) : State := { s with k := s.k.set i w }

/-- A state with bytes at rising data addresses. -/
def withMem (s : State) (a : Nat) : List Byte → State
  | [] => s
  | b :: bs => withMem { s with mem := memSet s.mem a b } (a + 1) bs

/-- One step with the given bytes at `pc`. -/
def runBytes (s : State) (bs : List Byte) : Result := step (placeCode s s.pc bs)

/-- The step completed with this V[i], MXCSR and `pc`. -/
def completesWith (r : Result) (i : Fin 32) (v : VReg) (m : Word32) (pc : Word64) : Bool :=
  match r with
  | .next t => t.v[i] == v && t.mxcsr == m && t.pc == pc
  | .fault _ => false
  | .refused _ => false

/-- The step raised this exception and left V, K, `pc` and memory as they were. -/
def raises (r : Result) (e : Exception) (s : State) : Bool :=
  match r with
  | .fault (.exception e' t) => e == e' && t.v == s.v && t.k == s.k && t.pc == s.pc && t.mem == s.mem
  | .fault (.absentByte _ _) => false
  | .next _ => false
  | .refused _ => false

/-- The run is stuck at this absent byte. -/
def stuckAt (r : Result) (p : Word64) : Bool :=
  match r with
  | .fault (.absentByte q _) => p == q
  | .fault (.exception _ _) => false
  | .next _ => false
  | .refused _ => false

/-- A completed outcome has a next state. -/
theorem exists_next {r : Result} (h : isNext r = true) : ∃ t, r = .next t := by
  cases r with
  | next t => exact ⟨t, rfl⟩
  | fault f => cases h
  | refused r => cases h

/-! ## Well-formedness: an ill-formed term for each check, refused -/

/-- `rm = 100b` calls for a SIB byte (R76). -/
theorem test_wf_refuses_base_rm4 : Instr.wf (.vfnmsub132ssVex ⟨[], 0, 0, 1, .mem (.base 0 12 (.d8 0))⟩) = false := by
  decide

/-- `mod = 00b, rm = 101b` is RIP-relative (R77). -/
theorem test_wf_refuses_base_rm5_without_displacement :
    Instr.wf (.vfnmsub213ssVex ⟨[], 0, 0, 1, .mem (.base 0 13 .none)⟩) = false := by decide

/-- SIB `base = 101b` with `mod = 00b` has no base register (R77). -/
theorem test_wf_refuses_sib_base5_without_displacement :
    Instr.wf (.vfnmsub231ssEvex ⟨[], 0, 1, 0, 0, 0, 0, .mem (.sib 0 1 5 .none)⟩) = false := by decide

/-- Zeroing without a mask register (R85, X2). -/
theorem test_wf_refuses_zeroing_without_mask :
    Instr.wf (.vfnmsub213ssEvex ⟨[], 0, 1, 1, 0, 0, 0, .reg 2⟩) = false := by decide

/-- 16 bytes, VEX (X20). -/
theorem test_wf_refuses_long_vex :
    Instr.wf (.vfnmsub213ssVex ⟨List.replicate 6 .es, 0, 1, 2, .mem (.sib 2 1 3 (.d32 0x100))⟩) = false := by decide

/-- 16 bytes, EVEX. -/
theorem test_wf_refuses_long_evex :
    Instr.wf (.vfnmsub132ssEvex ⟨List.replicate 6 .es, 0, 1, 0, 0, 0, 0, .mem (.ripRel 0 0 0x20)⟩) = false := by decide

/-! ## Decoding words written out from 95_test_vectors.md section 4.1 and the near misses of section 4.2 -/

/-- V7. -/
theorem test_decode_vex_132 :
    decode [0xC4, 0x42, 0x29, 0x9F, 0xCB] = .ok (.vfnmsub132ssVex ⟨[], 0, 9, 10, .reg 0 11⟩) := by decide

/-- V19, 15 bytes. -/
theorem test_decode_vex_213 :
    decode [0x26, 0x26, 0x26, 0x26, 0x26, 0xC4, 0xE2, 0x69, 0xAF, 0x8C, 0x8B, 0, 1, 0, 0] =
      .ok (.vfnmsub213ssVex ⟨[.es, .es, .es, .es, .es], 0, 1, 2, .mem (.sib 2 1 3 (.d32 0x100))⟩) := by decide

/-- V11, RIP-relative. -/
theorem test_decode_vex_231 :
    decode [0xC4, 0xE2, 0x59, 0xBF, 0x1D, 0x10, 0, 0, 0] =
      .ok (.vfnmsub231ssVex ⟨[], 0, 3, 4, .mem (.ripRel 0 0 0x10)⟩) := by decide

/-- V35. -/
theorem test_decode_evex_132 :
    decode [0x62, 0xF2, 0x5D, 0x8A, 0x9F, 0x5C, 0xD8, 0x80] =
      .ok (.vfnmsub132ssEvex ⟨[], 3, 4, 1, 0, 0, 2, .mem (.sib 3 3 0 (.d8 0x80))⟩) := by decide

/-- V26, embedded rounding down. -/
theorem test_decode_evex_213 :
    decode [0x62, 0xF2, 0x75, 0x39, 0xAF, 0xC2] = .ok (.vfnmsub213ssEvex ⟨[], 0, 1, 0, 1, 1, 1, .reg 2⟩) := by decide

/-- V29, V[16] to V[18]. -/
theorem test_decode_evex_231 :
    decode [0x62, 0xA2, 0x75, 0x00, 0xBF, 0xC2] = .ok (.vfnmsub231ssEvex ⟨[], 16, 17, 0, 0, 0, 0, .reg 18⟩) := by decide

/-- X2, X4, X7, X10, X11: known illegal near-misses. -/
theorem test_decode_illegal :
    decode [0x62, 0xF2, 0x75, 0x88, 0xAF, 0xC2] = .illegal 6 ∧ decode [0x62, 0xF2, 0x71, 0x08, 0xAF, 0xC2] = .illegal 6 ∧
    decode [0x66, 0xC4, 0xE2, 0x71, 0xAF, 0xC2] = .illegal 6 ∧ decode [0x48, 0xC4, 0xE2, 0x71, 0xAF, 0xC2] = .illegal 6 ∧
    decode [0x64, 0x48, 0xC4, 0xE2, 0x71, 0xAF, 0xC2] = .illegal 7 := by decide

/-- X5, X12, X14, X15, X17, X19: not one of the six encodings. -/
theorem test_decode_refused :
    decode [0x62, 0xFA, 0x75, 0x08, 0xAF, 0xC2] = .refuse .evexReserved ∧
    decode [0x48, 0x64, 0xC4, 0xE2, 0x71, 0xAF, 0xC2] = .refuse .rexEarly ∧
    decode [0xC4, 0xE2, 0xF1, 0xAF, 0xC2] = .refuse .vexNeighbour ∧
    decode [0x62, 0xF2, 0xF5, 0x08, 0xAF, 0xC2] = .refuse .evexNeighbour ∧
    decode [0xC4, 0xE1, 0x71, 0xAF, 0xC2] = .refuse .vexNeighbour ∧
    decode [0xC5, 0xF1, 0xAF, 0xC2] = .refuse .otherOpcode := by decide

/-- X21: 16 bytes, the length before the prefix 66. -/
theorem test_decode_too_long :
    decode [0x66, 0x26, 0x26, 0x26, 0x26, 0x26, 0xC4, 0xE2, 0x69, 0xAF, 0x8C, 0x8B, 0, 1, 0, 0] = .tooLong 16 := by decide

/-- The step refused the bytes for this reason. -/
def refusesBytes (r : Result) (why : DecodeRefusal) : Bool :=
  match r with
  | .refused (.notInScope w) => w == why
  | .refused _ => false
  | .next _ => false
  | .fault _ => false

/-- R96, C14: over 15 bytes, an early REX and a neighbour (map 0F) are refused before the length counts. -/
theorem test_step_refuses_before_length :
    refusesBytes (runBytes idle (0x48 :: List.replicate 13 0x26 ++ [0xC4, 0xE2, 0x71, 0xAF, 0xC2])) .rexEarly = true ∧
    refusesBytes (runBytes idle (List.replicate 13 0x26 ++ [0xC4, 0xE1, 0x71, 0xAF, 0xC2])) .vexNeighbour = true := by
  decide +kernel

/-- R70: the same bytes without the early REX are an instruction of 18 bytes, #GP(0). -/
theorem test_step_length_fault :
    let s := placeCode idle 0x1000 (List.replicate 13 0x26 ++ [0xC4, 0xE2, 0x71, 0xAF, 0xC2])
    raises (step s) (.gp 0) s = true := by decide +kernel

/-- `set_as_described` with UM = 1 and PM = 0: an exact tiny result under FTZ raises #XM with UE and PE set (R154,
R157); the operands of I23. -/
theorem test_described_flags_under_ftz :
    let s := { regs 0x3F000000 0x00800000 0 0x8F80 with cfg := { Config.recommended with pXmFlags := .setAsDescribed } }
    (match exec (.vfnmsub213ssVex ⟨[], 0, 0, 1, .reg 0 2⟩) s with
      | .fault (.exception .xm t) => t.mxcsr == 0x8FB0
      | _ => false) = true := by decide +kernel

/-- The table's row 1, its free bits zero, and what follows it zero: `[r8]`. -/
theorem test_table_word :
    decodeTableWord 32 0xC402019F = some (.vfnmsub132ssVex ⟨[], 0, 8, 15, .mem (.base 1 8 .none)⟩) := by decide

/-- That word is what the first step after reset runs: its operand at address 0 holds no byte. -/
theorem test_table_word_runs : stuckAt (step (State.reset.withFetchWord 32 0xC402019F)) 0 = true := by decide +kernel

/-! ## Single steps, from 95_test_vectors.md sections 3.1 to 3.6, at most two an instruction -/

/-- I1, I6: -(2*4)-3 = -11, the upper bits by R112. -/
theorem test_step_vex_132 : completesWith (runBytes (regs 0x40000000 0x40400000 0x40800000 0x1F80)
    [0xC4, 0xE2, 0x71, 0x9F, 0xC2]) 0 (kept 0xC1300000) 0x1F80 0x1005 = true := by decide +kernel

/-- I34: a memory operand. -/
theorem test_step_vex_132_memory : completesWith
    (runBytes (withMem (withX (regs 0x40000000 0x40800000 0 0x1F80) 0 0x2000) 0x2000 [0, 0, 0x40, 0x40])
      [0xC4, 0xE2, 0x71, 0x9F, 0x00]) 0 (kept 0xC1200000) 0x1F80 0x1005 = true := by decide +kernel

/-- I1: -(3*2)-4 = -10. -/
theorem test_step_vex_213 : completesWith (runBytes (regs 0x40000000 0x40400000 0x40800000 0x1F80)
    [0xC4, 0xE2, 0x71, 0xAF, 0xC2]) 0 (kept 0xC1200000) 0x1F80 0x1005 = true := by decide +kernel

/-- I23: a tiny result flushed to zero, UE and PE. -/
theorem test_step_vex_213_flush : completesWith (runBytes (regs 0x3F000000 0x00800000 0 0x9F80)
    [0xC4, 0xE2, 0x71, 0xAF, 0xC2]) 0 (kept 0x80000000) 0x9FB0 0x1005 = true := by decide +kernel

/-- I1: -(3*4)-2 = -14. -/
theorem test_step_vex_231 : completesWith (runBytes (regs 0x40000000 0x40400000 0x40800000 0x1F80)
    [0xC4, 0xE2, 0x71, 0xBF, 0xC2]) 0 (kept 0xC1600000) 0x1F80 0x1005 = true := by decide +kernel

/-- I2: the first NaN of the form's order. -/
theorem test_step_vex_231_nan : completesWith (runBytes (regs 0x7FC00001 0x7FC00002 0x7FC00003 0x1F80)
    [0xC4, 0xE2, 0x71, 0xBF, 0xC2]) 0 (kept 0x7FC00002) 0x1F80 0x1005 = true := by decide +kernel

/-- I12: masked off, merging; mask bits 63:1 are not read. -/
theorem test_step_evex_132_masked : completesWith
    (runBytes (withK (regs 0x40000000 0x40400000 0x40800000 0x1F80) 1 0xFFFFFFFFFFFFFFFE)
      [0x62, 0xF2, 0x75, 0x09, 0x9F, 0xC2]) 0 (kept 0x40000000) 0x1F80 0x1006 = true := by decide +kernel

/-- I16: active, an unmasked SNaN. -/
theorem test_step_evex_132_faults :
    let s := placeCode (withK (regs 0x40000000 0x40400000 0x7F800001 0x1F00) 1 1) 0x1000
      [0x62, 0xF2, 0x75, 0x09, 0x9F, 0xC2]
    raises (step s) .xm s = true := by decide +kernel

/-- I1, EVEX. -/
theorem test_step_evex_213 : completesWith (runBytes (regs 0x40000000 0x40400000 0x40800000 0x1F80)
    [0x62, 0xF2, 0x75, 0x08, 0xAF, 0xC2]) 0 (kept 0xC1200000) 0x1F80 0x1006 = true := by decide +kernel

/-- I39: the 8-bit displacement times 4; the operand's first byte is absent. -/
theorem test_step_evex_213_address : stuckAt (runBytes (withX (withX idle 9 0x10000) 10 8)
    [0x62, 0x82, 0x5D, 0x08, 0xAF, 0x64, 0x51, 0x7F]) 0x1020C = true := by decide +kernel

/-- I20, embedded rounding toward zero under MXCSR's round down, no flag. -/
theorem test_step_evex_231_rounding : completesWith (runBytes (regs 0 0x3F800001 0x3F800001 0x3F80)
    [0x62, 0xF2, 0x75, 0x78, 0xBF, 0xC2]) 0 (kept 0xBF800002) 0x3F80 0x1006 = true := by decide +kernel

/-- I1, EVEX: -(3*4)-2 = -14. -/
theorem test_step_evex_231 : completesWith (runBytes (regs 0x40000000 0x40400000 0x40800000 0x1F80)
    [0x62, 0xF2, 0x75, 0x08, 0xBF, 0xC2]) 0 (kept 0xC1600000) 0x1F80 0x1006 = true := by decide +kernel

/-! ## A state and operands that meet the hypotheses of each statement -/

/-- Numbers 2, 3, 4 in V[0], V[1], V[2]. -/
def calm : State := regs 0x40000000 0x40400000 0x40800000 0x1F80

/-- An SNaN in V[2] with the invalid-operation exception unmasked. -/
def noisy : State := regs 0x40000000 0x40400000 0x7F800001 0x1F00

/-- VEX operands xmm0, xmm1, xmm2. -/
def vexRegs : VexOperands := ⟨[], 0, 0, 1, .reg 0 2⟩

/-- VEX operands xmm0, xmm1, [rax]. -/
def vexMem : VexOperands := ⟨[], 0, 0, 1, .mem (.base 0 0 .none)⟩

/-- EVEX operands xmm0, xmm1, xmm2. -/
def evexRegs : EvexOperands := ⟨[], 0, 1, 0, 0, 0, 0, .reg 2⟩

/-- EVEX operands xmm0, xmm1, [rax]. -/
def evexMem : EvexOperands := ⟨[], 0, 1, 0, 0, 0, 0, .mem (.base 0 0 .none)⟩

/-- The same with `b = 1`, a form that `P_B_MEM = execute_as_b0` lets run (D16). -/
def evexMemB : EvexOperands := { evexMem with b := 1 }

/-- A state under `P_B_MEM = execute_as_b0`, RAX = 2000H, four bytes there. -/
def bMem (s : State) (bytes : List Byte) : State :=
  withMem (withX { s with cfg := { s.cfg with pBMem := .executeAsB0 } } 0 0x2000) 0x2000 bytes

theorem calm_vexReady : VexReady calm := ⟨rfl, by decide, by decide, rfl, by decide⟩
theorem noisy_vexReady : VexReady noisy := ⟨rfl, by decide, by decide, rfl, by decide⟩
theorem calm_evexReady : EvexReady evexRegs calm := ⟨rfl, by decide, by decide, by decide, rfl, by decide, by decide⟩
theorem noisy_evexReady : EvexReady evexRegs noisy := ⟨rfl, by decide, by decide, by decide, rfl, by decide, by decide⟩

/-- `calm` with a `pc` that is not canonical. -/
def badPc : State := { calm with pc := 0x0000800000000000 }

/-- `calm` with its code on a page that a fetch at level 0 finds not present. -/
def noPage : State :=
  { calm with cfg := { calm.cfg with translate := [⟨0x1000, 0x1FFF, .fetch 0, .pageFault 0x10⟩] } }

/-- The bytes at `pc` of a state, as `CodeAtPc` reads them. -/
def codeAt (s : State) (bs : List Byte) : Bool :=
  (List.finRange bs.length).all fun j =>
    match fetchByte s j.val with
    | .ok b => b == bs[j]
    | .error _ => false

theorem codeAt_iff {s : State} {bs : List Byte} (h : codeAt s bs = true) : CodeAtPc s bs := by
  intro j
  have h := List.all_eq_true.1 h j (List.mem_finRange j)
  split at h
  · next b hb => rw [hb, eq_of_beq h]
  · cases h

theorem witness_DecodeEncodeRoundTrip :
    WellFormed (.vfnmsub132ssVex vexMem) ∧ WellFormed (.vfnmsub213ssEvex evexRegs) := by decide

theorem witness_DecodedBytesAreTheEncoding :
    decode [0xC4, 0xE2, 0x71, 0x9F, 0xC2] = .ok (.vfnmsub132ssVex vexRegs) := by decide

/-- Five prefixes and six bytes after the opcode, the greatest and the least that the statement admits; each way to miss
the pattern alone; an escape byte that is neither. -/
theorem witness_VexPatternSelectsRow :
    (List.replicate 5 LegacyPrefix.gs).length ≤ 5 ∧ pfxOfByte 0xC4 = none ∧ 6 ≤ (List.replicate 6 (0 : Byte)).length ∧
    (0xC4#8 ++ 0xE2#8 ++ 0x71#8 ++ 0xBF#8) &&& 0xFF1F83FF#32 = 0xC40201BF#32 ∧
    (∀ c ∈ ([0x66, 0x26, 0x4F] : List Byte), (pfxOfByte c).isSome = true) ∧ (0xE1#8).extractLsb' 0 5 ≠ 2#5 ∧
    (0xF1#8).getLsbD 7 = true ∧ (0x70#8).extractLsb' 0 2 ≠ 1#2 ∧ pfxOfByte 0x90 = none := by decide

/-- Each clause: the bounds of the first; P0[3:2] set, and each other way to miss the pattern alone; `P1[2] = 0`, and
`z = 1` with `aaa = 000b`, beside a legal instruction (X4, X2). -/
theorem witness_EvexPatternSelectsRow :
    (List.replicate 4 LegacyPrefix.gs).length ≤ 4 ∧ pfxOfByte 0x62 = none ∧ 6 ≤ (List.replicate 6 (0 : Byte)).length ∧
    (0x62#8 ++ 0xF2#8 ++ 0x75#8 ++ 0x08#8 ++ 0xBF#8) &&& 0xFF0F8700FF#40 = 0x62020500BF#40 ∧
    (∀ c ∈ ([0x66, 0x26, 0x4F] : List Byte), (pfxOfByte c).isSome = true) ∧ (0xFA#8).extractLsb' 2 2 ≠ 0#2 ∧
    (0xF1#8).extractLsb' 2 2 = 0#2 ∧ (0xF1#8).extractLsb' 0 2 ≠ 2#2 ∧ (0xF5#8).getLsbD 7 = true ∧
    (0x74#8).extractLsb' 0 2 ≠ 1#2 ∧ (0x71#8).getLsbD 2 = false ∧
    ((0x88#8).getLsbD 7 = true ∧ (0x88#8).extractLsb' 0 3 = 0#3) ∧
    (∃ i, decode ([].map legacyByte ++ [0x62, 0xF2, 0x71 ||| 0x04, 0x08 &&& 0x7F, 0xAF, 0xC2]) = .ok i) ∧
    ∃ i, decode ([].map legacyByte ++ [0x62, 0xF2, 0x75 ||| 0x04, 0x88 &&& 0x7F, 0xAF, 0xC2]) = .ok i := by
  refine ⟨by decide, by decide, by decide, by decide, by decide, by decide, by decide, by decide, by decide, by decide,
    by decide, by decide, ⟨_, by rfl⟩, ⟨_, by rfl⟩⟩

theorem witness_TwoByteVexIsRefused : ∀ c ∈ ([0x66, 0x26, 0x4F] : List Byte), (pfxOfByte c).isSome = true := by decide

/-- A 14-byte instruction and one more byte, the greatest length that is #UD; a forbidden byte and a last REX behind
another prefix (X11), and an early REX (X12); code at `pc` that is a known illegal near-miss, `pc + len` in range. -/
theorem witness_RejectedPrefixes :
    let i := Instr.vfnmsub213ssVex ⟨[.es, .es, .es, .es], 0, 1, 2, .mem (.sib 2 1 3 (.d32 0x100))⟩
    let j := Instr.vfnmsub213ssVex vexRegs
    let s := placeCode idle 0x1000 [0x64, 0x48, 0xC4, 0xE2, 0x71, 0xAF, 0xC2]
    (∀ c ∈ ([0x64, 0x66, 0x48] : List Byte), (pfxOfByte c).isSome = true) ∧
    (WellFormed i ∧ hasEarlyRex (prefixBytes [0x66] i) = false ∧ ([0x66] : List Byte).length + instrLen i = 15 ∧
      isForbiddenByte 0x66 = true) ∧
    (WellFormed j ∧ hasEarlyRex (prefixBytes [0x64, 0x48] j) = false ∧ endsInRex (prefixBytes [0x64, 0x48] j) = true) ∧
    hasEarlyRex (prefixBytes [0x48, 0x64] j) = true ∧
    s.mode = .mode64 ∧ CodeAtPc s [0x64, 0x48, 0xC4, 0xE2, 0x71, 0xAF, 0xC2] ∧
    decode [0x64, 0x48, 0xC4, 0xE2, 0x71, 0xAF, 0xC2] = .illegal 7 ∧ nextPc s 7 = some 0x1007 := by
  exact ⟨by decide, by decide, by decide, by decide, rfl, codeAt_iff (by decide +kernel), by decide, by decide +kernel⟩

/-- Bytes that are refused, 18 of them; an instruction of 16 bytes, one prefix more than the longest, a forbidden one
(X21), all of it at `pc`, and 15 of its bytes with no sixteenth. -/
theorem witness_OverlongInstructionFaults :
    let bs := List.replicate 13 0x26 ++ [0xC4, 0xE1, 0x71, 0xAF, 0xC2]
    let i := Instr.vfnmsub213ssVex ⟨[.es, .es, .es, .es, .es], 0, 1, 2, .mem (.sib 2 1 3 (.d32 0x100))⟩
    let s := placeCode idle 0x1000 ([0x66] ++ encode i)
    let s' := placeCode idle 0x1000 (([0x66] ++ encode i).take 15)
    (CodeAtPc (placeCode idle 0x1000 bs) bs ∧ decode bs = .refuse .vexNeighbour) ∧
    (s.mode = .mode64 ∧ (∀ c ∈ ([0x66] : List Byte), (pfxOfByte c).isSome = true) ∧ WellFormed i ∧
      15 < ([0x66] : List Byte).length + instrLen i ∧ hasEarlyRex (prefixBytes [0x66] i) = false ∧
      CodeAtPc s ([0x66] ++ encode i) ∧ nextPc s 16 = some 0x1010) ∧
    s'.mode = .mode64 ∧ CodeAtPc s' (([0x66] ++ encode i).take 15) ∧
    ∃ p, fetchByte s' 15 = .error (.absent p) := by
  exact ⟨⟨codeAt_iff (by decide +kernel), by decide⟩,
    ⟨rfl, by decide, by decide, by decide, by decide, codeAt_iff (by decide +kernel), by decide +kernel⟩, rfl,
    codeAt_iff (by decide +kernel), 0x100F, by rfl⟩

theorem witness_StepRunsDecodedInstruction :
    let s := placeCode calm 0x1000 [0xC4, 0xE2, 0x71, 0x9F, 0xC2]
    s.mode ≠ .mode32 ∧ decode (fetchBytes s).1 = .ok (.vfnmsub132ssVex vexRegs) := by
  exact ⟨by decide, by decide +kernel⟩

/-- Code at `pc`; and each way a fetch stops: the first byte past 2^64 - 1, at a non-canonical `pc`, a page fault of the
first byte, an absent byte behind three. -/
theorem witness_StepRunsCodeAtPc :
    let s := placeCode calm 0x1000 (encode (.vfnmsub132ssVex vexRegs))
    let top := placeCode { calm with pc := 0xFFFFFFFFFFFFFFFF } 0xFFFFFFFFFFFFFFFF [0xC4]
    let short := placeCode calm 0x1000 [0xC4, 0xE2, 0x71]
    (s.mode = .mode64 ∧ WellFormed (.vfnmsub132ssVex vexRegs) ∧ CodeAtPc s (encode (.vfnmsub132ssVex vexRegs))) ∧
    (top.mode = .mode64 ∧ CodeAtPc top [0xC4] ∧ decode [0xC4] = .needMore ∧ 2 ^ 64 ≤ top.pc.toNat + 1) ∧
    (decode [] = .needMore ∧ CodeAtPc badPc [] ∧ canonical badPc.cfg badPc.pc = false) ∧
    (canonical noPage.cfg 0x1000 = true ∧
      Machine.translate noPage.cfg.translate (.fetch noPage.cpl) 0x1000 = .pageFault 0x10) ∧
    CodeAtPc short [0xC4, 0xE2, 0x71] ∧ decode [0xC4, 0xE2, 0x71] = .needMore ∧
    Machine.translate short.cfg.translate (.fetch short.cpl) 0x1003 = .phys 0x1003 ∧
    memGet short.text 0x1003 = none := by
  exact ⟨⟨rfl, by decide, codeAt_iff (by decide +kernel)⟩,
    ⟨rfl, codeAt_iff (by decide +kernel), by decide, by decide⟩, ⟨by decide, fun j => j.elim0, by decide⟩,
    ⟨by decide, by decide⟩, codeAt_iff (by decide +kernel), by decide, by decide, by decide +kernel⟩

/-- The step at the two stops that are exceptions, and past 2^64 - 1. -/
theorem test_fetch_stops :
    raises (step badPc) (.gp 0) badPc = true ∧ raises (step noPage) (.pf 0x10 0x1000) noPage = true ∧
    (match step (placeCode { calm with pc := 0xFFFFFFFFFFFFFFFF } 0xFFFFFFFFFFFFFFFF [0xC4]) with
      | .refused .pcPastTop => true
      | _ => false) = true := by decide +kernel

theorem witness_Mode32IsRefused : { idle with mode := .mode32 }.mode = .mode32 := rfl

theorem witness_NoEncodingRunsInRealMode :
    State.reset.mode = .real ∧ { idle with mode := .virtual8086 }.mode = .virtual8086 := ⟨rfl, rfl⟩

/-- The last address whose instruction wraps, and the first that reaches a non-canonical one. -/
theorem witness_PcPastTopIsRefused :
    2 ^ 64 ≤ (0xFFFFFFFFFFFFFFFB#64).toNat + instrLen (.vfnmsub132ssVex vexRegs) ∧
    canonical idle.cfg (0x00007FFFFFFFFFFB#64 + BitVec.ofNat 64 (instrLen (.vfnmsub132ssVex vexRegs))) = false := by
  decide

theorem calm_meets_invariant : Invariant (placeCode calm 0x1000 [0xC4, 0xE2, 0x71, 0x9F, 0xC2]) where
  memWf := by decide +kernel
  textWf := by decide +kernel
  textInMemory := by unfold TextInMemory; decide +kernel
  narrow := by unfold RegistersNarrow; decide +kernel
  highAbsent := by unfold HighRegistersAbsent; decide +kernel
  maxvlLegal := by unfold Config.MaxVlLegal; decide
  reservedZero := by unfold MxcsrReservedZero; decide +kernel

theorem witness_StepKeepsInvariant :
    let s := placeCode calm 0x1000 [0xC4, 0xE2, 0x71, 0x9F, 0xC2]
    Invariant s ∧ ∃ t, step s = .next t := ⟨calm_meets_invariant, exists_next (by decide +kernel)⟩

theorem witness_StepFrame : ∃ t, step (placeCode calm 0x1000 [0xC4, 0xE2, 0x71, 0x9F, 0xC2]) = .next t :=
  exists_next (by decide +kernel)

theorem witness_VexFrame : ∃ t, exec (vexInstr .f231 vexRegs) calm = .next t := exists_next (by decide +kernel)

theorem witness_EvexFrame :
    (∃ t, exec (evexInstr .f231 evexRegs) calm = .next t) ∧
    (∃ t, exec (evexInstr .f132 { evexRegs with aaa := 1 }) calm = .next t) ∧ maskBit calm (kreg3 1) = false :=
  ⟨exists_next (by decide +kernel), exists_next (by decide +kernel), by decide⟩

/-- A raised exception is a fault outcome. -/
theorem exists_fault {r : Result} {e : Exception} {s : State} (h : raises r e s = true) :
    ∃ t, r = .fault (.exception e t) := by
  unfold raises at h
  split at h
  · next e' t =>
    simp only [Bool.and_eq_true, beq_iff_eq] at h
    exact ⟨t, h.1.1.1.1 ▸ rfl⟩
  all_goals cases h

/-- A stuck run is a fault outcome. -/
theorem exists_stuck {r : Result} {p : Word64} (h : stuckAt r p = true) : ∃ t, r = .fault (.absentByte p t) := by
  unfold stuckAt at h
  split at h
  · next q t => exact ⟨t, (eq_of_beq h) ▸ rfl⟩
  all_goals cases h

/-- A fault with an unmasked exception, one with another, and a stop at an absent byte. -/
theorem witness_FaultsArePrecise :
    (∃ t, step (placeCode noisy 0x1000 [0xC4, 0xE2, 0x71, 0x9F, 0xC2]) = .fault (.exception .xm t)) ∧
    (∃ t, step (placeCode calm 0x1000 [0x66, 0xC4, 0xE2, 0x71, 0x9F, 0xC2]) = .fault (.exception .ud t)) ∧
    (∃ t, step State.reset = .fault (.absentByte 0xFFFFFFF0 t)) :=
  ⟨exists_fault (s := placeCode noisy 0x1000 [0xC4, 0xE2, 0x71, 0x9F, 0xC2]) (by decide +kernel),
    exists_fault (s := placeCode calm 0x1000 [0x66, 0xC4, 0xE2, 0x71, 0x9F, 0xC2]) (by decide +kernel),
    exists_stuck (by decide +kernel)⟩

/-- The hypotheses of the VEX completion statements, with -(2*4)-3, -(3*2)-4 and -(3*4)-2. -/
theorem witness_VexCompletes (f : Form) :
    VexReady calm ∧ nextPc calm (vexLen vexRegs) = some 0x1005 ∧ readSrc3 (vexOp f vexRegs) calm = .ok 0x40800000 ∧
    unmasked (fnmsubOf f calm 0 1 0x40800000 (mxcsrRc calm.mxcsr)).fl
      (fnmsubOf f calm 0 1 0x40800000 (mxcsrRc calm.mxcsr)).tiny calm.mxcsr = false := by
  refine ⟨calm_vexReady, by decide, ?_, ?_⟩ <;> cases f <;> decide +kernel

/-- The hypotheses of the EVEX completion statements, the element unmasked (`aaa = 000b`). -/
theorem witness_EvexCompletes (f : Form) :
    EvexReady evexRegs calm ∧ nextPc calm (evexLen evexRegs) = some 0x1006 ∧ evexRegs.b = 0#1 ∧ evexRegs.aaa = 0#3 ∧
    readSrc3 (evexOp f evexRegs) calm = .ok 0x40800000 ∧
    unmasked (fnmsubOf f calm 0 1 0x40800000 (mxcsrRc calm.mxcsr)).fl
      (fnmsubOf f calm 0 1 0x40800000 (mxcsrRc calm.mxcsr)).tiny calm.mxcsr = false := by
  refine ⟨calm_evexReady, by decide, by decide, by decide, ?_, ?_⟩ <;> cases f <;> decide +kernel

/-- `calm` with mask bit 0 of K[7] set. -/
def masked7 : State := withK calm 7 1

/-- The same hypotheses with an active element under a mask register. -/
theorem witness_EvexCompletes_masked (f : Form) :
    let o := { evexRegs with aaa := 7 }
    EvexReady o masked7 ∧ nextPc masked7 (evexLen o) = some 0x1006 ∧ o.b = 0#1 ∧ maskBit masked7 (kreg3 o.aaa) = true ∧
    readSrc3 (evexOp f o) masked7 = .ok 0x40800000 ∧
    unmasked (fnmsubOf f masked7 0 1 0x40800000 (mxcsrRc masked7.mxcsr)).fl
      (fnmsubOf f masked7 0 1 0x40800000 (mxcsrRc masked7.mxcsr)).tiny masked7.mxcsr = false := by
  refine ⟨⟨rfl, by decide, by decide, by decide, rfl, by decide, by decide⟩, by decide, by decide, by decide, ?_, ?_⟩ <;>
    cases f <;> decide +kernel

/-- `calm` with 3.0 in memory, under `P_B_MEM = execute_as_b0`. -/
def calmB : State := bMem calm [0, 0, 0x40, 0x40]

/-- The same hypotheses with `b = 1` and a memory operand, active, under `P_B_MEM = execute_as_b0`. -/
theorem witness_EvexCompletes_bMem (f : Form) :
    EvexReady evexMemB calmB ∧ nextPc calmB (evexLen evexMemB) = some 0x1006 ∧ evexSrc3IsReg evexMemB.src3 = false ∧
    evexMemB.b = 1#1 ∧ evexMemB.aaa = 0#3 ∧ readSrc3 (evexOp f evexMemB) calmB = .ok 0x40400000 ∧
    unmasked (fnmsubOf f calmB 0 1 0x40400000 (mxcsrRc calmB.mxcsr)).fl
      (fnmsubOf f calmB 0 1 0x40400000 (mxcsrRc calmB.mxcsr)).tiny calmB.mxcsr = false := by
  refine ⟨⟨rfl, by decide, by decide, by decide, rfl, by decide, by decide⟩, by decide, by decide, by decide, by decide,
    ?_, ?_⟩ <;> cases f <;> decide +kernel

/-- `noisy` under `P_SAE_FLAGS = either`. -/
def noisyEither : State := { noisy with cfg := { noisy.cfg with pSaeFlags := .either } }

/-- Embedded rounding with an unmasked SNaN operand, under both settings of the parameter. -/
theorem witness_EmbeddedRoundingCompletes :
    let o := { evexRegs with b := 1, ll := 3 }
    EvexReady o noisy ∧ nextPc noisy (evexLen o) = some 0x1006 ∧ noisy.cfg.pSaeFlags = .suppressed ∧
    EvexReady o noisyEither ∧ nextPc noisyEither (evexLen o) = some 0x1006 ∧ o.b = 1#1 ∧ o.src3 = .reg 2 ∧
    o.aaa = 0#3 := by
  exact ⟨⟨rfl, by decide, by decide, by decide, rfl, by decide, by decide⟩, by decide, rfl,
    ⟨rfl, by decide, by decide, by decide, rfl, by decide, by decide⟩, by decide, by decide, rfl, by decide⟩

/-- A masked-off element, with a register operand, and with a memory operand under `no_access`; merging and zeroing. -/
theorem witness_MaskedOffElementCompletes :
    let o := { evexRegs with aaa := 1 }
    let o' := { evexMem with aaa := 1, z := 1 }
    EvexReady o noisy ∧ nextPc noisy (evexLen o) = some 0x1006 ∧ o.aaa ≠ 0#3 ∧ maskBit noisy (kreg3 o.aaa) = false ∧
    evexSrc3IsReg o.src3 = true ∧ EvexReady o' noisy ∧ nextPc noisy (evexLen o') = some 0x1006 ∧ o'.aaa ≠ 0#3 ∧
    maskBit noisy (kreg3 o'.aaa) = false ∧ noisy.cfg.pFaultSupp = .noAccess := by
  exact ⟨⟨rfl, by decide, by decide, by decide, rfl, by decide, by decide⟩, by decide, by decide, by decide, rfl,
    ⟨rfl, by decide, by decide, by decide, rfl, by decide, by decide⟩, by decide, by decide, by decide, rfl⟩

/-- `calm` under `P_FAULTSUPP = either`. -/
def calmEither : State := { calm with cfg := { calm.cfg with pFaultSupp := .either } }

theorem witness_MaskedOffMemoryEitherOutcome :
    let o := { evexMem with aaa := 1 }
    EvexReady o calmEither ∧ nextPc calmEither (evexLen o) = some 0x1006 ∧ o.aaa ≠ 0#3 ∧
    maskBit calmEither (kreg3 o.aaa) = false := by
  exact ⟨⟨rfl, by decide, by decide, by decide, rfl, by decide, by decide⟩, by decide, by decide, by decide⟩

/-- An unmasked invalid operation, VEX and EVEX, and the same with CR4.OSXMMEXCPT = 0. -/
theorem witness_UnmaskedExceptionIsRaised (f : Form) :
    VexReady noisy ∧ nextPc noisy (vexLen vexRegs) = some 0x1005 ∧
    readSrc3 (vexOp f vexRegs) noisy = .ok 0x7F800001 ∧ EvexReady evexRegs noisy ∧
    nextPc noisy (evexLen evexRegs) = some 0x1006 ∧ evexRegs.b = 0#1 ∧ evexRegs.aaa = 0#3 ∧
    readSrc3 (evexOp f evexRegs) noisy = .ok 0x7F800001 ∧
    unmasked (fnmsubOf f noisy 0 1 0x7F800001 (mxcsrRc noisy.mxcsr)).fl
      (fnmsubOf f noisy 0 1 0x7F800001 (mxcsrRc noisy.mxcsr)).tiny noisy.mxcsr = true ∧
    osxmmexcpt noisy = true ∧ VexReady { noisy with cr4 := 0x40000 } ∧
    osxmmexcpt { noisy with cr4 := 0x40000 } = false := by
  refine ⟨noisy_vexReady, by decide, ?_, noisy_evexReady, by decide, by decide, by decide, ?_, ?_, by decide,
    ⟨rfl, by decide, by decide, rfl, by decide⟩, by decide⟩ <;> cases f <;> decide +kernel

/-- `noisy` with an SNaN in memory, under `P_B_MEM = execute_as_b0` and `P_XM_FLAGS = set_as_described`. -/
def noisyB : State :=
  bMem { noisy with cfg := { noisy.cfg with pXmFlags := .setAsDescribed } } [0x01, 0x00, 0x80, 0x7F]

/-- The same with `b = 1` and a memory operand, under `set_as_described`. -/
theorem witness_UnmaskedExceptionIsRaised_bMem (f : Form) :
    EvexReady evexMemB noisyB ∧ nextPc noisyB (evexLen evexMemB) = some 0x1006 ∧
    evexSrc3IsReg evexMemB.src3 = false ∧ evexMemB.aaa = 0#3 ∧ readSrc3 (evexOp f evexMemB) noisyB = .ok 0x7F800001 ∧
    unmasked (fnmsubOf f noisyB 0 1 0x7F800001 (mxcsrRc noisyB.mxcsr)).fl
      (fnmsubOf f noisyB 0 1 0x7F800001 (mxcsrRc noisyB.mxcsr)).tiny noisyB.mxcsr = true ∧
    noisyB.cfg.pXmFlags = .setAsDescribed := by
  refine ⟨⟨rfl, by decide, by decide, by decide, rfl, by decide, by decide⟩, by decide, by decide, by decide, ?_, ?_,
    rfl⟩ <;> cases f <;> decide +kernel

/-- Each condition of R171 and of R172 in its turn. -/
theorem witness_ConditionsRaiseUd :
    (nextPc calm (vexLen vexRegs)).isSome = true ∧ (nextPc calm (evexLen evexRegs)).isSome = true ∧
    { calm with cr4 := 0x400 }.cr4.getLsbD 18 = false ∧ { calm with xcr0 := 3 }.xcr0.extractLsb' 1 2 ≠ 3#2 ∧
    { calm with cfg := { calm.cfg with hasFma := false } }.cfg.hasFma = false ∧
    { calm with xcr0 := 0x67 }.xcr0.extractLsb' 5 3 ≠ 7#3 ∧
    { calm with cfg := { calm.cfg with hasAvx512f := false } }.cfg.hasAvx512f = false ∧
    (({ evexMem with b := 1 } : EvexOperands).b = 1#1 ∧ evexSrc3IsReg evexMem.src3 = false ∧ calm.cfg.pBMem = .faultUd) ∧
    (evexRegs.b = 0#1 ∧ ({ evexRegs with ll := 3 } : EvexOperands).ll = 3#2 ∧ calm.cfg.pLL11 = .faultUd) := by
  decide

/-- `calm` with CR0.TS = 1. -/
def switched : State := { calm with cr0 := 8 }

theorem witness_TaskSwitchedRaisesNm :
    switched.mode = .mode64 ∧ (nextPc switched (vexLen vexRegs)).isSome = true ∧
    (nextPc switched (evexLen evexRegs)).isSome = true ∧ vexUndefined switched = false ∧
    evexUndefined evexRegs switched = false ∧ switched.cr0.getLsbD 3 = true := by decide

/-- `[rax]` with RAX not canonical. -/
def badRax : State := withX calm 0 0x0000800000000000

theorem witness_MemoryOperandStopEndsInstruction (f : Form) :
    VexReady badRax ∧ nextPc badRax (vexLen vexMem) = some 0x1005 ∧
    readSrc3 (vexOp f vexMem) badRax = .error (.exception (.gp 0)) ∧ EvexReady evexMem badRax ∧
    nextPc badRax (evexLen evexMem) = some 0x1006 ∧ evexMem.aaa = 0#3 ∧
    readSrc3 (evexOp f evexMem) badRax = .error (.exception (.gp 0)) := by
  refine ⟨⟨rfl, by decide, by decide, rfl, by decide⟩, by decide, ?_,
    ⟨rfl, by decide, by decide, by decide, rfl, by decide, by decide⟩, by decide, by decide, ?_⟩ <;>
    cases f <;> decide +kernel

/-- Four bytes at the misaligned 2001H, alignment checking off. -/
def data : State := withMem (withX calm 0 0x2001) 0x2001 [0x00, 0x00, 0x40, 0x40]

/-- The memory operand, and a register operand at the last register that each encoding names. -/
theorem witness_MemoryOperandReadsFourBytes :
    canonical4 data.cfg 0x2001 = true ∧ (∀ a, DataAt data a a) ∧
    alignCheckOn data = false ∧ memGet data.mem 0x2001 = some 0x00 ∧ memGet data.mem 0x2002 = some 0x00 ∧
    memGet data.mem 0x2003 = some 0x40 ∧ memGet data.mem 0x2004 = some 0x40 ∧ vexMem.src3 = .mem (.base 0 0 .none) ∧
    linearAddr data ⟨[], 1, vexLen vexMem, .base 0 0 .none⟩ = 0x2001 ∧ evexMem.src3 = .mem (.base 0 0 .none) ∧
    linearAddr data ⟨[], 4, evexLen evexMem, .base 0 0 .none⟩ = 0x2001 ∧
    { vexRegs with src3 := .reg 0 15 }.src3 = .reg 0 15 ∧ (15 : Fin 32).val = (15#4).toNat ∧
    { evexRegs with src3 := .reg 31 }.src3 = .reg 31 ∧ (31 : Fin 32).val = (31#5).toNat := by
  exact ⟨by decide, fun _ => rfl, by decide, by decide, by decide, by decide, by decide, rfl, by decide +kernel, rfl,
    by decide +kernel, rfl, rfl, rfl, rfl⟩

/-- `data` at CPL 3 with alignment checking on, the page of 2004H not present. -/
def strict : State :=
  { data with
    cpl := 3, rflags := 0x40002, cr0 := 0x40000,
    cfg := { data.cfg with translate := [⟨0x2004, 0x2FFF, .dataRead 3, .pageFault 4⟩] } }

/-- Each clause of R56's order: the last canonical address and the first that is not; a page fault of the first byte and
of the last; a misaligned address; an absent first byte and an absent last byte. -/
theorem witness_MemReadFaultOrder :
    canonical4 data.cfg 0x00007FFFFFFFFFFC = true ∧ canonical4 data.cfg 0x00007FFFFFFFFFFD = false ∧
    Machine.translate strict.cfg.translate (.dataRead strict.cpl) 0x2004 = .pageFault 4 ∧
    DataAt strict 0x2003 0x2003 ∧ DataAt strict 0x2002 0x2002 ∧ DataAt strict 0x2001 0x2001 ∧
    canonical4 strict.cfg 0x2001 = true ∧
    alignCheckOn strict = true ∧ (0x1FFD#64).toNat % 4 ≠ 0 ∧ canonical4 strict.cfg 0x1FFD = true ∧
    memGet data.mem 0x2000 = none ∧ memGet data.mem 0x2005 = none ∧ (memGet data.mem 0x2004).isSome = true ∧
    vexMem.src3 = .mem (.base 0 0 .none) ∧ evexMem.src3 = .mem (.base 0 0 .none) := by
  unfold DataAt
  decide

/-- Through SS: base RBP with prefix 67 alone, #SS(0); not through SS with an FS override (R54). -/
theorem test_stack_segment :
    let s := withX calm 5 0x0000800000000000
    usesSs ⟨[.a32], 1, 7, .base 0 5 (.d8 0)⟩ = true ∧ usesSs ⟨[.a32, .fs], 1, 8, .base 0 5 (.d8 0)⟩ = false ∧
    raises (exec (.vfnmsub132ssVex ⟨[], 0, 0, 1, .mem (.base 0 5 (.d8 0))⟩) s) (.ss 0) s = true := by decide +kernel

/-- The page permissions depend on the privilege level (R180): a page that only level 3 may not read. -/
theorem test_translate_level :
    let s := { data with cfg := { data.cfg with translate := [⟨0x2000, 0x2FFF, .dataRead 3, .pageFault 5⟩] } }
    isNext (exec (.vfnmsub132ssVex vexMem) s) = true ∧
    raises (exec (.vfnmsub132ssVex vexMem) { s with cpl := 3 }) (.pf 5 0x2001) s = true := by decide +kernel

/-- Memories that agree on 2001H to 2004H and differ at 2005H. -/
theorem witness_MemReadTouchesFourBytes :
    let m := memSet data.mem 0x2005 0xFF
    memGet m 0x2001 = memGet data.mem 0x2001 ∧ memGet m 0x2002 = memGet data.mem 0x2002 ∧
    memGet m 0x2003 = memGet data.mem 0x2003 ∧ memGet m 0x2004 = memGet data.mem 0x2004 ∧ m ≠ data.mem := by
  decide

/-- Registers that agree in their low doublewords and in all of V[0], and differ in V[1]. -/
theorem witness_SourcesReadLowDwordOnly :
    let v' := calm.v.set 1 (vreg [0x40400000, 0x11111111])
    (∀ j : Fin 32, (v'[j]).extractLsb' 0 32 = (calm.v[j]).extractLsb' 0 32) ∧ v'[(0 : Fin 32)] = calm.v[(0 : Fin 32)] ∧
    v' ≠ calm.v ∧ destOf (.vfnmsub132ssVex vexRegs) = 0 ∧ ∃ t, exec (.vfnmsub132ssVex vexRegs) calm = .next t := by
  exact ⟨by decide +kernel, by decide +kernel, by decide +kernel, by decide, exists_next (by decide +kernel)⟩

theorem witness_FlagsAndPrivilegeDoNotMatter :
    alignCheckOn { calm with rflags := 0x40002, cpl := 3 } = alignCheckOn calm ∧
    (∀ a, Machine.translate calm.cfg.translate (.dataRead 3) a =
      Machine.translate calm.cfg.translate (.dataRead calm.cpl) a) ∧
    ∃ t, exec (.vfnmsub231ssEvex evexRegs) calm = .next t := by
  exact ⟨by decide, fun _ => rfl, exists_next (by decide +kernel)⟩

/-- Register operands, and the same memory operand. -/
theorem witness_VexAndEvexAgree :
    VexReady data ∧ avx512StateOn data = true ∧ data.cfg.hasAvx512f = true ∧
    nextPc data (vexLen vexRegs) = some 0x1005 ∧ nextPc data (evexLen evexRegs) = some 0x1006 ∧
    nextPc data (vexLen vexMem) = some 0x1005 ∧ nextPc data (evexLen evexMem) = some 0x1006 ∧
    evexRegs.d.toNat = vexRegs.d.toNat ∧ evexRegs.s2.toNat = vexRegs.s2.toNat ∧ evexRegs.aaa = 0#3 ∧
    evexRegs.z = 0#1 ∧ evexRegs.b = 0#1 ∧ evexRegs.ll ≠ 3#2 ∧ vexRegs.src3 = .reg 0 2 ∧ evexRegs.src3 = .reg 2 ∧
    linearAddr data ⟨[], 4, evexLen evexMem, .base 0 0 .none⟩ = linearAddr data ⟨[], 1, vexLen vexMem, .base 0 0 .none⟩ ∧
    usesSs ⟨[], 4, evexLen evexMem, .base 0 0 .none⟩ = usesSs ⟨[], 1, vexLen vexMem, .base 0 0 .none⟩ := by
  exact ⟨⟨rfl, by decide, by decide, rfl, by decide⟩, by decide, rfl, by decide, by decide, by decide, by decide,
    by decide, by decide, by decide, by decide, by decide, by decide, rfl, rfl, by decide +kernel, by decide⟩

theorem witness_EffectiveAddress : (3 : BitVec 4) ≠ 4#4 := by decide

theorem witness_LastSegmentOverrideCounts :
    (∀ q ∈ [LegacyPrefix.ds, .a32, .es], q ≠ .fs ∧ q ≠ .gs) ∧ LegacyPrefix.a32 ∈ [LegacyPrefix.ds, .a32, .es] ∧
    LegacyPrefix.a32 ∉ [LegacyPrefix.ds, .fs] := by decide

/-! ### The arithmetic -/

/-- The greatest denormal, and the least normal number. -/
theorem witness_DazReadsDenormalsAsZeros : isDenormal 0x807FFFFF = true ∧ isDenormal 0x00800000 = false := by decide

/-- A QNaN, an SNaN, and zero times infinity with a QNaN (E rows); the settings of the two parameters. -/
theorem witness_NanOperandResult :
    ¬ NoNaN 0x7FC00001 0 0 ∧ isSNaN 0x7F800001 = true ∧ isSNaN 0x7FC00001 = false ∧
    (ZeroTimesInf 0 0x7F800000 ∧ ¬ NoNaN 0 0x7F800000 0x7FC00000) ∧ calm.cfg.pNan = .firstInOperationOrder ∧
    calm.cfg.pIeInfZeroQnan = .noFlag ∧
    { calm with cfg := { calm.cfg with pIeInfZeroQnan := .ie } }.cfg.pIeInfZeroQnan = .ie := by
  refine ⟨by unfold NoNaN; decide, by decide, by decide, ⟨.inl (by decide), by unfold NoNaN; decide⟩, rfl, rfl, rfl⟩

theorem witness_InvalidMultiplication :
    NoNaN 0x80000000 0x7F800000 0x3F800000 ∧ ZeroTimesInf (dazOf true 0x80000000) (dazOf true 0x7F800000) :=
  ⟨by unfold NoNaN; decide, .inl (by decide)⟩

/-- `-(inf*1) - (-inf)`: terms of opposite sign. -/
theorem witness_InvalidSubtraction :
    NoNaN 0x7F800000 0x3F800000 0xFF800000 ∧ ¬ ZeroTimesInf (dazOf true 0x7F800000) (dazOf true 0x3F800000) ∧
    isInf 0x7F800000 = true ∧ isInf 0xFF800000 = true ∧
    (!(signOf 0x7F800000 ^^ signOf 0x3F800000)) ≠ !signOf 0xFF800000 := by
  unfold NoNaN ZeroTimesInf
  decide

/-- An infinite product with a finite and with an infinite subtrahend of its sign, and an infinite subtrahend alone. -/
theorem witness_ValidInfinities :
    NoNaN 0x7F800000 0x3F800000 0x3F800000 ∧ ¬ ZeroTimesInf (dazOf true 0x7F800000) (dazOf true 0x3F800000) ∧
    isInf 0x7F800000 = true ∧ isInf 0x3F800000 = false ∧
    (NoNaN 0x7F800000 0x3F800000 0x7F800000 ∧
      (!(signOf 0x7F800000 ^^ signOf 0x3F800000)) = !signOf 0x7F800000) ∧
    (NoNaN 0x3F800000 0x3F800000 0x7F800000 ∧ ¬ ZeroTimesInf (dazOf true 0x3F800000) (dazOf true 0x3F800000)) := by
  unfold NoNaN ZeroTimesInf
  decide

/-- `-(0*1) - 0`, two zero terms of one sign, and `-(1*1) - (-1)`, an exact cancellation. -/
theorem witness_ExactZeroSign :
    FiniteOperands 0 0x3F800000 0 ∧ exactValue 0 0x3F800000 0 = 0 ∧ isZero 0 = true ∧
    (!(signOf 0 ^^ signOf 0x3F800000)) = (!signOf 0) ∧ FiniteOperands 0x3F800000 0x3F800000 0xBF800000 ∧
    exactValue 0x3F800000 0x3F800000 0xBF800000 = 0 ∧ isZero 0x3F800000 = false := by
  unfold FiniteOperands
  decide +kernel

theorem witness_DenormalOperandFlag :
    NoNaN 1 0x3F800000 0 ∧ ¬ ZeroTimesInf (dazOf false 1) (dazOf false 0x3F800000) ∧ isInf 1 = false ∧
    isInf 0x3F800000 = false ∧ isDenormal (dazOf false 1) = true := by
  unfold NoNaN ZeroTimesInf
  decide

/-- An indefinite result, and a quieted one. -/
theorem witness_NanResultsAreIndefiniteOrQuieted :
    isNaN (fnmsub32 0 false 0 0x7F800000 0 .rn false false).value = true ∧
    isNaN (fnmsub32 0 false 0x7F800001 0 0 .rn false false).value = true := by decide +kernel

theorem witness_DivideByZeroIsNeverSignalled :
    (∃ t, step (placeCode calm 0x1000 [0xC4, 0xE2, 0x71, 0x9F, 0xC2]) = .next t) ∧
    ∃ t, step (placeCode noisy 0x1000 [0xC4, 0xE2, 0x71, 0x9F, 0xC2]) = .fault (.exception .xm t) :=
  ⟨witness_StepFrame, witness_FaultsArePrecise.1⟩

/-- At the threshold of round to nearest: the exact -(2^25 - 1) * 2^103, half a unit above the largest finite value,
overflows, and the largest finite value itself, a unit below 2^128, does not; an overflow (G1) toward zero. -/
theorem witness_OverflowThresholdAndResult :
    FiniteOperands 0x7F7FFFFF 0x3F800000 0x73000000 ∧
    (exactValue 0x7F7FFFFF 0x3F800000 0x73000000).natAbs = (2 ^ 25 - 1) * 2 ^ 401 ∧
    Overflows .rn (exactValue 0x7F7FFFFF 0x3F800000 0x73000000) ∧
    FiniteOperands 0x7F7FFFFF 0x3F800000 0 ∧ exactValue 0x7F7FFFFF 0x3F800000 0 ≠ 0 ∧
    ¬ Overflows .rn (exactValue 0x7F7FFFFF 0x3F800000 0) ∧ FiniteOperands 0x7F7FFFFF 0x40000000 0 ∧
    exactValue 0x7F7FFFFF 0x40000000 0 ≠ 0 ∧ Overflows .rz (exactValue 0x7F7FFFFF 0x40000000 0) := by
  unfold FiniteOperands Overflows
  decide +kernel

/-- About the threshold of round to nearest, R154's two examples: the exact -(2^-126 - 2^-150) needs 24 bits and is tiny,
and 007FFFFFH times 3F800001H rounds up to 2^-126 and is not; the threshold itself, -(2^-126 - 2^-151), a tie that
rounds to 2^-126, is not; and an operand triple that returns early. -/
theorem witness_TinyIsDetectedAfterRounding :
    FiniteOperands 0x00800000 0x3F7FFFFF 0 ∧ exactValue 0x00800000 0x3F7FFFFF 0 ≠ 0 ∧
    (exactValue 0x00800000 0x3F7FFFFF 0).natAbs = 2 ^ 172 - 2 ^ 148 ∧
    TinyAfterRounding .rn (exactValue 0x00800000 0x3F7FFFFF 0) ∧
    FiniteOperands 0x007FFFFF 0x3F800001 0 ∧ exactValue 0x007FFFFF 0x3F800001 0 ≠ 0 ∧
    ¬ TinyAfterRounding .rn (exactValue 0x007FFFFF 0x3F800001 0) ∧ FiniteOperands 0x1A000000 0x99800000 0x00800000 ∧
    (exactValue 0x1A000000 0x99800000 0x00800000).natAbs = 2 ^ 172 - 2 ^ 147 ∧
    ¬ TinyAfterRounding .rn (exactValue 0x1A000000 0x99800000 0x00800000) ∧ ¬ FiniteOperands 0x7F800000 0x3F000000 0 := by
  unfold FiniteOperands TinyAfterRounding
  decide +kernel

/-- A tiny result with FTZ and without, and one that is not tiny. -/
theorem witness_UnderflowAndFlushToZero :
    (fnmsub32 0 false 0x00800000 0x3F000000 0 .rn false true).tiny = true ∧
    (fnmsub32 0 false 0x00800000 0x3F000000 0 .rn false false).tiny = true ∧
    (fnmsub32 0 false 0x3F800000 0x3F800000 0 .rn false false).tiny = false := by decide +kernel

/-- An inexact result (B1), an exact zero and an infinite operand. -/
theorem witness_PrecisionFlagIsInexactness :
    FiniteOperands 0x3F800001 0x3F800001 0 ∧ exactValue 0x3F800001 0x3F800001 0 ≠ 0 ∧ exactValue 0 0 0 = 0 ∧
    ¬ FiniteOperands 0x7F800000 0 0 := by
  unfold FiniteOperands
  decide +kernel

/-- An inexact result with FTZ off, and the same under FTZ, which is not tiny. -/
theorem witness_ResultIsCorrectlyRounded :
    FiniteOperands 0x3F800001 0x3F800001 0 ∧ exactValue 0x3F800001 0x3F800001 0 ≠ 0 ∧
    ¬ HasFlag (fnmsub32 0 false 0x3F800001 0x3F800001 0 .rn false false).fl flagOE ∧
    (fnmsub32 0 false 0x3F800001 0x3F800001 0 .rn false true).tiny = false ∧
    ¬ HasFlag (fnmsub32 0 false 0x3F800001 0x3F800001 0 .rn false true).fl flagOE := by
  unfold FiniteOperands HasFlag
  decide +kernel

theorem witness_MultiplicandsCommute : NoNaN 0x3F800001 0x40000000 0x3F800000 := by unfold NoNaN; decide

theorem witness_DirectedRoundingMirrors :
    NoNaN 0x3F800001 0x3F800001 0 ∧ isNaN (fnmsub32 0 false 0x3F800001 0x3F800001 0 .rd false false).value = false := by
  unfold NoNaN
  decide +kernel

/-- A zero multiplicand, with a denormal subtrahend (FTZ off) and with the least normal one (any FTZ). -/
theorem witness_ZeroProductPassesThrough :
    FiniteOperands 0x80000000 0x3F800000 1 ∧ isZero 0x80000000 = true ∧ isZero 1 = false ∧
    FiniteOperands 0x80000000 0x3F800000 0x00800000 ∧ isZero 0x00800000 = false ∧ isDenormal 0x00800000 = false := by
  unfold FiniteOperands
  decide

end Sys2Proof.Tests
end

section
/-! PROOFS. The invariant under a step (O15): the write of R112 lands in a register that exists, in bits that exist, and
MXCSR only gains flags. -/

namespace Sys2Proof.Machine

/-- What the written value meets, and every register met before, every register meets after the write (R112). -/
theorem forall_writeLow {P : Fin 32 → VReg → Prop} {v : Vector VReg 32} {d : Fin 32} {low : Word32}
    (hd : P d (mergeLow v[d] low)) (hv : ∀ i : Fin 32, P i v[i]) : ∀ i : Fin 32, P i (writeLow v d low)[i] := by
  intro i
  by_cases hi : i = d
  · subst hi
    rwa [writeLow_same]
  · rw [writeLow_other v low hi]
    exact hv i

/-- A 4-bit register number names one of V[0] to V[15] (R78). -/
theorem vreg4_lt (n : BitVec 4) : (vreg4 n).val < 16 := n.isLt

/-- An instruction with no #UD condition writes one of V[0] to V[15] where the processor has no AVX512F: the VEX forms
name no other (R78), and the EVEX forms are undefined there (R172). -/
theorem opOf_dest_lt {i : Instr} {s : State} (hu : udOf i s = false) (hf : s.cfg.hasAvx512f = false) :
    (opOf i).dest.val < 16 := by
  cases i with
  | vfnmsub132ssVex o => exact vreg4_lt o.d
  | vfnmsub213ssVex o => exact vreg4_lt o.d
  | vfnmsub231ssVex o => exact vreg4_lt o.d
  | vfnmsub132ssEvex o => simp [udOf, evexUndefined, hf] at hu
  | vfnmsub213ssEvex o => simp [udOf, evexUndefined, hf] at hu
  | vfnmsub231ssEvex o => simp [udOf, evexUndefined, hf] at hu

/-- Every legal width holds the 128 bits that R112 leaves (R6, R20). -/
theorem MaxVl.le_bits (m : MaxVl) : 128 ≤ m.bits := by cases m <;> simp [MaxVl.bits]

section complete
variable {op : FmaOp} {next : Word64} {low mxcsr : Word32} {s : State}

theorem complete_registersNarrow (h : RegistersNarrow s) : RegistersNarrow (complete op next low mxcsr s) := by
  refine forall_writeLow (P := fun _ r => r.toNat < 2 ^ s.cfg.maxvl.bits) ?_ h
  calc (mergeLow s.v[op.dest] low).toNat
    _ < 2 ^ 128 := mergeLow_lt _ _
    _ ≤ 2 ^ s.cfg.maxvl.bits := Nat.pow_le_pow_right (by decide) (MaxVl.le_bits _)

theorem complete_highRegistersAbsent (hd : s.cfg.hasAvx512f = false → op.dest.val < 16)
    (h : HighRegistersAbsent s) : HighRegistersAbsent (complete op next low mxcsr s) := by
  intro hf
  obtain ⟨hzero, hlt⟩ := h hf
  constructor
  · exact forall_writeLow (P := fun i r => 16 ≤ i.val → r = 0) (fun hge => absurd (hd hf) (by omega)) hzero
  · refine forall_writeLow (P := fun _ r => r.toNat < 2 ^ 256) ?_ hlt
    exact (mergeLow_lt _ _).trans (by decide)

/-- A completed instruction keeps the invariant where its destination exists and its MXCSR is legal. -/
theorem Invariant.complete (h : Invariant s) (hd : s.cfg.hasAvx512f = false → op.dest.val < 16)
    (hm : mxcsr.extractLsb' 16 16 = 0) : Invariant (complete op next low mxcsr s) where
  memWf := h.memWf
  textWf := h.textWf
  textInMemory := h.textInMemory
  narrow := complete_registersNarrow h.narrow
  highAbsent := complete_highRegistersAbsent hd h.highAbsent
  maxvlLegal := h.maxvlLegal
  reservedZero := hm

end complete

/-- Every completed instruction keeps the invariant. -/
theorem exec_keeps_invariant {i : Instr} {s t : State} (h : Invariant s) (he : exec i s = .next t) : Invariant t := by
  obtain ⟨_, hu, _, _⟩ := exec_next he
  obtain ⟨next, low, mxcsr, _, rfl, hm⟩ := exec_next_complete he
  refine h.complete (opOf_dest_lt hu) ?_
  rcases hm with rfl | ⟨w, rfl⟩
  · exact h.reservedZero
  · exact (mxcsrOr_reserved _ _).trans h.reservedZero

/-- Settles O15: a step completes only by an instruction's completion, which keeps the invariant. That the registers a
processor lacks stay zero is the model's choice (log 30). -/
theorem stepKeepsInvariant : Obligations.StepKeepsInvariant := by
  intro s t h hstep
  obtain ⟨i, _, he⟩ := step_next hstep
  exact exec_keeps_invariant h he

end Sys2Proof.Machine
end

section
/-! PROOFS. The frame of a completed instruction (O17, O18, O19): R112's write changes one register, and no flag set that
`FNMSUB32` returns holds ZE, so MXCSR is kept as R26 says. -/

namespace Sys2Proof.Machine

/-! ## No arithmetic signals ZE (R159) -/

theorem nanResult_not_ze (pick : Nat) (ie : Bool) (x y z : Word32) :
    (nanResult pick ie x y z).fl.getLsbD 2 = false := by
  simp only [nanResult]
  split
  · rfl
  · split <;> rfl

theorem denormalFlag_not_ze (x y z : Word32) : (denormalFlag x y z).getLsbD 2 = false := by
  unfold denormalFlag
  split <;> rfl

theorem roundTiny_not_ze (rm : RoundMode) (ftz neg : Bool) (a : Nat) :
    (roundTiny rm ftz neg a).fl.getLsbD 2 = false := by
  unfold roundTiny
  split
  · dsimp only
    decide
  · dsimp only
    split <;> decide

theorem roundResult_not_ze (rm : RoundMode) (ftz : Bool) (v : Int) :
    (roundResult rm ftz v).fl.getLsbD 2 = false := by
  rcases roundResult_cases rm ftz v with ⟨_, e⟩ | ⟨_, e⟩ | ⟨_, _, e⟩ <;> rw [e]
  · dsimp only
    decide
  · exact roundTiny_not_ze _ _ _ _
  · dsimp only [inexactFlag]
    split <;> rfl

theorem finiteResult_not_ze (rm : RoundMode) (ftz : Bool) {fl : BitVec 6} (h : fl.getLsbD 2 = false)
    (x y z : Word32) : (finiteResult rm ftz fl x y z).fl.getLsbD 2 = false := by
  by_cases hv : exactValue x y z = 0
  · rwa [finiteResult_zero hv]
  · rw [finiteResult_round hv, BitVec.getLsbD_or, h, roundResult_not_ze]
    rfl

theorem fnmsubCore_not_ze (pick : Nat) (ie : Bool) (x y z : Word32) (rm : RoundMode) (ftz : Bool) :
    (fnmsubCore pick ie x y z rm ftz).fl.getLsbD 2 = false := by
  rcases fnmsubCore_cases pick ie x y z rm ftz with
    ⟨_, e⟩ | ⟨_, ⟨_, e⟩ | ⟨_, ⟨_, e⟩ | ⟨_, ⟨_, e⟩ | ⟨_, ⟨_, e⟩ | ⟨_, e⟩⟩⟩⟩⟩ <;> rw [e]
  · exact nanResult_not_ze _ _ _ _ _
  · rfl
  · rfl
  · exact denormalFlag_not_ze _ _ _
  · exact denormalFlag_not_ze _ _ _
  · exact finiteResult_not_ze _ _ (denormalFlag_not_ze _ _ _) _ _ _

/-- `FNMSUB32` never signals ZE (R159). -/
theorem fnmsub32_not_ze (pick : Nat) (ie : Bool) (x y z : Word32) (rm : RoundMode) (daz ftz : Bool) :
    (fnmsub32 pick ie x y z rm daz ftz).fl.getLsbD 2 = false :=
  fnmsubCore_not_ze _ _ _ _ _ _ _

/-! ## The frame -/

/-- The record's destination is the instruction's (R111). -/
theorem opOf_dest (i : Instr) : (opOf i).dest = destOf i := by cases i <;> rfl

theorem destOf_vexInstr (f : Form) (o : VexOperands) : destOf (vexInstr f o) = vreg4 o.d := by cases f <;> rfl

theorem destOf_evexInstr (f : Form) (o : EvexOperands) : destOf (evexInstr f o) = vreg5 o.d := by cases f <;> rfl

/-- What an instruction that completes leaves unchanged (R124, R26), and that bits from 128 up of its destination become
zero (R112). -/
theorem exec_next_frame {i : Instr} {s t : State} {d : Fin 32} (hd : destOf i = d) (h : exec i s = .next t) :
    Frame s t d ∧ (t.v[d]).extractLsb' 128 384 = 0 := by
  obtain rfl : (opOf i).dest = d := (opOf_dest i).trans hd
  obtain ⟨next, low, mxcsr, _, rfl, hm⟩ := exec_next_complete h
  have hkept : MxcsrKept s.mxcsr mxcsr := by
    rcases hm with rfl | ⟨w, rfl⟩
    · exact .refl _
    · exact .or _ (fnmsub32_not_ze _ _ _ _ _ _ _ _)
  exact ⟨complete_frame _ _ _ _ hkept, (complete_leaves _ _ _ _ _).upper⟩

/-- An EVEX form is active exactly where it has no writemask or the mask bit is set (R85, R113). -/
theorem active_evexOp (f : Form) (o : EvexOperands) (s : State) :
    active (evexOp f o) s = (o.aaa == 0#3 || maskBit s (kreg3 o.aaa)) := by
  by_cases h : o.aaa = 0#3 <;> simp [active, evexOp, h]

/-- A masked-off element leaves MXCSR as it was (R113). -/
theorem executeOp_masked_mxcsr {op : FmaOp} {next : Word64} {s t : State} (ha : active op s = false)
    (h : executeOp op next s = .next t) : t.mxcsr = s.mxcsr := by
  rcases executeOp_next h with ⟨_, ha', _⟩ | ⟨_, rfl⟩
  · exact absurd (ha.symm.trans ha') (by decide)
  · rfl

/-- Settles O17: a step completes only by an instruction's completion, which has the frame. -/
theorem stepFrame : Obligations.StepFrame := by
  intro s t hstep
  obtain ⟨i, _, he⟩ := step_next hstep
  exact ⟨destOf i, exec_next_frame rfl he⟩

/-- Settles O18: the destination of a VEX form is V[d]. -/
theorem vexFrame : Obligations.VexFrame := by
  intro f o s t h
  exact exec_next_frame (destOf_vexInstr f o) h

/-- Settles O19: the destination of an EVEX form is V[d], and a masked-off element signals nothing. -/
theorem evexFrame : Obligations.EvexFrame := by
  intro f o s t h
  obtain ⟨hframe, hupper⟩ := exec_next_frame (destOf_evexInstr f o) h
  refine ⟨hframe, hupper, fun ⟨haaa, hmask⟩ => ?_⟩
  have ha : active (evexOp f o) s = false := by simp [active_evexOp, haaa, hmask]
  rw [exec_evex] at h
  obtain ⟨_, _, _, next, _, hop⟩ := executeChecked_next h
  exact executeOp_masked_mxcsr ha hop

end Sys2Proof.Machine
end

section
/-! PROOFS. How `MemRead` stops (O36): R56's order is that of four translations, the alignment check and four byte
reads, and of four accesses in a row the first that stops decides. -/

namespace Sys2Proof.Machine

/-! ## Four accesses in a row (R56) -/

section four
variable {ε α β : Type}

/-- Of four accesses in a row the first that stops decides. -/
theorem bind_four_error {f : Fin 4 → Except ε α} {n : Fin 4} {e : ε} (hok : ∀ m < n, ∃ x, f m = .ok x)
    (he : f n = .error e) (g : α → α → α → α → Except ε β) :
    (do let x0 ← f 0; let x1 ← f 1; let x2 ← f 2; let x3 ← f 3; g x0 x1 x2 x3) = .error e := by
  match n with
  | 0 => rw [he]; rfl
  | 1 =>
    obtain ⟨x0, h0⟩ := hok 0 (by decide)
    rw [h0, he]; rfl
  | 2 =>
    obtain ⟨x0, h0⟩ := hok 0 (by decide)
    obtain ⟨x1, h1⟩ := hok 1 (by decide)
    rw [h0, h1, he]; rfl
  | 3 =>
    obtain ⟨x0, h0⟩ := hok 0 (by decide)
    obtain ⟨x1, h1⟩ := hok 1 (by decide)
    obtain ⟨x2, h2⟩ := hok 2 (by decide)
    rw [h0, h1, h2, he]; rfl

end four

/-- The translation of a read's byte `n` (R56 step (2)). -/
def translateByte (s : State) (a : Word64) (n : Fin 4) : Except Stop Word64 :=
  translateData s (a + BitVec.ofNat 64 n.val)

/-- Step (2) of R56 for a translated byte. -/
theorem translateByte_of_dataAt {s : State} {a p : Word64} {n : Fin 4}
    (h : DataAt s (a + BitVec.ofNat 64 n.val) p) : translateByte s a n = .ok p := by
  unfold DataAt at h
  simp only [translateByte, translateData, h]

/-- Step (2) of R56 for a byte whose translation is a page fault. -/
theorem translateByte_of_pageFault {s : State} {a : Word64} {n : Fin 4} {code : Word32}
    (h : translate s.cfg.translate (.dataRead s.cpl) (a + BitVec.ofNat 64 n.val) = .pageFault code) :
    translateByte s a n = .error (.exception (.pf code (a + BitVec.ofNat 64 n.val))) := by
  simp only [translateByte, translateData, h]

/-- Steps (2) to (4) of R56, after step (1). -/
theorem memRead_canonical {s : State} {a : Word64} (hc : canonical4 s.cfg a = true) (viaSs : Bool) :
    memRead s viaSs a = do
      let p0 ← translateByte s a 0
      let p1 ← translateByte s a 1
      let p2 ← translateByte s a 2
      let p3 ← translateByte s a 3
      if alignCheckOn s && a.extractLsb' 0 2 != 0 then .error (.exception (.ac 0))
      else do
        let b0 ← loadByte s.mem p0
        let b1 ← loadByte s.mem p1
        let b2 ← loadByte s.mem p2
        let b3 ← loadByte s.mem p3
        return le32 b0 b1 b2 b3 := by
  have h0 : translateByte s a 0 = translateData s a := congrArg _ (BitVec.add_zero a)
  unfold canonical4 at hc
  unfold memRead
  rw [hc, h0]
  rfl

section stops
variable {s : State} {viaSs : Bool} {a : Word64}

/-- Step (2) of R56: the first byte address that does not translate gives the page fault. -/
theorem memRead_pageFault {n : Fin 4} {code : Word32} (hc : canonical4 s.cfg a = true)
    (hbefore : ∀ m : Fin 4, m < n → ∃ p, DataAt s (a + BitVec.ofNat 64 m.val) p)
    (hfault : translate s.cfg.translate (.dataRead s.cpl) (a + BitVec.ofNat 64 n.val) = .pageFault code) :
    memRead s viaSs a = .error (.exception (.pf code (a + BitVec.ofNat 64 n.val))) := by
  rw [memRead_canonical hc]
  refine bind_four_error (fun m hm => ?_) (translateByte_of_pageFault hfault) _
  obtain ⟨p, hp⟩ := hbefore m hm
  exact ⟨p, translateByte_of_dataAt hp⟩

/-- Steps (3) and (4) of R56, after four translations. -/
theorem memRead_translated {p : Fin 4 → Word64} (hc : canonical4 s.cfg a = true)
    (hp : ∀ m : Fin 4, DataAt s (a + BitVec.ofNat 64 m.val) (p m)) :
    memRead s viaSs a =
      if alignCheckOn s && a.extractLsb' 0 2 != 0 then .error (.exception (.ac 0))
      else do
        let b0 ← loadByte s.mem (p 0)
        let b1 ← loadByte s.mem (p 1)
        let b2 ← loadByte s.mem (p 2)
        let b3 ← loadByte s.mem (p 3)
        return le32 b0 b1 b2 b3 := by
  have ht (m : Fin 4) : translateByte s a m = .ok (p m) := translateByte_of_dataAt (hp m)
  rw [memRead_canonical hc, ht, ht, ht, ht]
  rfl

/-- The alignment check of R52, as arithmetic. -/
theorem alignmentFault_iff :
    (alignCheckOn s && a.extractLsb' 0 2 != 0) = true ↔ alignCheckOn s = true ∧ a.toNat % 4 ≠ 0 := by
  rw [misaligned_eq, Bool.and_eq_true, decide_eq_true_iff]

/-- Step (3) of R56: #AC(0). -/
theorem memRead_misaligned {p : Fin 4 → Word64} (hc : canonical4 s.cfg a = true)
    (hp : ∀ m : Fin 4, DataAt s (a + BitVec.ofNat 64 m.val) (p m))
    (ha : alignCheckOn s = true ∧ a.toNat % 4 ≠ 0) : memRead s viaSs a = .error (.exception (.ac 0)) := by
  rw [memRead_translated hc hp, if_pos (alignmentFault_iff.2 ha)]

/-- Step (4) of R56: stuck at the first absent byte (D9). -/
theorem memRead_absent {p : Fin 4 → Word64} {n : Fin 4} (hc : canonical4 s.cfg a = true)
    (hp : ∀ m : Fin 4, DataAt s (a + BitVec.ofNat 64 m.val) (p m))
    (ha : ¬ (alignCheckOn s = true ∧ a.toNat % 4 ≠ 0)) (hn : memGet s.mem (p n).toNat = none)
    (hbefore : ∀ m < n, (memGet s.mem (p m).toNat).isSome = true) :
    memRead s viaSs a = .error (.absent (p n)) := by
  rw [memRead_translated hc hp, if_neg (mt alignmentFault_iff.1 ha)]
  refine bind_four_error (f := fun m => loadByte s.mem (p m)) (fun m hm => ?_) (loadByte_absent hn) _
  obtain ⟨b, hb⟩ := Option.isSome_iff_exists.1 (hbefore m hm)
  exact ⟨b, loadByte_of_memGet hb⟩

end stops

/-- A linear address translates to at most one physical address. -/
theorem DataAt.unique {s : State} {a p q : Word64} (hp : DataAt s a p) (hq : DataAt s a q) : p = q :=
  TransTarget.phys.inj (hp.symm.trans hq)

/-! ## The segment (R54, R80) -/

/-- No segment override: at most 67 stands before the escape (R80). -/
theorem segOverride_eq_false_iff (pfx : List LegacyPrefix) : segOverride pfx = false ↔ ∀ p ∈ pfx, p = .a32 := by
  simp [segOverride]

/-- The base register of an operand is RSP or RBP (R79). -/
theorem baseIsStack_iff (m : MemOperand) :
    baseIsStack m = true ↔
      (∃ x r d, m = .base x r d ∧ (r = 4#4 ∨ r = 5#4)) ∨ ∃ sc ix r d, m = .sib sc ix r d ∧ (r = 4#4 ∨ r = 5#4) := by
  cases m with
  | ripRel x b d => simp [baseIsStack]
  | base x r d => simp [baseIsStack]
  | sib sc ix r d => simp [baseIsStack]
  | sibNoBase sc ix b d => simp [baseIsStack]

/-- When a read goes through SS (R54; log 20). -/
theorem usesSs_iff (m : MemRef) :
    usesSs m = true ↔
      ((∃ x r d, m.operand = .base x r d ∧ (r = 4#4 ∨ r = 5#4)) ∨
        ∃ sc ix r d, m.operand = .sib sc ix r d ∧ (r = 4#4 ∨ r = 5#4)) ∧ ∀ p ∈ m.pfx, p = .a32 := by
  rw [usesSs, Bool.and_eq_true, Bool.not_eq_true', baseIsStack_iff, segOverride_eq_false_iff]

/-- Settles O36: each stop of R56 in its order, and the read as the one that every form does. -/
theorem memReadFaultOrder : Obligations.MemReadFaultOrder := by
  refine ⟨fun s viaSs a => ⟨memRead_nonCanonical, fun n code hc => memRead_pageFault hc, fun hc hphys => ?_⟩,
    usesSs_iff, fun f s o m h => readSrc3_vex_mem h f s, fun f s o m h => readSrc3_evex_mem h f s⟩
  choose p hp using hphys
  refine ⟨memRead_misaligned hc hp, fun ha n q hq hn hbefore => ?_⟩
  obtain rfl := (hp n).unique hq
  exact memRead_absent hc hp ha hn fun m hm => hbefore m hm (p m) (hp m)

end Sys2Proof.Machine
end

section
/-! PROOFS. What an instruction reads (O38, O39): two states that agree in it complete alike, whatever else they hold. -/

namespace Sys2Proof.Machine

/-- Two states agree in all that an instruction reads: of the vector registers the low doublewords (R22), of RFLAGS and
the privilege level the alignment check and the translation of data reads (R180), and the rest of the state but the
program text and the CS base. -/
structure ReadsAlike (s s' : State) : Prop where
  low : ∀ j, lowDword s' j = lowDword s j
  k : s'.k = s.k
  mxcsr : s'.mxcsr = s.mxcsr
  x : s'.x = s.x
  pc : s'.pc = s.pc
  mode : s'.mode = s.mode
  fsBase : s'.fsBase = s.fsBase
  gsBase : s'.gsBase = s.gsBase
  cr0 : s'.cr0 = s.cr0
  cr4 : s'.cr4 = s.cr4
  xcr0 : s'.xcr0 = s.xcr0
  mem : s'.mem = s.mem
  cfg : s'.cfg = s.cfg
  draws : s'.draws = s.draws
  align : alignCheckOn s' = alignCheckOn s
  translate : ∀ a, translate s.cfg.translate (.dataRead s'.cpl) a = translate s.cfg.translate (.dataRead s.cpl) a

namespace ReadsAlike

/-- A state agrees with itself. -/
theorem refl (s : State) : ReadsAlike s s :=
  ⟨fun _ => rfl, rfl, rfl, rfl, rfl, rfl, rfl, rfl, rfl, rfl, rfl, rfl, rfl, rfl, rfl, fun _ => rfl⟩

variable {s s' : State} (h : ReadsAlike s s')
include h

theorem nextPc (len : Nat) : nextPc s' len = nextPc s len := by
  simp only [Machine.nextPc, h.pc, h.cfg]

theorem tsSet : tsSet s' = tsSet s := by
  simp only [Machine.tsSet, h.cr0]

theorem vexUndefined : vexUndefined s' = vexUndefined s := by
  simp only [Machine.vexUndefined, osxsave, avxStateOn, h.cr4, h.xcr0, h.cfg]

theorem evexUndefined (o : EvexOperands) : evexUndefined o s' = evexUndefined o s := by
  simp only [Machine.evexUndefined, osxsave, avxStateOn, avx512StateOn, h.cr4, h.xcr0, h.cfg]

theorem udOf (i : Instr) : udOf i s' = udOf i s := by
  cases i with
  | vfnmsub132ssVex _ | vfnmsub213ssVex _ | vfnmsub231ssVex _ => exact h.vexUndefined
  | vfnmsub132ssEvex o | vfnmsub213ssEvex o | vfnmsub231ssEvex o => exact h.evexUndefined o

theorem active (op : FmaOp) : active op s' = active op s := by
  simp only [Machine.active, maskBit, h.k]

theorem maskedAccess : maskedAccess s' = maskedAccess s := by
  simp only [Machine.maskedAccess, h.cfg, h.draws]

theorem readSrc3 (op : FmaOp) : readSrc3 op s' = readSrc3 op s := by
  unfold Machine.readSrc3
  cases op.src3 with
  | reg n => exact congrArg Except.ok (h.low n)
  | mem m =>
    dsimp only
    rw [linearAddr_congr h.x h.pc h.fsBase h.gsBase, memRead_congr h.cfg h.translate h.align h.mem]

theorem compute (op : FmaOp) (w : Word32) : compute op s' w = compute op s w := by
  simp only [Machine.compute, computeWith, nanPick, ieInfZero, roundingOf, h.low, h.mxcsr, h.cfg, h.draws]

theorem raisesNumeric (op : FmaOp) (r : FmaResult) : raisesNumeric op s' r = raisesNumeric op s r := by
  simp only [Machine.raisesNumeric, h.mxcsr]

theorem deliveredMxcsr (op : FmaOp) (fl : BitVec 6) : deliveredMxcsr op s' fl = deliveredMxcsr op s fl := by
  simp only [Machine.deliveredMxcsr, h.mxcsr, h.cfg, h.draws]

theorem maskedLow (op : FmaOp) : maskedLow op s' = maskedLow op s := by
  simp only [Machine.maskedLow, h.low]

end ReadsAlike

/-- When a masked-off element completes: where its operand, if it is read all the same, can be read (R113, D22). -/
theorem executeOp_masked_next_iff {op : FmaOp} {next : Word64} {s t : State} (ha : active op s = false) :
    executeOp op next s = .next t ↔
      (maskedAccess s = true → ∃ w, readSrc3 op s = .ok w) ∧ t = complete op next (maskedLow op s) s.mxcsr s := by
  cases hm : maskedAccess s with
  | false => simp [executeOp_masked ha hm, eq_comm]
  | true =>
    cases hr : readSrc3 op s with
    | error e => simp [executeOp, ha, hm, hr, stopWith_ne_next]
    | ok w => simp [executeOp, ha, hm, hr, eq_comm]

/-- States that agree in what is read complete with the same result and the same MXCSR (R110 steps 3 to 7). -/
theorem executeOp_congr {s s' : State} (h : ReadsAlike s s') {op : FmaOp} {next : Word64} {t : State}
    (he : executeOp op next s = .next t) :
    ∃ low mxcsr, t = complete op next low mxcsr s ∧ executeOp op next s' = .next (complete op next low mxcsr s') := by
  rcases executeOp_next he with ⟨w, ha, hr, hn, ht⟩ | ⟨ha, ht⟩
  · have hn' : raisesNumeric op s' (compute op s' w) = false := by rw [h.compute, h.raisesNumeric, hn]
    refine ⟨_, _, ht, ?_⟩
    rw [executeOp_active ((h.active op).trans ha) ((h.readSrc3 op).trans hr), executeActive_delivers hn', h.compute,
      h.deliveredMxcsr]
  · obtain ⟨hread, _⟩ := (executeOp_masked_next_iff ha).1 he
    refine ⟨_, _, ht, (executeOp_masked_next_iff ((h.active op).trans ha)).2 ⟨?_, ?_⟩⟩
    · rwa [h.maskedAccess, h.readSrc3]
    · rw [h.maskedLow, h.mxcsr]

/-- States that agree in what is read complete an instruction with the same result and the same MXCSR. -/
theorem exec_congr {s s' : State} (h : ReadsAlike s s') {i : Instr} {t : State} (he : exec i s = .next t) :
    ∃ next low mxcsr, t = complete (opOf i) next low mxcsr s ∧
      exec i s' = .next (complete (opOf i) next low mxcsr s') := by
  obtain ⟨hmode, hud, hts, next, hnext, hop⟩ := exec_next he
  obtain ⟨low, mxcsr, ht, hop'⟩ := executeOp_congr h hop
  refine ⟨next, low, mxcsr, ht, ?_⟩
  have hnext' : nextPc s' (opOf i).len = some next := by rw [h.nextPc, opOf_len, hnext]
  rw [exec_eq, executeChecked_ready (h.mode.trans hmode) hnext' ((h.udOf i).trans hud) (h.tsSet.trans hts), hop']

/-- Settles O38: vector registers that agree in their low doublewords are read alike, and the two destinations, equal
before, receive the same low doubleword. -/
theorem sourcesReadLowDwordOnly : Obligations.SourcesReadLowDwordOnly := by
  intro i s t v' hlow hdest he
  have h : ReadsAlike s { s with v := v' } := { ReadsAlike.refl s with low := hlow }
  obtain ⟨next, low, mxcsr, rfl, he'⟩ := exec_congr h he
  refine ⟨_, he', ?_, rfl, rfl⟩
  simp only [complete_v, ← opOf_dest] at hdest ⊢
  rw [writeLow_same, writeLow_same, hdest]

/-- Settles O39: RFLAGS and the privilege level are read in the alignment check and in the translation of data reads
alone, and neither is written. -/
theorem flagsAndPrivilegeDoNotMatter : Obligations.FlagsAndPrivilegeDoNotMatter := by
  intro i s t rflags' cpl' halign htranslate he
  have h : ReadsAlike s { s with rflags := rflags', cpl := cpl' } :=
    { ReadsAlike.refl s with align := halign, translate := htranslate }
  obtain ⟨next, low, mxcsr, rfl, he'⟩ := exec_congr h he
  exact he'

end Sys2Proof.Machine
end

section
/-! PROOFS. The state at reset (O13, O16), and the checks before an instruction's operands (O12, O31, O32, O33): what
`executeChecked` answers where one of them fails, and each condition of R171 and R172 in the state's bits. -/

namespace Sys2Proof.Machine

/-! ## Reset (R34) -/

theorem reset_v (i : Fin 32) : State.reset.v[i] = 0 := Vector.getElem_replicate i.isLt

theorem reset_k (i : Fin 8) : State.reset.k[i] = 0 := Vector.getElem_replicate i.isLt

theorem reset_x (i : Fin 16) : State.reset.x[i] = 0 := Vector.getElem_replicate i.isLt

/-- Settles O13: the registers in arrays hold zeros, and the others what `State.reset` writes. -/
theorem resetValues : Obligations.ResetValues :=
  ⟨reset_v, reset_k, rfl, fun i _ _ => reset_x i, rfl, rfl, rfl, rfl, rfl, rfl, rfl, rfl, rfl, rfl⟩

/-- Settles O16: the memories are empty and the vector registers zero; the configuration with its full width is the
model's choice (log 3). -/
theorem resetMeetsInvariant : Obligations.ResetMeetsInvariant where
  memWf := nil_wf
  textWf := nil_wf
  textInMemory _ hc := hc
  narrow i := by rw [reset_v]; simp only [BitVec.ofNat_eq_ofNat, BitVec.toNat_zero, Nat.two_pow_pos]
  highAbsent h := absurd h (by decide)
  maxvlLegal := ⟨fun _ => rfl, fun h => absurd h (by decide), fun h => absurd h (by decide)⟩
  reservedZero := by unfold MxcsrReservedZero; decide

/-! ## The checks of R174 -/

/-- In real-address and virtual-8086 mode every form raises #UD (R171, R172, R34). -/
theorem executeChecked_realMode {s : State} (hm : s.mode = .real ∨ s.mode = .virtual8086) (ud : Bool) (op : FmaOp) :
    executeChecked ud op s = raise .ud s := by
  rcases hm with hm | hm <;> simp [executeChecked, hm]

/-- A #UD condition gives #UD, whatever CR0.TS and the operands are (D10). -/
theorem executeChecked_ud {op : FmaOp} {s : State} (hm : s.mode = .mode64) (hn : (nextPc s op.len).isSome = true) :
    executeChecked true op s = raise .ud s := by
  obtain ⟨next, hn⟩ := Option.isSome_iff_exists.1 hn
  simp [executeChecked, hm, hn]

/-- With no #UD condition CR0.TS = 1 gives #NM, whatever the operands are (D10). -/
theorem executeChecked_nm {op : FmaOp} {s : State} (hm : s.mode = .mode64) (hn : (nextPc s op.len).isSome = true)
    (ht : tsSet s = true) : executeChecked false op s = raise .nm s := by
  obtain ⟨next, hn⟩ := Option.isSome_iff_exists.1 hn
  simp [executeChecked, hm, hn, ht]

/-- The #UD conditions of R171. -/
theorem vexUndefined_iff (s : State) :
    vexUndefined s = true ↔
      s.cr4.getLsbD 18 = false ∨ s.xcr0.extractLsb' 1 2 ≠ 3#2 ∨ s.cfg.hasFma = false := by
  simp [vexUndefined, osxsave, avxStateOn, or_assoc]

/-- The fields that `P_B_MEM` and `P_LL11` make illegal (D16, D17). -/
theorem evexFieldIllegal_iff (c : Config) (o : EvexOperands) :
    evexFieldIllegal c o = true ↔
      (o.b = 1#1 ∧ evexSrc3IsReg o.src3 = false ∧ c.pBMem = .faultUd) ∨
      (o.b = 0#1 ∧ o.ll = 3#2 ∧ c.pLL11 = .faultUd) := by
  simp [evexFieldIllegal, and_assoc]

/-- The #UD conditions of R172. -/
theorem evexUndefined_iff (o : EvexOperands) (s : State) :
    evexUndefined o s = true ↔
      s.cr4.getLsbD 18 = false ∨ s.xcr0.extractLsb' 1 2 ≠ 3#2 ∨ s.xcr0.extractLsb' 5 3 ≠ 7#3 ∨
        s.cfg.hasAvx512f = false ∨ evexFieldIllegal s.cfg o = true := by
  simp [evexUndefined, osxsave, avxStateOn, avx512StateOn, or_assoc]

/-- Settles O12: the mode is tested before everything else, and the reset state is in real-address mode. -/
theorem noEncodingRunsInRealMode : Obligations.NoEncodingRunsInRealMode := by
  refine ⟨fun s i hm => ?_, rfl⟩
  rw [exec_eq]
  exact executeChecked_realMode hm _ _

/-- Settles O31: each condition is one of `vexUndefined`, which is tested first (D10, log 25). -/
theorem vexConditionsRaiseUd : Obligations.VexConditionsRaiseUd := by
  intro f o s hm hn hud
  rw [exec_vex, (vexUndefined_iff s).2 hud]
  exact executeChecked_ud hm hn

/-- Settles O32: each condition is one of `evexUndefined`, which is tested first (D10, log 25). -/
theorem evexConditionsRaiseUd : Obligations.EvexConditionsRaiseUd := by
  intro f o s hm hn hud
  rw [← evexFieldIllegal_iff, ← evexUndefined_iff] at hud
  rw [exec_evex, hud]
  exact executeChecked_ud hm hn

/-- Settles O33: CR0.TS is tested after the #UD conditions and before any operand is read (D10, log 25). -/
theorem taskSwitchedRaisesNm : Obligations.TaskSwitchedRaisesNm := by
  constructor
  · intro f o s hm hn hud hts
    rw [exec_vex, hud]
    exact executeChecked_nm hm hn hts
  · intro f o s hm hn hud hts
    rw [exec_evex, hud]
    exact executeChecked_nm hm hn hts

end Sys2Proof.Machine
end

section
/-! PROOFS. The decoder inverts the encoder (R70 to R80, R96): each layout's fields are read back, then each operand,
then the instruction. -/

namespace Sys2Proof

/-! ## Fields of a byte (R72, R74, R75, R76) -/

/-- A field in the middle of a concatenation. -/
theorem extractLsb'_append_append {u v w : Nat} (hi : BitVec u) (mid : BitVec v) (lo : BitVec w) :
    (hi ++ mid ++ lo).extractLsb' w v = mid := by
  rw [BitVec.extractLsb'_append_eq_of_le le_rfl, Nat.sub_self, BitVec.extractLsb'_append_eq_right]

section byte233
variable (hi : BitVec 2) (mid lo : BitVec 3)

@[simp] theorem byte233_hi : (byte233 hi mid lo).extractLsb' 6 2 = hi :=
  (BitVec.extractLsb'_append_eq_of_le (xhi := hi ++ mid) (by decide)).trans BitVec.extractLsb'_append_eq_left

@[simp] theorem byte233_mid : (byte233 hi mid lo).extractLsb' 3 3 = mid := extractLsb'_append_append hi mid lo

@[simp] theorem byte233_lo : (byte233 hi mid lo).extractLsb' 0 3 = lo :=
  BitVec.extractLsb'_append_eq_right (a := hi ++ mid)

end byte233

/-- A 4-bit register number from its extension bit and its low bits (R78). -/
@[simp] theorem regNumber4 (n : BitVec 4) : n.extractLsb' 3 1 ++ n.extractLsb' 0 3 = n :=
  BitVec.extractLsb'_append_extractLsb'

/-- A 5-bit register number from its two extension bits and its low bits (R78). -/
@[simp] theorem regNumber5 (n : BitVec 5) : n.extractLsb' 4 1 ++ n.extractLsb' 3 1 ++ n.extractLsb' 0 3 = n := by
  revert n; decide

/-- A 5-bit register number from `V'` and `vvvv` (R78). -/
@[simp] theorem regNumber5_vvvv (n : BitVec 5) : n.extractLsb' 4 1 ++ n.extractLsb' 0 4 = n :=
  BitVec.extractLsb'_append_extractLsb'

/-- `V1` of the contributed bits R, X, B (R72). -/
def vexByte1 (r x b : BitVec 1) : Byte := ~~~r ++ ~~~x ++ ~~~b ++ 2#5

/-- `V2` (R72). -/
def vexByte2 (s2 : BitVec 4) (l : BitVec 1) : Byte := 0#1 ++ ~~~s2 ++ l ++ 1#2

/-- `P0` of the contributed bits R, X, B, R' (R74). -/
def evexByte0 (r x b r' : BitVec 1) : Byte := ~~~r ++ ~~~x ++ ~~~b ++ ~~~r' ++ 2#4

/-- `P1` of the low bits of SRC2's number (R74). -/
def evexByte1 (s2 : BitVec 4) : Byte := 0#1 ++ ~~~s2 ++ 5#3

/-- `P2`, with the contributed bit V' (R74). -/
def evexByte2 (z : BitVec 1) (ll : BitVec 2) (b v' : BitVec 1) (aaa : BitVec 3) : Byte :=
  z ++ ll ++ b ++ ~~~v' ++ aaa

theorem vexByte1_fields (r x b : BitVec 1) :
    vexByte1 r x b &&& 0x1F#8 = 0x02#8 ∧ ~~~(vexByte1 r x b).extractLsb' 7 1 = r ∧
      ~~~(vexByte1 r x b).extractLsb' 6 1 = x ∧ ~~~(vexByte1 r x b).extractLsb' 5 1 = b := by
  revert r x b; decide

theorem vexByte2_fields (s2 : BitVec 4) (l : BitVec 1) :
    vexByte2 s2 l &&& 0x83#8 = 0x01#8 ∧ (vexByte2 s2 l).extractLsb' 2 1 = l ∧
      ~~~(vexByte2 s2 l).extractLsb' 3 4 = s2 := by
  revert s2 l; decide

theorem evexByte0_fields (r x b r' : BitVec 1) :
    evexByte0 r x b r' &&& 0x0C#8 = 0#8 ∧ evexByte0 r x b r' &&& 0x03#8 = 0x02#8 ∧
      ~~~(evexByte0 r x b r').extractLsb' 7 1 = r ∧ ~~~(evexByte0 r x b r').extractLsb' 6 1 = x ∧
      ~~~(evexByte0 r x b r').extractLsb' 5 1 = b ∧ ~~~(evexByte0 r x b r').extractLsb' 4 1 = r' := by
  revert r x b r'; decide

theorem evexByte1_fields (s2 : BitVec 4) :
    evexByte1 s2 &&& 0x83#8 = 0x01#8 ∧ (evexByte1 s2).extractLsb' 2 1 = 1#1 ∧
      ~~~(evexByte1 s2).extractLsb' 3 4 = s2 := by
  revert s2; decide

theorem evexByte2_fields (z : BitVec 1) (ll : BitVec 2) (b v' : BitVec 1) (aaa : BitVec 3) :
    (evexByte2 z ll b v' aaa).extractLsb' 7 1 = z ∧ (evexByte2 z ll b v' aaa).extractLsb' 5 2 = ll ∧
      (evexByte2 z ll b v' aaa).extractLsb' 4 1 = b ∧ ~~~(evexByte2 z ll b v' aaa).extractLsb' 3 1 = v' ∧
      (evexByte2 z ll b v' aaa).extractLsb' 0 3 = aaa := by
  revert z ll b v' aaa; decide

/-- A VEX form's encoding in its named bytes. -/
theorem encodeVex_eq (f : Form) (o : VexOperands) :
    encodeVex f o = o.pfx.map legacyByte ++ 0xC4 ::
      vexByte1 (o.d.extractLsb' 3 1) (encodeVexSrc3 o.src3).x (encodeVexSrc3 o.src3).b ::
      vexByte2 o.s2 o.l :: opcodeOfForm f ::
      byte233 (encodeVexSrc3 o.src3).mod (o.d.extractLsb' 0 3) (encodeVexSrc3 o.src3).rm ::
      (encodeVexSrc3 o.src3).tail := rfl

/-- An EVEX form's encoding in its named bytes. -/
theorem encodeEvex_eq (f : Form) (o : EvexOperands) :
    encodeEvex f o = o.pfx.map legacyByte ++ 0x62 ::
      evexByte0 (o.d.extractLsb' 3 1) (encodeEvexSrc3 o.src3).x (encodeEvexSrc3 o.src3).b (o.d.extractLsb' 4 1) ::
      evexByte1 (o.s2.extractLsb' 0 4) :: evexByte2 o.z o.ll o.b (o.s2.extractLsb' 4 1) o.aaa ::
      opcodeOfForm f :: byte233 (encodeEvexSrc3 o.src3).mod (o.d.extractLsb' 0 3) (encodeEvexSrc3 o.src3).rm ::
      (encodeEvexSrc3 o.src3).tail := rfl

/-! ## Operands (R75 to R79) -/

/-- A displacement after a base register is never spelled `mod = 11b`, the register form (R75). -/
theorem dispMod_ne_three (d : Disp) : dispMod d ≠ 3#2 := by cases d <;> simp [dispMod]

theorem encodeMem_mod_ne_three (m : MemOperand) : (encodeMem m).mod ≠ 3#2 := by
  cases m with
  | ripRel _ _ _ => simp [encodeMem]
  | base _ _ d => exact dispMod_ne_three d
  | sib _ _ _ d => exact dispMod_ne_three d
  | sibNoBase _ _ _ _ => simp [encodeMem]

/-- A base register and displacement that `MemOperand.wf` lets through are not the escape of R77 to the form without a
base register. -/
theorem dispMod_base_ne_escape {d : Disp} {base : BitVec 3} (h : (!(d == .none && base == 5#3)) = true) :
    ¬ (dispMod d = 0#2 ∧ base = 5#3) := by
  cases d <;> simp_all [dispMod]

/-- Reading back a memory operand from its fields, whatever follows it. -/
theorem decodeMem_encode {m : MemOperand} (h : m.wf = true) (rest : List Byte) :
    decodeMem (encodeMem m).x (encodeMem m).b (encodeMem m).mod (encodeMem m).rm ((encodeMem m).tail ++ rest) =
      some m := by
  cases m with
  | ripRel x b d => simp [encodeMem, decodeMem]
  | base x reg d =>
    obtain ⟨hsib, hdisp⟩ := Bool.and_eq_true_iff.1 h
    simp [encodeMem, decodeMem, bne_iff_ne.1 hsib, dispMod_base_ne_escape hdisp]
  | sib scale index reg d => simp [encodeMem, decodeMem, dispMod_base_ne_escape h]
  | sibNoBase scale index b d => simp [encodeMem, decodeMem]

/-- Reading back the third operand of a VEX form. -/
theorem decodeVexSrc3_encode {r : VexSrc3} (h : r.wf = true) (mid : BitVec 3) (rest : List Byte) :
    decodeVexSrc3 (encodeVexSrc3 r).x (encodeVexSrc3 r).b
      (byte233 (encodeVexSrc3 r).mod mid (encodeVexSrc3 r).rm) ((encodeVexSrc3 r).tail ++ rest) = some r := by
  cases r with
  | reg x n => simp [decodeVexSrc3, encodeVexSrc3]
  | mem m => simp [decodeVexSrc3, encodeVexSrc3, encodeMem_mod_ne_three, decodeMem_encode h]

/-- Reading back the third operand of an EVEX form. -/
theorem decodeEvexSrc3_encode {r : EvexSrc3} (h : r.wf = true) (mid : BitVec 3) (rest : List Byte) :
    decodeEvexSrc3 (encodeEvexSrc3 r).x (encodeEvexSrc3 r).b
      (byte233 (encodeEvexSrc3 r).mod mid (encodeEvexSrc3 r).rm) ((encodeEvexSrc3 r).tail ++ rest) = some r := by
  cases r with
  | reg n => simp [decodeEvexSrc3, encodeEvexSrc3]
  | mem m => simp [decodeEvexSrc3, encodeEvexSrc3, encodeMem_mod_ne_three, decodeMem_encode h]

/-! ## Instructions (R70, R72, R74, R81) -/

/-- An instruction within the length limit. -/
theorem finishDecode_of_le {len : Nat} (h : len ≤ 15) (i : Instr) : finishDecode len (some i) = .ok i := by
  simp [finishDecode, Nat.not_lt.2 h]

/-- The escape byte C4 after accepted prefixes (R72). -/
theorem decode_vexEscape (ps : List LegacyPrefix) (v1 v2 op : Byte) (tail : List Byte) :
    decode (ps.map legacyByte ++ 0xC4 :: v1 :: v2 :: op :: tail) = decodeVex (ps.map .legacy) v1 v2 op tail := by
  rw [decode, splitPfx_legacy ps pfxOfByte_C4]; rfl

/-- The escape byte 62 after accepted prefixes (R74). -/
theorem decode_evexEscape (ps : List LegacyPrefix) (p0 p1 p2 op : Byte) (tail : List Byte) :
    decode (ps.map legacyByte ++ 0x62 :: p0 :: p1 :: p2 :: op :: tail) =
      decodeEvex (ps.map .legacy) p0 p1 p2 op tail := by
  rw [decode, splitPfx_legacy ps pfxOfByte_62]; rfl

/-- Reading back a VEX form, whatever follows it. -/
theorem decode_encodeVex (f : Form) {o : VexOperands} (h : o.wf = true) (rest : List Byte) :
    decode (encodeVex f o ++ rest) = .ok (vexInstr f o) := by
  obtain ⟨hsrc, hlen⟩ := Bool.and_eq_true_iff.1 h
  have hlen : o.pfx.length + 5 + vexSrc3Len o.src3 ≤ 15 := of_decide_eq_true hlen
  rw [encodeVex_eq, List.append_assoc]
  refine (decode_vexEscape ..).trans ?_
  simp [decodeVex, vexByte1_fields, vexByte2_fields, decodeVexSrc3_encode hsrc, finishDecode_of_le hlen]

/-- Reading back an EVEX form, whatever follows it. -/
theorem decode_encodeEvex (f : Form) {o : EvexOperands} (h : o.wf = true) (rest : List Byte) :
    decode (encodeEvex f o ++ rest) = .ok (evexInstr f o) := by
  obtain ⟨hwf, hlen⟩ := Bool.and_eq_true_iff.1 h
  obtain ⟨hsrc, hmask⟩ := Bool.and_eq_true_iff.1 hwf
  have hlen : o.pfx.length + 6 + evexSrc3Len o.src3 ≤ 15 := of_decide_eq_true hlen
  have hmask : ¬ (o.z = 1#1 ∧ o.aaa = 0#3) := by
    rwa [Bool.not_eq_true', Bool.and_eq_false_iff, beq_eq_false_iff_ne, beq_eq_false_iff_ne, ← not_and_or] at hmask
  rw [encodeEvex_eq, List.append_assoc]
  refine (decode_evexEscape ..).trans ?_
  simp [decodeEvex, evexByte0_fields, evexByte1_fields, evexByte2_fields, hmask, decodeEvexSrc3_encode hsrc,
    finishDecode_of_le hlen]

/-- Reading back a well-formed instruction, whatever follows it. -/
theorem decode_encode {i : Instr} (h : WellFormed i) (rest : List Byte) : decode (encode i ++ rest) = .ok i := by
  cases i with
  | vfnmsub132ssVex o | vfnmsub213ssVex o | vfnmsub231ssVex o => exact decode_encodeVex _ h rest
  | vfnmsub132ssEvex o | vfnmsub213ssEvex o | vfnmsub231ssEvex o => exact decode_encodeEvex _ h rest

/-- The encoding of an instruction is as long as R89 says. -/
theorem encode_length (i : Instr) : (encode i).length = instrLen i := by
  cases i with
  | vfnmsub132ssVex o | vfnmsub213ssVex o | vfnmsub231ssVex o => exact encodeVex_length _ o
  | vfnmsub132ssEvex o | vfnmsub213ssEvex o | vfnmsub231ssEvex o => exact encodeEvex_length _ o

/-- A well-formed instruction has at most 15 bytes (R70). -/
theorem WellFormed.instrLen_le {i : Instr} (h : WellFormed i) : instrLen i ≤ 15 := by
  cases i with
  | vfnmsub132ssVex o | vfnmsub213ssVex o | vfnmsub231ssVex o =>
    exact of_decide_eq_true (Bool.and_eq_true_iff.1 h).2
  | vfnmsub132ssEvex o | vfnmsub213ssEvex o | vfnmsub231ssEvex o =>
    exact of_decide_eq_true (Bool.and_eq_true_iff.1 h).2

end Sys2Proof
end

section
/-! PROOFS. The step and the fetch (O10): where the decoder decides the bytes at `pc` the step is that instruction's
execution, and where the fetch stops before it can, the step is that stop. -/

namespace Sys2Proof.Machine

/-! ## Where the fetch of a byte stops (R61, R174 (1)) -/

section stops
variable {s : State} {n : Nat}

/-- Past 2^64 - 1 (D4). -/
theorem fetchByte_pastTop (h : 2 ^ 64 ≤ (fetchBase s).toNat + n) : fetchByte s n = .error .pastTop := by
  simp only [fetchByte, if_pos h]

variable (hn : (fetchBase s).toNat + n < 2 ^ 64)
include hn

/-- At a non-canonical address. -/
theorem fetchByte_nonCanonical (hc : canonical s.cfg (fetchBase s + BitVec.ofNat 64 n) = false) :
    fetchByte s n = .error (.exception (.gp 0)) := by
  simp only [fetchByte, if_neg (Nat.not_le.2 hn), hc, Bool.not_false, if_true]

/-- Where `Translate(_, fetch)` faults. -/
theorem fetchByte_pageFault {code : Word32} (hc : canonical s.cfg (fetchBase s + BitVec.ofNat 64 n) = true)
    (ht : translate s.cfg.translate (.fetch s.cpl) (fetchBase s + BitVec.ofNat 64 n) = .pageFault code) :
    fetchByte s n = .error (.exception (.pf code (fetchBase s + BitVec.ofNat 64 n))) := by
  simp only [fetchByte, if_neg (Nat.not_le.2 hn), hc, Bool.not_true, Bool.false_eq_true, if_false, ht]

/-- Where the program text has no byte (D9). -/
theorem fetchByte_absent {p : Word64} (hc : canonical s.cfg (fetchBase s + BitVec.ofNat 64 n) = true)
    (ht : translate s.cfg.translate (.fetch s.cpl) (fetchBase s + BitVec.ofNat 64 n) = .phys p)
    (hp : memGet s.text p.toNat = none) : fetchByte s n = .error (.absent p) := by
  simp only [fetchByte, if_neg (Nat.not_le.2 hn), hc, Bool.not_true, Bool.false_eq_true, if_false, ht, hp]

end stops

/-- In 64-bit mode the fetch address is `pc` (R30; log 26). -/
theorem fetchBase_mode64 {s : State} (hm : s.mode = .mode64) : fetchBase s = s.pc := if_pos hm

/-- A fetch that stops behind known bytes gives those bytes and the stop. -/
theorem fetchBytes_of_stop {s : State} {bs : List Byte} {e : FetchStop} (hlen : bs.length < 15) (h : CodeAtPc s bs)
    (he : fetchByte s bs.length = .error e) : fetchBytes s = (bs, some e) := by
  obtain ⟨n, hn⟩ : ∃ n, 15 - bs.length = n + 1 := ⟨14 - bs.length, by omega⟩
  unfold fetchBytes
  rw [fetchFrom_code hlen.le (offset := 0) (by simpa [CodeAtPc] using h), Nat.zero_add, hn, fetchFrom, he,
    List.append_nil]

/-! ## The step -/

/-- The step of bytes that decode to an instruction (R96, R110). -/
theorem step_of_decode_ok {s : State} {i : Instr} (hm : s.mode ≠ .mode32) (h : decode (fetchBytes s).1 = .ok i) :
    step s = exec i s := by
  simp only [step, fetchInstr, if_neg hm, h]

/-- The step of bytes that end before the instruction does (R96, R174 (1)). -/
theorem step_of_decode_needMore {s : State} (hm : s.mode ≠ .mode32) (h : decode (fetchBytes s).1 = .needMore) :
    step s = endedEarly s (fetchBytes s).2 := by
  simp only [step, fetchInstr, if_neg hm, h]

/-- The step where the fetch stops before the instruction ends. -/
theorem step_of_fetchStop {s : State} {bs : List Byte} {e : FetchStop} (hm : s.mode ≠ .mode32)
    (hlen : bs.length < 15) (h : CodeAtPc s bs) (hd : decode bs = .needMore)
    (he : fetchByte s bs.length = .error e) : step s = endedEarly s (some e) := by
  have hf := fetchBytes_of_stop hlen h he
  rw [step_of_decode_needMore hm (by rw [hf, hd]), hf]

/-- A well-formed instruction's encoding at `pc` is what the decoder finds in the window, whatever follows it (R61). -/
theorem decode_fetchBytes_encode {s : State} {i : Instr} (hwf : WellFormed i) (h : CodeAtPc s (encode i)) :
    decode (fetchBytes s).1 = .ok i := by
  have hlen : (encode i).length ≤ 15 := (encode_length i).trans_le hwf.instrLen_le
  obtain ⟨rest, hrest⟩ := fetchBytes_code hlen h
  rw [hrest, decode_encode hwf]

/-- Settles O10: the encoding is read back from the window of 15 bytes, and a fetch that stops before the instruction
ends decides the step. -/
theorem stepRunsCodeAtPc : Obligations.StepRunsCodeAtPc := by
  refine ⟨fun s i hm hwf h => step_of_decode_ok (by simp [hm]) (decode_fetchBytes_encode hwf h), ?_⟩
  intro s bs hm hlen h hd a
  have hstep {e : FetchStop} : fetchByte s bs.length = .error e → step s = endedEarly s (some e) :=
    step_of_fetchStop (by simp [hm]) hlen h hd
  have ha : a = fetchBase s + BitVec.ofNat 64 bs.length := by rw [fetchBase_mode64 hm]
  rw [ha, ← fetchBase_mode64 hm]
  exact ⟨fun htop => hstep (fetchByte_pastTop htop), fun hn =>
    ⟨fun hc => hstep (fetchByte_nonCanonical hn hc), fun _ hc ht => hstep (fetchByte_pageFault hn hc ht),
      fun _ hc ht hp => hstep (fetchByte_absent hn hc ht hp)⟩⟩

end Sys2Proof.Machine
end

section
/-! PROOFS. What `MemRead` answers (O35, O37): the four bytes it assembles, and that it reads no other. -/

namespace Sys2Proof.Machine

/-- Step (2) of R56 for a translated address. -/
theorem translateData_of_dataAt {s : State} {a p : Word64} (h : DataAt s a p) : translateData s a = .ok p := by
  unfold DataAt at h
  simp only [translateData, h]

/-- Settles O35: an operand in memory is `MemRead` at its own address, which every check lets through, and an operand in
a register is that register's low doubleword. -/
theorem memoryOperandReadsFourBytes : Obligations.MemoryOperandReadsFourBytes := by
  refine ⟨?_, ?_, ?_⟩
  · intro f s m p0 p1 p2 p3 b0 b1 b2 b3 a hc h0 h1 h2 h3 halign g0 g1 g2 g3
    have haligned : (alignCheckOn s && a.extractLsb' 0 2 != 0) = false := by
      rw [Bool.eq_false_iff, Ne, alignmentFault_iff]
      rintro ⟨hon, hmis⟩
      exact halign.elim (fun hoff => by simp [hoff] at hon) hmis
    have hread (viaSs : Bool) : memRead s viaSs a = .ok (b3 ++ b2 ++ b1 ++ b0) :=
      memRead_of_bytes hc (translateData_of_dataAt h0) (translateData_of_dataAt h1) (translateData_of_dataAt h2)
        (translateData_of_dataAt h3) haligned (loadByte_of_memGet g0) (loadByte_of_memGet g1) (loadByte_of_memGet g2)
        (loadByte_of_memGet g3)
    exact ⟨fun o ho ha => by rw [readSrc3_vex_mem ho, ha, hread],
      fun o ho ha => by rw [readSrc3_evex_mem ho, ha, hread]⟩
  · intro f s o x n j ho hj
    obtain rfl : j = vreg4 n := Fin.ext hj
    exact readSrc3_vex_reg ho f s
  · intro f s o n j ho hj
    obtain rfl : j = vreg5 n := Fin.ext hj
    exact readSrc3_evex_reg ho f s

/-- Four byte addresses all translate, or there is a first that does not (R56 step (2)). -/
theorem dataAt_four_cases (s : State) (a : Word64) :
    (∀ n : Fin 4, ∃ p, DataAt s (a + BitVec.ofNat 64 n.val) p) ∨
    ∃ (n : Fin 4) (code : Word32), (∀ m < n, ∃ p, DataAt s (a + BitVec.ofNat 64 m.val) p) ∧
      translate s.cfg.translate (.dataRead s.cpl) (a + BitVec.ofNat 64 n.val) = .pageFault code := by
  by_cases hall : ∀ n : Fin 4, ∃ p, DataAt s (a + BitVec.ofNat 64 n.val) p
  · exact .inl hall
  · obtain ⟨n, hn, hmin⟩ := wellFounded_lt.has_min {n : Fin 4 | ¬ ∃ p, DataAt s (a + BitVec.ofNat 64 n.val) p}
      (not_forall.1 hall)
    refine .inr ⟨n, ?_⟩
    cases ht : translate s.cfg.translate (.dataRead s.cpl) (a + BitVec.ofNat 64 n.val) with
    | phys p => exact absurd ⟨p, ht⟩ hn
    | pageFault code => exact ⟨code, fun m hm => not_not.1 fun h => hmin m h hm, rfl⟩

/-- A byte load depends on that byte alone (R57). -/
theorem loadByte_congr {m m' : Memory} {p : Word64} (h : memGet m' p.toNat = memGet m p.toNat) :
    loadByte m' p = loadByte m p := by
  simp only [loadByte, h]

/-- Settles O37: no check before the four byte loads reads the memory, and each load reads its byte alone. -/
theorem memReadTouchesFourBytes : Obligations.MemReadTouchesFourBytes := by
  intro s mem' viaSs a hagree
  cases hc : canonical4 s.cfg a with
  | false => rw [memRead_nonCanonical hc, memRead_nonCanonical (s := { s with mem := mem' }) hc]
  | true =>
    rcases dataAt_four_cases s a with hphys | ⟨n, code, hbefore, hfault⟩
    · choose p hp using hphys
      have hload (n : Fin 4) : loadByte mem' (p n) = loadByte s.mem (p n) := loadByte_congr (hagree n (p n) (hp n))
      rw [memRead_translated hc hp, memRead_translated (s := { s with mem := mem' }) hc hp]
      have halign : alignCheckOn { s with mem := mem' } = alignCheckOn s := rfl
      simp only [hload, halign]
    · rw [memRead_pageFault hc hbefore hfault, memRead_pageFault (s := { s with mem := mem' }) hc hbefore hfault]

end Sys2Proof.Machine
end

section
/-! PROOFS. The loop over prefixes on any bytes of theirs (R80): what it reads them as, and the bytes that no prefixes
make one of the six (O6). -/

namespace Sys2Proof

/-- What the loop over prefixes reads one of their bytes as (R80). -/
def prefixClass (c : Byte) : PfxByte := (pfxOfByte c).getD (.rex c)

theorem prefixClass_of_some {c : Byte} {p : PfxByte} (h : pfxOfByte c = some p) : prefixClass c = p := by
  simp [prefixClass, h]

theorem pfxOfByte_eq_prefixClass {c : Byte} (h : (pfxOfByte c).isSome = true) :
    pfxOfByte c = some (prefixClass c) := by
  obtain ⟨p, hp⟩ := Option.isSome_iff_exists.1 h
  rw [hp, prefixClass_of_some hp]

/-- The bytes of accepted prefixes are bytes that the loop reads on. -/
theorem isSome_pfxOfByte_of_mem_legacy {ps : List LegacyPrefix} {c : Byte} (h : c ∈ ps.map legacyByte) :
    (pfxOfByte c).isSome = true := by
  obtain ⟨p, _, rfl⟩ := List.mem_map.1 h
  simp

/-- The loop over bytes of prefixes, up to the first other byte. -/
theorem splitPfx_append_escape {pre : List Byte} (hp : ∀ c ∈ pre, (pfxOfByte c).isSome = true) {c : Byte}
    (hc : pfxOfByte c = none) (cs : List Byte) : splitPfx (pre ++ c :: cs) = (pre.map prefixClass, c :: cs) := by
  induction pre with
  | nil => exact splitPfx_cons_none hc cs
  | cons b pre ih =>
    obtain ⟨hb, hpre⟩ := List.forall_mem_cons.1 hp
    rw [List.cons_append, splitPfx_cons_some (pfxOfByte_eq_prefixClass hb), ih hpre]
    rfl

/-- The loop drops no byte, and what it reads are bytes of prefixes. -/
theorem splitPfx_spec (bs : List Byte) :
    ∃ pre, bs = pre ++ (splitPfx bs).2 ∧ (splitPfx bs).1 = pre.map prefixClass ∧
      ∀ c ∈ pre, (pfxOfByte c).isSome = true := by
  induction bs with
  | nil => exact ⟨[], by simp⟩
  | cons c cs ih =>
    cases hc : pfxOfByte c with
    | none => exact ⟨[], by simp [splitPfx_cons_none hc]⟩
    | some p =>
      obtain ⟨pre, hcs, hclass, hpre⟩ := ih
      rw [splitPfx_cons_some hc]
      refine ⟨c :: pre, ?_, ?_, List.forall_mem_cons.2 ⟨by simp [hc], hpre⟩⟩
      · rw [List.cons_append, ← hcs]
      · rw [List.map_cons, prefixClass_of_some hc, hclass]

/-- Bytes read as accepted prefixes are spelled so. -/
theorem map_legacyByte_of_class {pre : List Byte} {ls : List LegacyPrefix}
    (hp : ∀ c ∈ pre, (pfxOfByte c).isSome = true) (h : pre.map prefixClass = ls.map .legacy) :
    pre = ls.map legacyByte := by
  induction pre generalizing ls with
  | nil => simp_all
  | cons c pre ih =>
    cases ls with
    | nil => simp at h
    | cons l ls =>
      obtain ⟨hc, hpre⟩ := List.forall_mem_cons.1 hp
      rw [List.map_cons, List.map_cons, List.cons.injEq] at h
      have hl : c = legacyByte l := legacyByte_of_pfxOfByte (by rw [pfxOfByte_eq_prefixClass hc, h.1])
      rw [List.map_cons, ← hl, ← ih hpre h.2]

/-- Decoding behind bytes of prefixes goes by the escape byte (R96). -/
theorem decode_append_escape {pre : List Byte} (hp : ∀ c ∈ pre, (pfxOfByte c).isSome = true) {c : Byte}
    (hc : pfxOfByte c = none) (cs : List Byte) :
    decode (pre ++ c :: cs) = decodeEscape (pre.map prefixClass) (c :: cs) := by
  rw [decode, splitPfx_append_escape hp hc]

theorem decodeEscape_other {c : Byte} (hvex : c ≠ 0xC4) (hevex : c ≠ 0x62) (ps : List PfxByte) (cs : List Byte) :
    decodeEscape ps (c :: cs) = .refuse .otherOpcode := (if_neg hvex).trans (if_neg hevex)

/-- An escape byte other than C4 and 62, behind any prefixes (R87, D1). -/
theorem decode_otherEscape {pre : List Byte} (hp : ∀ c ∈ pre, (pfxOfByte c).isSome = true) {c : Byte}
    (hc : pfxOfByte c = none) (hvex : c ≠ 0xC4) (hevex : c ≠ 0x62) (cs : List Byte) :
    decode (pre ++ c :: cs) = .refuse .otherOpcode := by
  rw [decode_append_escape hp hc, decodeEscape_other hvex hevex]

/-- Settles O6: C5 is an escape byte other than C4 and 62. -/
theorem twoByteVexIsRefused : Obligations.TwoByteVexIsRefused := fun _ rest hp =>
  decode_otherEscape hp pfxOfByte_C5 (by decide) (by decide) rest

end Sys2Proof
end

section
/-! PROOFS. The decoder's answers, said once: the bytes after the prefixes are refused, too few, or one of the two
layouts (R72, R74, R96). -/

namespace Sys2Proof

/-! ## The layouts -/

/-- The bytes from V1 to the opcode of a VEX form (R72, R82). -/
structure VexMatches (v1 v2 op : Byte) (f : Form) : Prop where
  map : v1 &&& 0x1F#8 = 0x02#8
  wpp : v2 &&& 0x83#8 = 0x01#8
  opcode : formOfOpcode op = some f

/-- The bytes from P0 to the opcode of an EVEX form, but for the bits whose other values are illegal and not refused
(R74, R83, R86). -/
structure EvexMatches (p0 p1 op : Byte) (f : Form) : Prop where
  reserved : p0 &&& 0x0C#8 = 0#8
  map : p0 &&& 0x03#8 = 0x02#8
  wpp : p1 &&& 0x83#8 = 0x01#8
  opcode : formOfOpcode op = some f

/-- The third operand of a VEX form, with X and B from V1 (R72, R78). -/
def vexSrc3Of (v1 modrm : Byte) (rest : List Byte) : Option VexSrc3 :=
  decodeVexSrc3 (~~~v1.extractLsb' 6 1) (~~~v1.extractLsb' 5 1) modrm rest

/-- The third operand of an EVEX form, with X and B from P0 (R74, R78). -/
def evexSrc3Of (p0 modrm : Byte) (rest : List Byte) : Option EvexSrc3 :=
  decodeEvexSrc3 (~~~p0.extractLsb' 6 1) (~~~p0.extractLsb' 5 1) modrm rest

/-- The operands of a VEX form from its bytes (R72, R78). -/
def vexOperandsOf (v1 v2 modrm : Byte) (r : VexSrc3) (pfx : List LegacyPrefix) : VexOperands where
  pfx := pfx
  l := v2.extractLsb' 2 1
  d := ~~~v1.extractLsb' 7 1 ++ modrm.extractLsb' 3 3
  s2 := ~~~v2.extractLsb' 3 4
  src3 := r

/-- The operands of an EVEX form from its bytes (R74, R78, R84, R85). -/
def evexOperandsOf (p0 p1 p2 modrm : Byte) (r : EvexSrc3) (pfx : List LegacyPrefix) : EvexOperands where
  pfx := pfx
  d := ~~~p0.extractLsb' 4 1 ++ ~~~p0.extractLsb' 7 1 ++ modrm.extractLsb' 3 3
  s2 := ~~~p2.extractLsb' 3 1 ++ ~~~p1.extractLsb' 3 4
  z := p2.extractLsb' 7 1
  ll := p2.extractLsb' 5 2
  b := p2.extractLsb' 4 1
  aaa := p2.extractLsb' 0 3
  src3 := r

/-- P1[2] = 0, or zeroing without a mask: illegal (R86). -/
def EvexIllegal (p1 p2 : Byte) : Prop :=
  p1.extractLsb' 2 1 = 0#1 ∨ (p2.extractLsb' 7 1 = 1#1 ∧ p2.extractLsb' 0 3 = 0#3)

/-- Behind prefixes `ps`, none of them an early REX, the bytes are a layout of R72 or R74 and whatever follows it:
`len` counts the prefixes and the layout, and `i` is the instruction, none where R80 or R86 makes it illegal. -/
inductive Layout (ps : List PfxByte) : List Byte → Nat → Option Instr → Prop
  | vex {v1 v2 op modrm : Byte} {rest : List Byte} {f : Form} {r : VexSrc3} (noEarlyRex : rexEarly ps = false)
      (fits : VexMatches v1 v2 op f) (operand : vexSrc3Of v1 modrm rest = some r) :
      Layout ps (0xC4 :: v1 :: v2 :: op :: modrm :: rest) (ps.length + 5 + vexSrc3Len r)
        ((acceptedPfx ps).map fun pfx => vexInstr f (vexOperandsOf v1 v2 modrm r pfx))
  | evexIllegal {p0 p1 p2 op modrm : Byte} {rest : List Byte} {f : Form} {r : EvexSrc3}
      (noEarlyRex : rexEarly ps = false) (fits : EvexMatches p0 p1 op f)
      (operand : evexSrc3Of p0 modrm rest = some r) (illegal : EvexIllegal p1 p2) :
      Layout ps (0x62 :: p0 :: p1 :: p2 :: op :: modrm :: rest) (ps.length + 6 + evexSrc3Len r) none
  | evex {p0 p1 p2 op modrm : Byte} {rest : List Byte} {f : Form} {r : EvexSrc3}
      (noEarlyRex : rexEarly ps = false) (fits : EvexMatches p0 p1 op f)
      (operand : evexSrc3Of p0 modrm rest = some r) (legal : ¬ EvexIllegal p1 p2) :
      Layout ps (0x62 :: p0 :: p1 :: p2 :: op :: modrm :: rest) (ps.length + 6 + evexSrc3Len r)
        ((acceptedPfx ps).map fun pfx => evexInstr f (evexOperandsOf p0 p1 p2 modrm r pfx))

/-! ## The C4 branch -/

theorem decodeEscape_vex (ps : List PfxByte) (v1 v2 op : Byte) (bs : List Byte) :
    decodeEscape ps (0xC4 :: v1 :: v2 :: op :: bs) = decodeVex ps v1 v2 op bs := rfl

theorem decodeVex_not_matches {v1 v2 op : Byte} (h : ∀ f, ¬ VexMatches v1 v2 op f) (ps : List PfxByte)
    (bs : List Byte) : decodeVex ps v1 v2 op bs = .refuse .vexNeighbour := by
  unfold decodeVex
  split
  · rfl
  · next f hf =>
    refine if_pos ?_
    by_contra hn
    obtain ⟨h1, h2⟩ := not_or.1 hn
    exact h f ⟨not_not.1 h1, not_not.1 h2, hf⟩

theorem decodeVex_rexEarly {v1 v2 op : Byte} {f : Form} (h : VexMatches v1 v2 op f) {ps : List PfxByte}
    (hr : rexEarly ps = true) (bs : List Byte) : decodeVex ps v1 v2 op bs = .refuse .rexEarly := by
  simp [decodeVex, h.map, h.wpp, h.opcode, hr]

theorem decodeVex_nil {v1 v2 op : Byte} {f : Form} (h : VexMatches v1 v2 op f) {ps : List PfxByte}
    (hr : rexEarly ps = false) : decodeVex ps v1 v2 op [] = .needMore := by
  simp [decodeVex, h.map, h.wpp, h.opcode, hr]

theorem decodeVex_operand_none {v1 v2 op modrm : Byte} {f : Form} (h : VexMatches v1 v2 op f) {ps : List PfxByte}
    (hr : rexEarly ps = false) {rest : List Byte} (hs : vexSrc3Of v1 modrm rest = none) :
    decodeVex ps v1 v2 op (modrm :: rest) = .needMore := by
  rw [vexSrc3Of] at hs
  simp [decodeVex, h.map, h.wpp, h.opcode, hr, hs]

theorem decodeVex_operand_some {v1 v2 op modrm : Byte} {f : Form} (h : VexMatches v1 v2 op f) {ps : List PfxByte}
    (hr : rexEarly ps = false) {rest : List Byte} {r : VexSrc3} (hs : vexSrc3Of v1 modrm rest = some r) :
    decodeVex ps v1 v2 op (modrm :: rest) = finishDecode (ps.length + 5 + vexSrc3Len r)
      ((acceptedPfx ps).map fun pfx => vexInstr f (vexOperandsOf v1 v2 modrm r pfx)) := by
  rw [vexSrc3Of] at hs
  simp [decodeVex, h.map, h.wpp, h.opcode, hr, hs, vexOperandsOf]

/-! ## The 62 branch -/

theorem decodeEscape_evex (ps : List PfxByte) (p0 p1 p2 op : Byte) (bs : List Byte) :
    decodeEscape ps (0x62 :: p0 :: p1 :: p2 :: op :: bs) = decodeEvex ps p0 p1 p2 op bs := rfl

theorem decodeEvex_reserved {p0 : Byte} (h : p0 &&& 0x0C#8 ≠ 0#8) (ps : List PfxByte) (p1 p2 op : Byte)
    (bs : List Byte) : decodeEvex ps p0 p1 p2 op bs = .refuse .evexReserved := if_pos h

theorem decodeEvex_not_matches {p0 p1 op : Byte} (h0 : p0 &&& 0x0C#8 = 0#8) (h : ∀ f, ¬ EvexMatches p0 p1 op f)
    (ps : List PfxByte) (p2 : Byte) (bs : List Byte) : decodeEvex ps p0 p1 p2 op bs = .refuse .evexNeighbour := by
  refine (if_neg (not_not.2 h0)).trans ?_
  split
  · rfl
  · next f hf =>
    refine if_pos ?_
    by_contra hn
    obtain ⟨h1, h2⟩ := not_or.1 hn
    exact h f ⟨h0, not_not.1 h1, not_not.1 h2, hf⟩

theorem decodeEvex_rexEarly {p0 p1 op : Byte} {f : Form} (h : EvexMatches p0 p1 op f) {ps : List PfxByte}
    (hr : rexEarly ps = true) (p2 : Byte) (bs : List Byte) :
    decodeEvex ps p0 p1 p2 op bs = .refuse .rexEarly := by
  simp [decodeEvex, h.reserved, h.map, h.wpp, h.opcode, hr]

theorem decodeEvex_nil {p0 p1 op : Byte} {f : Form} (h : EvexMatches p0 p1 op f) {ps : List PfxByte}
    (hr : rexEarly ps = false) (p2 : Byte) : decodeEvex ps p0 p1 p2 op [] = .needMore := by
  simp [decodeEvex, h.reserved, h.map, h.wpp, h.opcode, hr]

theorem decodeEvex_operand_none {p0 p1 op modrm : Byte} {f : Form} (h : EvexMatches p0 p1 op f) {ps : List PfxByte}
    (hr : rexEarly ps = false) (p2 : Byte) {rest : List Byte} (hs : evexSrc3Of p0 modrm rest = none) :
    decodeEvex ps p0 p1 p2 op (modrm :: rest) = .needMore := by
  rw [evexSrc3Of] at hs
  simp [decodeEvex, h.reserved, h.map, h.wpp, h.opcode, hr, hs]

theorem decodeEvex_illegal {p0 p1 p2 op modrm : Byte} {f : Form} (h : EvexMatches p0 p1 op f) {ps : List PfxByte}
    (hr : rexEarly ps = false) {rest : List Byte} {r : EvexSrc3} (hs : evexSrc3Of p0 modrm rest = some r)
    (hi : EvexIllegal p1 p2) :
    decodeEvex ps p0 p1 p2 op (modrm :: rest) = finishDecode (ps.length + 6 + evexSrc3Len r) none := by
  rw [evexSrc3Of] at hs
  rw [EvexIllegal] at hi
  simp [decodeEvex, h.reserved, h.map, h.wpp, h.opcode, hr, hs, hi]

theorem decodeEvex_operand_some {p0 p1 p2 op modrm : Byte} {f : Form} (h : EvexMatches p0 p1 op f)
    {ps : List PfxByte} (hr : rexEarly ps = false) {rest : List Byte} {r : EvexSrc3}
    (hs : evexSrc3Of p0 modrm rest = some r) (hi : ¬ EvexIllegal p1 p2) :
    decodeEvex ps p0 p1 p2 op (modrm :: rest) = finishDecode (ps.length + 6 + evexSrc3Len r)
      ((acceptedPfx ps).map fun pfx => evexInstr f (evexOperandsOf p0 p1 p2 modrm r pfx)) := by
  rw [evexSrc3Of] at hs
  rw [EvexIllegal] at hi
  simp [decodeEvex, h.reserved, h.map, h.wpp, h.opcode, hr, hs, hi, evexOperandsOf]

/-! ## What the decoder can answer -/

/-- The bytes are a layout, too few, or refused. -/
inductive Answer (ps : List PfxByte) (bs : List Byte) : Prop
  | refused (why : DecodeRefusal) (h : decodeEscape ps bs = .refuse why)
  | short (h : decodeEscape ps bs = .needMore)
  | complete (len : Nat) (i : Option Instr) (h : Layout ps bs len i)

/-- A layout is decoded by the last tests of R96. -/
theorem Layout.decodeEscape_eq {ps : List PfxByte} {bs : List Byte} {len : Nat} {i : Option Instr}
    (h : Layout ps bs len i) : decodeEscape ps bs = finishDecode len i := by
  cases h with
  | vex hr hm hs => exact decodeVex_operand_some hm hr hs
  | evexIllegal hr hm hs hi => exact decodeEvex_illegal hm hr hs hi
  | evex hr hm hs hi => exact decodeEvex_operand_some hm hr hs hi

theorem answer_vex (ps : List PfxByte) (v1 v2 op : Byte) (bs : List Byte) :
    Answer ps (0xC4 :: v1 :: v2 :: op :: bs) := by
  by_cases hm : ∃ f, VexMatches v1 v2 op f
  · obtain ⟨f, hm⟩ := hm
    cases hr : rexEarly ps with
    | true => exact .refused _ (decodeVex_rexEarly hm hr bs)
    | false =>
      cases bs with
      | nil => exact .short (decodeVex_nil hm hr)
      | cons modrm rest =>
        cases hs : vexSrc3Of v1 modrm rest with
        | none => exact .short (decodeVex_operand_none hm hr hs)
        | some r => exact .complete _ _ (.vex hr hm hs)
  · exact .refused _ (decodeVex_not_matches (not_exists.1 hm) ps bs)

theorem answer_evex (ps : List PfxByte) (p0 p1 p2 op : Byte) (bs : List Byte) :
    Answer ps (0x62 :: p0 :: p1 :: p2 :: op :: bs) := by
  by_cases h0 : p0 &&& 0x0C#8 = 0#8
  · by_cases hm : ∃ f, EvexMatches p0 p1 op f
    · obtain ⟨f, hm⟩ := hm
      cases hr : rexEarly ps with
      | true => exact .refused _ (decodeEvex_rexEarly hm hr p2 bs)
      | false =>
        cases bs with
        | nil => exact .short (decodeEvex_nil hm hr p2)
        | cons modrm rest =>
          cases hs : evexSrc3Of p0 modrm rest with
          | none => exact .short (decodeEvex_operand_none hm hr p2 hs)
          | some r =>
            by_cases hi : EvexIllegal p1 p2
            · exact .complete _ _ (.evexIllegal hr hm hs hi)
            · exact .complete _ _ (.evex hr hm hs hi)
    · exact .refused _ (decodeEvex_not_matches h0 (not_exists.1 hm) ps p2 bs)
  · exact .refused _ (decodeEvex_reserved h0 ps p1 p2 op bs)

/-- What the bytes after the prefixes can be (R96). -/
theorem answer (ps : List PfxByte) (bs : List Byte) : Answer ps bs := by
  cases bs with
  | nil => exact .short rfl
  | cons c bs =>
    by_cases hv : c = 0xC4
    · subst hv
      match bs with
      | v1 :: v2 :: op :: bs => exact answer_vex ps v1 v2 op bs
      | [_, _] | [_] | [] => exact .short rfl
    · by_cases he : c = 0x62
      · subst he
        match bs with
        | p0 :: p1 :: p2 :: op :: bs => exact answer_evex ps p0 p1 p2 op bs
        | [_, _, _] | [_, _] | [_] | [] => exact .short rfl
      · exact .refused _ (decodeEscape_other hv he ps bs)

/-- Bytes that the decoder neither refuses nor finds too few are a layout. -/
theorem layout_of_decodeEscape {ps : List PfxByte} {bs : List Byte} {d : Decoded} (h : decodeEscape ps bs = d)
    (hr : ∀ why, d ≠ .refuse why) (hn : d ≠ .needMore) : ∃ len i, Layout ps bs len i ∧ finishDecode len i = d := by
  cases answer ps bs with
  | refused why h' => exact absurd (h.symm.trans h') (hr why)
  | short h' => exact absurd (h.symm.trans h') hn
  | complete len i hl => exact ⟨len, i, hl, hl.decodeEscape_eq.symm.trans h⟩

theorem finishDecode_eq_ok {len : Nat} {i : Option Instr} {j : Instr} (h : finishDecode len i = .ok j) :
    len ≤ 15 ∧ i = some j := by
  unfold finishDecode at h
  split at h
  · cases h
  · cases i with
    | none => cases h
    | some i => exact ⟨by omega, by simpa using h⟩

theorem finishDecode_eq_tooLong {len n : Nat} {i : Option Instr} (h : finishDecode len i = .tooLong n) :
    len = n ∧ 15 < n := by
  unfold finishDecode at h
  split at h
  · next hlen => injection h with h; exact ⟨h, h ▸ hlen⟩
  · cases i <;> cases h

theorem finishDecode_of_gt {len : Nat} (h : 15 < len) (i : Option Instr) : finishDecode len i = .tooLong len :=
  if_pos h

theorem finishDecode_none_of_le {len : Nat} (h : len ≤ 15) : finishDecode len none = .illegal len :=
  if_neg (Nat.not_lt.2 h)

/-- An accepted instruction's bytes are a layout within the length limit. -/
theorem layout_of_ok {ps : List PfxByte} {bs : List Byte} {i : Instr} (h : decodeEscape ps bs = .ok i) :
    ∃ len, len ≤ 15 ∧ Layout ps bs len (some i) := by
  obtain ⟨len, j, hl, hf⟩ := layout_of_decodeEscape h (by simp) (by simp)
  obtain ⟨hlen, rfl⟩ := finishDecode_eq_ok hf
  exact ⟨len, hlen, hl⟩

end Sys2Proof
end

section
/-! PROOFS. The encoder inverts the decoder (O1, O2): the bytes of a layout are rebuilt field by field from what the
decoder reads of them. -/

namespace Sys2Proof

/-! ## The bytes rebuilt from their fields (R72, R74, R75, R76) -/

theorem byte233_rebuild (c : Byte) : byte233 (c.extractLsb' 6 2) (c.extractLsb' 3 3) (c.extractLsb' 0 3) = c := by
  revert c; decide

theorem vexByte1_rebuild {v1 : Byte} (h : v1 &&& 0x1F#8 = 0x02#8) :
    vexByte1 (~~~v1.extractLsb' 7 1) (~~~v1.extractLsb' 6 1) (~~~v1.extractLsb' 5 1) = v1 := by
  revert v1; decide

theorem vexByte2_rebuild {v2 : Byte} (h : v2 &&& 0x83#8 = 0x01#8) :
    vexByte2 (~~~v2.extractLsb' 3 4) (v2.extractLsb' 2 1) = v2 := by
  revert v2; decide

theorem evexByte0_rebuild {p0 : Byte} (h0 : p0 &&& 0x0C#8 = 0#8) (h : p0 &&& 0x03#8 = 0x02#8) :
    evexByte0 (~~~p0.extractLsb' 7 1) (~~~p0.extractLsb' 6 1) (~~~p0.extractLsb' 5 1) (~~~p0.extractLsb' 4 1) =
      p0 := by
  revert p0; decide

theorem evexByte1_rebuild {p1 : Byte} (h : p1 &&& 0x83#8 = 0x01#8) (h2 : p1.extractLsb' 2 1 ≠ 0#1) :
    evexByte1 (~~~p1.extractLsb' 3 4) = p1 := by
  revert p1; decide

theorem evexByte2_rebuild (p2 : Byte) :
    evexByte2 (p2.extractLsb' 7 1) (p2.extractLsb' 5 2) (p2.extractLsb' 4 1) (~~~p2.extractLsb' 3 1)
      (p2.extractLsb' 0 3) = p2 := by
  revert p2; decide

/-- The fields of a register number put together from its extension bit and its low bits (R78). -/
@[simp] theorem regNumber_hi {w : Nat} (hi : BitVec w) (lo : BitVec 3) : (hi ++ lo).extractLsb' 3 w = hi :=
  BitVec.extractLsb'_append_eq_left

@[simp] theorem regNumber_lo {w : Nat} (hi : BitVec w) (lo : BitVec 3) : (hi ++ lo).extractLsb' 0 3 = lo :=
  BitVec.extractLsb'_append_eq_right

/-- The fields of a 5-bit register number put together from its two extension bits and its low bits (R78). -/
theorem regNumber5_fields (r' r : BitVec 1) (lo : BitVec 3) :
    (r' ++ r ++ lo).extractLsb' 4 1 = r' ∧ (r' ++ r ++ lo).extractLsb' 3 1 = r ∧
      (r' ++ r ++ lo).extractLsb' 0 3 = lo := by
  revert r' r lo; decide

/-- The fields of a 5-bit register number put together from `V'` and `vvvv` (R78). -/
theorem regNumber5_vvvv_fields (v' : BitVec 1) (vvvv : BitVec 4) :
    (v' ++ vvvv).extractLsb' 4 1 = v' ∧ (v' ++ vvvv).extractLsb' 0 4 = vvvv :=
  ⟨BitVec.extractLsb'_append_eq_left, BitVec.extractLsb'_append_eq_right⟩

/-! ## Displacements (R77) -/

/-- The four bytes of a little-endian doubleword. -/
theorem encodeDisp32_le32 (b0 b1 b2 b3 : Byte) : encodeDisp32 (le32 b0 b1 b2 b3) = [b0, b1, b2, b3] := by
  have h0 : (le32 b0 b1 b2 b3).extractLsb' 0 8 = b0 := BitVec.extractLsb'_append_eq_right
  have h1 : (le32 b0 b1 b2 b3).extractLsb' 8 8 = b1 := extractLsb'_append_append (b3 ++ b2) b1 b0
  have h2 : (le32 b0 b1 b2 b3).extractLsb' 16 8 = b2 :=
    (BitVec.extractLsb'_append_eq_of_le (by decide)).trans (extractLsb'_append_append b3 b2 b1)
  have h3 : (le32 b0 b1 b2 b3).extractLsb' 24 8 = b3 :=
    (BitVec.extractLsb'_append_eq_of_le (by decide)).trans
      ((BitVec.extractLsb'_append_eq_of_le (by decide)).trans BitVec.extractLsb'_append_eq_left)
  rw [encodeDisp32, h0, h1, h2, h3]

/-- A 32-bit displacement that is read is spelled by the bytes read. -/
theorem encodeDisp32_of_decode {bs : List Byte} {d : Word32} (h : decodeDisp32 bs = some d) :
    ∃ rest, bs = encodeDisp32 d ++ rest := by
  unfold decodeDisp32 at h
  split at h
  · next b0 b1 b2 b3 rest =>
    injection h with h
    exact ⟨rest, by rw [← h, encodeDisp32_le32]; rfl⟩
  · cases h

/-- The three values of `mod` that call for memory (R75). -/
theorem mod_eq_two {mod : BitVec 2} (h0 : mod ≠ 0#2) (h1 : mod ≠ 1#2) (h3 : mod ≠ 3#2) : mod = 2#2 := by
  revert mod; decide

/-- A displacement that is read is spelled by `mod` and the bytes read. -/
theorem encodeDisp_of_decode {mod : BitVec 2} {bs : List Byte} {d : Disp} (hmod : mod ≠ 3#2)
    (h : decodeDisp mod bs = some d) : dispMod d = mod ∧ ∃ rest, bs = encodeDisp d ++ rest := by
  unfold decodeDisp at h
  split at h
  · next h0 =>
    injection h with h
    subst h
    exact ⟨h0.symm, bs, rfl⟩
  · split at h
    · next h1 =>
      cases bs with
      | nil => cases h
      | cons v rest =>
        injection h with h
        subst h
        exact ⟨h1.symm, rest, rfl⟩
    · next h0 h1 =>
      obtain ⟨d', hd, rfl⟩ := Option.map_eq_some_iff.1 h
      exact ⟨(mod_eq_two h0 h1 hmod).symm, encodeDisp32_of_decode hd⟩

/-! ## Memory operands (R75 to R79) -/

/-- A memory operand that is read is well formed, and is spelled by X, B, `mod`, `rm` and the bytes read. -/
theorem encodeMem_of_decode {x b : BitVec 1} {mod : BitVec 2} {rm : BitVec 3} {bs : List Byte} {m : MemOperand}
    (hmod : mod ≠ 3#2) (h : decodeMem x b mod rm bs = some m) :
    m.wf = true ∧ ∃ tail rest, encodeMem m = ⟨x, b, mod, rm, tail⟩ ∧ bs = tail ++ rest := by
  unfold decodeMem at h
  split at h
  · next hrm =>
    subst hrm
    cases bs with
    | nil => cases h
    | cons sib bs =>
      simp only at h
      split at h
      · next hbase =>
        obtain ⟨d, hd, rfl⟩ := Option.map_eq_some_iff.1 h
        obtain ⟨rest, rfl⟩ := encodeDisp32_of_decode hd
        obtain ⟨rfl, hbase⟩ := hbase
        refine ⟨rfl, sib :: encodeDisp32 d, rest, ?_, rfl⟩
        have hsib := byte233_rebuild sib
        rw [hbase] at hsib
        simp [encodeMem, hsib]
      · next hbase =>
        obtain ⟨d, hd, rfl⟩ := Option.map_eq_some_iff.1 h
        obtain ⟨rfl, rest, rfl⟩ := encodeDisp_of_decode hmod hd
        refine ⟨?_, sib :: encodeDisp d, rest, ?_, rfl⟩
        · cases d <;> simp_all [MemOperand.wf, dispMod]
        · simp [encodeMem, byte233_rebuild]
  · next hrm =>
    split at h
    · next hrip =>
      obtain ⟨d, hd, rfl⟩ := Option.map_eq_some_iff.1 h
      obtain ⟨rest, rfl⟩ := encodeDisp32_of_decode hd
      obtain ⟨rfl, rfl⟩ := hrip
      exact ⟨rfl, encodeDisp32 d, rest, rfl, rfl⟩
    · next hrip =>
      obtain ⟨d, hd, rfl⟩ := Option.map_eq_some_iff.1 h
      obtain ⟨rfl, rest, rfl⟩ := encodeDisp_of_decode hmod hd
      refine ⟨?_, encodeDisp d, rest, by simp [encodeMem], rfl⟩
      cases d <;> simp_all [MemOperand.wf, dispMod]

/-! ## Third operands (R75, R78) -/

/-- The third operand of a VEX form that is read is spelled by the bytes read. -/
theorem encodeVexSrc3_of_decode {x b : BitVec 1} {modrm : Byte} {bs : List Byte} {r : VexSrc3}
    (h : decodeVexSrc3 x b modrm bs = some r) :
    r.wf = true ∧ ∃ tail rest,
      encodeVexSrc3 r = ⟨x, b, modrm.extractLsb' 6 2, modrm.extractLsb' 0 3, tail⟩ ∧ bs = tail ++ rest := by
  unfold decodeVexSrc3 at h
  split at h
  · next hreg =>
    injection h with h
    subst h
    exact ⟨rfl, [], bs, by simp [encodeVexSrc3, hreg], rfl⟩
  · next hmem =>
    obtain ⟨m, hm, rfl⟩ := Option.map_eq_some_iff.1 h
    exact encodeMem_of_decode hmem hm

/-- The third operand of an EVEX form that is read is spelled by the bytes read. -/
theorem encodeEvexSrc3_of_decode {x b : BitVec 1} {modrm : Byte} {bs : List Byte} {r : EvexSrc3}
    (h : decodeEvexSrc3 x b modrm bs = some r) :
    r.wf = true ∧ ∃ tail rest,
      encodeEvexSrc3 r = ⟨x, b, modrm.extractLsb' 6 2, modrm.extractLsb' 0 3, tail⟩ ∧ bs = tail ++ rest := by
  unfold decodeEvexSrc3 at h
  split at h
  · next hreg =>
    injection h with h
    subst h
    exact ⟨rfl, [], bs, by simp [encodeEvexSrc3, hreg, regNumber5_fields], rfl⟩
  · next hmem =>
    obtain ⟨m, hm, rfl⟩ := Option.map_eq_some_iff.1 h
    exact encodeMem_of_decode hmem hm

/-! ## Instructions -/

theorem wellFormed_vexInstr (f : Form) (o : VexOperands) :
    WellFormed (vexInstr f o) ↔ o.src3.wf = true ∧ vexLen o ≤ 15 := by
  have h : (vexInstr f o).wf = o.wf := by cases f <;> rfl
  rw [WellFormed, h]
  simp [VexOperands.wf]

theorem wellFormed_evexInstr (f : Form) (o : EvexOperands) :
    WellFormed (evexInstr f o) ↔ o.src3.wf = true ∧ ¬ (o.z = 1#1 ∧ o.aaa = 0#3) ∧ evexLen o ≤ 15 := by
  have h : (evexInstr f o).wf = o.wf := by cases f <;> rfl
  rw [WellFormed, h]
  simp [EvexOperands.wf, and_assoc, imp_iff_not_or]

@[simp] theorem encode_vexInstr (f : Form) (o : VexOperands) : encode (vexInstr f o) = encodeVex f o := by
  cases f <;> rfl

@[simp] theorem encode_evexInstr (f : Form) (o : EvexOperands) : encode (evexInstr f o) = encodeEvex f o := by
  cases f <;> rfl

/-- A layout within the length limit behind accepted prefixes is well formed and spelled by its bytes. -/
theorem Layout.encode_eq {ls : List LegacyPrefix} {bs : List Byte} {len : Nat} {i : Instr}
    (h : Layout (ls.map .legacy) bs len (some i)) (hlen : len ≤ 15) :
    WellFormed i ∧ ∃ rest, ls.map legacyByte ++ bs = encode i ++ rest := by
  generalize hi : some i = oi at h
  cases h with
  | @vex v1 v2 op modrm bs f r _ fits operand =>
    rw [acceptedPfx_legacy, Option.map_some, Option.some.injEq] at hi
    subst hi
    obtain ⟨hwf, tail, rest, hr, rfl⟩ := encodeVexSrc3_of_decode operand
    rw [List.length_map] at hlen
    refine ⟨(wellFormed_vexInstr ..).2 ⟨hwf, hlen⟩, rest, ?_⟩
    simp [encodeVex_eq, vexOperandsOf, hr, vexByte1_rebuild fits.map, vexByte2_rebuild fits.wpp, byte233_rebuild,
      ← opcodeOfForm_of_formOfOpcode fits.opcode]
  | evexIllegal => cases hi
  | @evex p0 p1 p2 op modrm bs f r _ fits operand legal =>
    rw [acceptedPfx_legacy, Option.map_some, Option.some.injEq] at hi
    subst hi
    obtain ⟨hwf, tail, rest, hr, rfl⟩ := encodeEvexSrc3_of_decode operand
    obtain ⟨hp1, hmask⟩ := not_or.1 legal
    rw [List.length_map] at hlen
    refine ⟨(wellFormed_evexInstr ..).2 ⟨hwf, hmask, hlen⟩, rest, ?_⟩
    simp [encodeEvex_eq, evexOperandsOf, hr, regNumber5_fields, regNumber5_vvvv_fields,
      evexByte0_rebuild fits.reserved fits.map, evexByte1_rebuild fits.wpp hp1, evexByte2_rebuild,
      byte233_rebuild, ← opcodeOfForm_of_formOfOpcode fits.opcode]

/-- An instruction comes out of accepted prefixes alone (R80). -/
theorem Layout.accepted {ps : List PfxByte} {bs : List Byte} {len : Nat} {i : Instr}
    (h : Layout ps bs len (some i)) : ∃ ls : List LegacyPrefix, ps = ls.map .legacy := by
  generalize hi : some i = oi at h
  cases h with
  | evexIllegal => cases hi
  | vex | evex =>
    obtain ⟨ls, hls, _⟩ := Option.map_eq_some_iff.1 hi.symm
    exact ⟨ls, acceptedPfx_some hls⟩

/-- Settles O1: every layout's fields, and then the instruction, are read back. -/
theorem decodeEncodeRoundTrip : Obligations.DecodeEncodeRoundTrip := fun _ rest h => decode_encode h rest

/-- Settles O2: accepted bytes are accepted prefixes and a layout, and the encoder rebuilds both. -/
theorem decodedBytesAreTheEncoding : Obligations.DecodedBytesAreTheEncoding := by
  intro bs i h
  obtain ⟨len, hlen, hl⟩ := layout_of_ok h
  obtain ⟨ls, hls⟩ := hl.accepted
  obtain ⟨pre, hbs, hclass, hpre⟩ := splitPfx_spec bs
  have hspell : pre = ls.map legacyByte := map_legacyByte_of_class hpre (hclass.symm.trans hls)
  rw [hls] at hl
  rw [hbs, hspell]
  exact hl.encode_eq hlen

end Sys2Proof
end

section
/-! PROOFS. The patterns of R82 and R83 (O4, O5): the masked bytes are those of a layout, and of the bytes beside it
each is refused or illegal as R86 and R87 say. -/

namespace Sys2Proof

/-! ## Masked bytes -/

/-- A masked concatenation is compared part by part. -/
theorem append_and_append_eq_iff {u v : Nat} (a m c : BitVec u) (b n d : BitVec v) :
    (a ++ b) &&& (m ++ n) = c ++ d ↔ a &&& m = c ∧ b &&& n = d := by
  rw [BitVec.and_append]
  refine ⟨fun h => ⟨?_, ?_⟩, fun ⟨ha, hb⟩ => by rw [ha, hb]⟩
  · simpa only [BitVec.extractLsb'_append_eq_left] using congrArg (BitVec.extractLsb' v u) h
  · simpa only [BitVec.extractLsb'_append_eq_right] using congrArg (BitVec.extractLsb' 0 v) h

theorem and_fullMask (c : Byte) : c &&& 0xFF#8 = c := BitVec.and_allOnes

theorem formOfOpcode_eq_some_iff {op : Byte} {f : Form} : formOfOpcode op = some f ↔ op = opcodeOfForm f :=
  ⟨opcodeOfForm_of_formOfOpcode, fun h => h ▸ formOfOpcode_opcodeOfForm f⟩

/-- The opcode bytes in scope (R81). -/
theorem opcode_of_formOfOpcode {op : Byte} {f : Form} (h : formOfOpcode op = some f) :
    op = 0x9F ∨ op = 0xAF ∨ op = 0xBF := by
  rw [opcodeOfForm_of_formOfOpcode h]
  cases f <;> simp [opcodeOfForm]

/-- `P1`'s fixed bits, the one of R86 among them. -/
theorem evexByte1_mask_iff (p1 : Byte) :
    p1 &&& 0x87#8 = 0x05#8 ↔ p1 &&& 0x83#8 = 0x01#8 ∧ p1.extractLsb' 2 1 ≠ 0#1 := by
  revert p1; decide

/-- `P0`'s fixed bits. -/
theorem evexByte0_mask_iff (p0 : Byte) :
    p0 &&& 0x0F#8 = 0x02#8 ↔ p0 &&& 0x0C#8 = 0#8 ∧ p0 &&& 0x03#8 = 0x02#8 := by
  revert p0; decide

theorem evexReserved_iff (p0 : Byte) : p0 &&& 0x0C#8 = 0#8 ↔ p0.extractLsb' 2 2 = 0#2 := by
  revert p0; decide

theorem evexMap_iff (p0 : Byte) : p0 &&& 0x03#8 = 0x02#8 ↔ p0.extractLsb' 0 2 = 2#2 := by
  revert p0; decide

theorem vexMap_iff (v1 : Byte) : v1 &&& 0x1F#8 = 0x02#8 ↔ v1.extractLsb' 0 5 = 2#5 := by
  revert v1; decide

/-- W and pp, in `V2` and in `P1` (R72, R74). -/
theorem wpp_iff (c : Byte) : c &&& 0x83#8 = 0x01#8 ↔ c.getLsbD 7 = false ∧ c.extractLsb' 0 2 = 1#2 := by
  revert c; decide

/-- Another W, pp or opcode byte is not the pattern's. -/
theorem not_wppOpcode_neighbour {c op : Byte} {f : Form} (hwpp : c &&& 0x83#8 = 0x01#8)
    (hop : formOfOpcode op = some f) :
    ¬ (c.getLsbD 7 = true ∨ c.extractLsb' 0 2 ≠ 1#2 ∨ (op ≠ 0x9F ∧ op ≠ 0xAF ∧ op ≠ 0xBF)) := by
  obtain ⟨hw, hpp⟩ := (wpp_iff c).1 hwpp
  rintro (h | h | ⟨h1, h2, h3⟩)
  · exact Bool.false_ne_true (hw.symm.trans h)
  · exact h hpp
  · exact (opcode_of_formOfOpcode hop).elim h1 (Or.rec h2 h3)

theorem bit2_eq_zero_iff (c : Byte) : c.extractLsb' 2 1 = 0#1 ↔ c.getLsbD 2 = false := by
  revert c; decide

theorem bit7_eq_one_iff (c : Byte) : c.extractLsb' 7 1 = 1#1 ↔ c.getLsbD 7 = true := by
  revert c; decide

theorem evexIllegal_iff (p1 p2 : Byte) :
    EvexIllegal p1 p2 ↔ p1.getLsbD 2 = false ∨ (p2.getLsbD 7 = true ∧ p2.extractLsb' 0 3 = 0#3) := by
  rw [EvexIllegal, bit2_eq_zero_iff, bit7_eq_one_iff]

/-! ## Behind any prefixes (R87) -/

section prefixes
variable {pre : List Byte} (hp : ∀ c ∈ pre, (pfxOfByte c).isSome = true) (tail : List Byte)
include hp

/-- C4 with another map, W, pp or opcode byte. -/
theorem decode_vexNeighbour {v1 v2 op : Byte} (h : ∀ f, ¬ VexMatches v1 v2 op f) :
    decode (pre ++ 0xC4 :: v1 :: v2 :: op :: tail) = .refuse .vexNeighbour :=
  (decode_append_escape hp pfxOfByte_C4 _).trans (decodeVex_not_matches h _ tail)

/-- 62 with a reserved bit of `P0` set. -/
theorem decode_evexReserved {p0 : Byte} (h : p0 &&& 0x0C#8 ≠ 0#8) (p1 p2 op : Byte) :
    decode (pre ++ 0x62 :: p0 :: p1 :: p2 :: op :: tail) = .refuse .evexReserved :=
  (decode_append_escape hp pfxOfByte_62 _).trans (decodeEvex_reserved h _ p1 p2 op tail)

/-- 62 with another map, W, pp or opcode byte. -/
theorem decode_evexNeighbour {p0 p1 op : Byte} (h0 : p0 &&& 0x0C#8 = 0#8) (h : ∀ f, ¬ EvexMatches p0 p1 op f)
    (p2 : Byte) : decode (pre ++ 0x62 :: p0 :: p1 :: p2 :: op :: tail) = .refuse .evexNeighbour :=
  (decode_append_escape hp pfxOfByte_62 _).trans (decodeEvex_not_matches h0 h _ p2 tail)

end prefixes

/-! ## Behind accepted prefixes -/

/-- Decoding behind accepted prefixes goes by the escape byte. -/
theorem decode_legacy_escape (ps : List LegacyPrefix) {c : Byte} (hc : pfxOfByte c = none) (cs : List Byte) :
    decode (ps.map legacyByte ++ c :: cs) = decodeEscape (ps.map .legacy) (c :: cs) := by
  rw [decode, splitPfx_legacy ps hc]

theorem dispLen_le (d : Disp) : dispLen d ≤ 4 := by cases d <;> simp [dispLen]

/-- A SIB byte and a displacement are at most five bytes (R76, R77). -/
theorem memLen_le (m : MemOperand) : memLen m ≤ 5 := by
  cases m with
  | ripRel _ _ _ | sibNoBase _ _ _ _ => simp [memLen]
  | base _ _ d | sib _ _ _ d => have := dispLen_le d; simp only [memLen]; omega

theorem vexSrc3Len_le (r : VexSrc3) : vexSrc3Len r ≤ 5 := by
  cases r with
  | reg _ _ => simp [vexSrc3Len]
  | mem m => exact memLen_le m

theorem evexSrc3Len_le (r : EvexSrc3) : evexSrc3Len r ≤ 5 := by
  cases r with
  | reg _ => simp [evexSrc3Len]
  | mem m => exact memLen_le m

/-- Six bytes after the opcode hold any third operand of a VEX form. -/
theorem vexSrc3Of_of_length {tail : List Byte} (h : 6 ≤ tail.length) (v1 : Byte) :
    ∃ modrm rest r, tail = modrm :: rest ∧ vexSrc3Of v1 modrm rest = some r := by
  match tail, h with
  | modrm :: rest, h =>
    obtain ⟨r, hr⟩ := Option.isSome_iff_exists.1 (decodeVexSrc3_isSome _ _ modrm (Nat.le_of_succ_le_succ h))
    exact ⟨modrm, rest, r, rfl, hr⟩

/-- Six bytes after the opcode hold any third operand of an EVEX form. -/
theorem evexSrc3Of_of_length {tail : List Byte} (h : 6 ≤ tail.length) (p0 : Byte) :
    ∃ modrm rest r, tail = modrm :: rest ∧ evexSrc3Of p0 modrm rest = some r := by
  match tail, h with
  | modrm :: rest, h =>
    obtain ⟨r, hr⟩ := Option.isSome_iff_exists.1 (decodeEvexSrc3_isSome _ _ modrm (Nat.le_of_succ_le_succ h))
    exact ⟨modrm, rest, r, rfl, hr⟩

theorem vexInstr_form_inj {f g : Form} {o o' : VexOperands} (h : vexInstr f o = vexInstr g o') : f = g := by
  cases f <;> cases g <;> simp [vexInstr] at h ⊢

theorem evexInstr_form_inj {f g : Form} {o o' : EvexOperands} (h : evexInstr f o = evexInstr g o') : f = g := by
  cases f <;> cases g <;> simp [evexInstr] at h ⊢

theorem vexInstr_ne_evexInstr (f g : Form) (o : VexOperands) (o' : EvexOperands) : vexInstr f o ≠ evexInstr g o' := by
  cases f <;> cases g <;> simp [vexInstr, evexInstr]

@[simp] theorem instrLen_vexInstr (f : Form) (o : VexOperands) : instrLen (vexInstr f o) = vexLen o := by
  cases f <;> rfl

@[simp] theorem instrLen_evexInstr (f : Form) (o : EvexOperands) : instrLen (evexInstr f o) = evexLen o := by
  cases f <;> rfl

/-- A layout that answers a VEX row begins with C4 and that row's bytes. -/
theorem Layout.vexMatches {ps : List PfxByte} {b0 b1 b2 b3 : Byte} {tail : List Byte} {len : Nat} {f : Form}
    {o : VexOperands} (h : Layout ps (b0 :: b1 :: b2 :: b3 :: tail) len (some (vexInstr f o))) :
    b0 = 0xC4 ∧ VexMatches b1 b2 b3 f := by
  generalize hi : some (vexInstr f o) = oi at h
  cases h with
  | vex _ fits _ =>
    obtain ⟨_, _, hf⟩ := Option.map_eq_some_iff.1 hi.symm
    exact ⟨rfl, vexInstr_form_inj hf ▸ fits⟩
  | evexIllegal => cases hi
  | evex =>
    obtain ⟨_, _, hf⟩ := Option.map_eq_some_iff.1 hi.symm
    exact absurd hf.symm (vexInstr_ne_evexInstr _ _ _ _)

/-- A layout that answers an EVEX row begins with 62 and that row's bytes, none of them illegal. -/
theorem Layout.evexMatches {ps : List PfxByte} {b0 b1 b2 b3 b4 : Byte} {tail : List Byte} {len : Nat} {f : Form}
    {o : EvexOperands} (h : Layout ps (b0 :: b1 :: b2 :: b3 :: b4 :: tail) len (some (evexInstr f o))) :
    b0 = 0x62 ∧ EvexMatches b1 b2 b4 f ∧ ¬ EvexIllegal b2 b3 := by
  generalize hi : some (evexInstr f o) = oi at h
  cases h with
  | vex =>
    obtain ⟨_, _, hf⟩ := Option.map_eq_some_iff.1 hi.symm
    exact absurd hf (vexInstr_ne_evexInstr _ _ _ _)
  | evexIllegal => cases hi
  | evex _ fits _ legal =>
    obtain ⟨_, _, hf⟩ := Option.map_eq_some_iff.1 hi.symm
    exact ⟨rfl, evexInstr_form_inj hf ▸ fits, legal⟩

/-- The pattern of R82, as its bytes. -/
theorem vexPattern_iff (f : Form) (b0 b1 b2 b3 : Byte) :
    (b0 ++ b1 ++ b2 ++ b3) &&& 0xFF1F83FF#32 = 0xC4#8 ++ 0x02#8 ++ 0x01#8 ++ opcodeOfForm f ↔
      b0 = 0xC4 ∧ VexMatches b1 b2 b3 f := by
  have hmask : 0xFF1F83FF#32 = 0xFF#8 ++ 0x1F#8 ++ 0x83#8 ++ 0xFF#8 := by decide
  rw [hmask, append_and_append_eq_iff, append_and_append_eq_iff, append_and_append_eq_iff, and_fullMask, and_fullMask]
  constructor
  · rintro ⟨⟨⟨h0, hmap⟩, hwpp⟩, hop⟩
    exact ⟨h0, hmap, hwpp, formOfOpcode_eq_some_iff.2 hop⟩
  · rintro ⟨h0, fits⟩
    exact ⟨⟨⟨h0, fits.map⟩, fits.wpp⟩, formOfOpcode_eq_some_iff.1 fits.opcode⟩

/-- The pattern of R83, as its bytes. -/
theorem evexPattern_iff (f : Form) (b0 b1 b2 b3 b4 : Byte) :
    (b0 ++ b1 ++ b2 ++ b3 ++ b4) &&& 0xFF0F8700FF#40 =
        0x62#8 ++ 0x02#8 ++ 0x05#8 ++ 0x00#8 ++ opcodeOfForm f ↔
      b0 = 0x62 ∧ EvexMatches b1 b2 b4 f ∧ b2.extractLsb' 2 1 ≠ 0#1 := by
  have hmask : 0xFF0F8700FF#40 = 0xFF#8 ++ 0x0F#8 ++ 0x87#8 ++ 0x00#8 ++ 0xFF#8 := by decide
  rw [hmask, append_and_append_eq_iff, append_and_append_eq_iff, append_and_append_eq_iff, append_and_append_eq_iff,
    and_fullMask, and_fullMask, evexByte0_mask_iff, evexByte1_mask_iff]
  constructor
  · rintro ⟨⟨⟨⟨h0, hres, hmap⟩, hwpp, hp1⟩, _⟩, hop⟩
    exact ⟨h0, ⟨hres, hmap, hwpp, formOfOpcode_eq_some_iff.2 hop⟩, hp1⟩
  · rintro ⟨h0, fits, hp1⟩
    exact ⟨⟨⟨⟨h0, fits.reserved, fits.map⟩, fits.wpp, hp1⟩, BitVec.and_zero⟩,
      formOfOpcode_eq_some_iff.1 fits.opcode⟩

/-- Four bytes behind accepted prefixes select a VEX row exactly when they match its pattern (R82). -/
theorem vexRow_iff {ps : List LegacyPrefix} (f : Form) {b0 : Byte} (b1 b2 b3 : Byte) {tail : List Byte}
    (hps : ps.length ≤ 5) (hb0 : pfxOfByte b0 = none) (htail : 6 ≤ tail.length) :
    (∃ o, decode (ps.map legacyByte ++ b0 :: b1 :: b2 :: b3 :: tail) = .ok (vexInstr f o)) ↔
      (b0 ++ b1 ++ b2 ++ b3) &&& 0xFF1F83FF#32 = 0xC4#8 ++ 0x02#8 ++ 0x01#8 ++ opcodeOfForm f := by
  rw [vexPattern_iff, decode_legacy_escape ps hb0]
  constructor
  · rintro ⟨o, h⟩
    obtain ⟨_, _, hl⟩ := layout_of_ok h
    exact hl.vexMatches
  · rintro ⟨rfl, fits⟩
    obtain ⟨modrm, rest, r, rfl, hr⟩ := vexSrc3Of_of_length htail b1
    have hlen : (ps.map PfxByte.legacy).length + 5 + vexSrc3Len r ≤ 15 := by
      have := vexSrc3Len_le r
      rw [List.length_map]
      omega
    have hl := Layout.vex (rexEarly_legacy ps) fits hr (v2 := b2)
    rw [acceptedPfx_legacy] at hl
    exact ⟨_, hl.decodeEscape_eq.trans (finishDecode_of_le hlen _)⟩

/-- Five bytes behind accepted prefixes select an EVEX row exactly when they match its pattern and do not ask for
zeroing without a mask (R83, R86). -/
theorem evexRow_iff {ps : List LegacyPrefix} (f : Form) {b0 : Byte} (b1 b2 b3 b4 : Byte) {tail : List Byte}
    (hps : ps.length ≤ 4) (hb0 : pfxOfByte b0 = none) (htail : 6 ≤ tail.length) :
    (∃ o, decode (ps.map legacyByte ++ b0 :: b1 :: b2 :: b3 :: b4 :: tail) = .ok (evexInstr f o)) ↔
      (b0 ++ b1 ++ b2 ++ b3 ++ b4) &&& 0xFF0F8700FF#40 =
          0x62#8 ++ 0x02#8 ++ 0x05#8 ++ 0x00#8 ++ opcodeOfForm f ∧
        ¬ (b3.getLsbD 7 = true ∧ b3.extractLsb' 0 3 = 0#3) := by
  rw [evexPattern_iff, decode_legacy_escape ps hb0, ← bit7_eq_one_iff]
  constructor
  · rintro ⟨o, h⟩
    obtain ⟨_, _, hl⟩ := layout_of_ok h
    obtain ⟨h0, fits, legal⟩ := hl.evexMatches
    obtain ⟨hp1, hmask⟩ := not_or.1 legal
    exact ⟨⟨h0, fits, hp1⟩, hmask⟩
  · rintro ⟨⟨rfl, fits, hp1⟩, hmask⟩
    obtain ⟨modrm, rest, r, rfl, hr⟩ := evexSrc3Of_of_length htail b1
    have hlen : (ps.map PfxByte.legacy).length + 6 + evexSrc3Len r ≤ 15 := by
      have := evexSrc3Len_le r
      rw [List.length_map]
      omega
    have hl := Layout.evex (rexEarly_legacy ps) fits hr (not_or.2 ⟨hp1, hmask⟩)
    rw [acceptedPfx_legacy] at hl
    exact ⟨_, hl.decodeEscape_eq.trans (finishDecode_of_le hlen _)⟩

/-- Settles O4: the masked bytes are those of a VEX layout, and no other bytes after C4 match one. -/
theorem vexPatternSelectsRow : Obligations.VexPatternSelectsRow := by
  refine ⟨?_, ?_, fun pre b0 tail hp hb0 hvex hevex => decode_otherEscape hp hb0 hvex hevex tail⟩
  · intro ps f b0 b1 b2 b3 tail hps hb0 htail
    cases f with
    | f132 => exact vexRow_iff .f132 b1 b2 b3 hps hb0 htail
    | f213 => exact vexRow_iff .f213 b1 b2 b3 hps hb0 htail
    | f231 => exact vexRow_iff .f231 b1 b2 b3 hps hb0 htail
  · intro pre v1 v2 op tail hp h
    refine decode_vexNeighbour hp tail fun f fits => ?_
    have hmap := (vexMap_iff v1).1 fits.map
    exact h.elim (· hmap) (not_wppOpcode_neighbour fits.wpp fits.opcode)

/-- `P1[2]` is no bit of W and pp. -/
theorem setBit2_wpp (p1 : Byte) : (p1 ||| 0x04#8) &&& 0x83#8 = p1 &&& 0x83#8 := by
  revert p1; decide

/-- An EVEX layout with P1[2] = 0, or zeroing without a mask, is illegal, with the length of the legal one that differs
in those bits alone (R86). -/
theorem decode_evexIllegal {ps : List LegacyPrefix} {p0 p1 p2 op : Byte} {tail : List Byte} {i : Instr}
    (hi : EvexIllegal p1 p2)
    (h : decode (ps.map legacyByte ++ 0x62 :: p0 :: (p1 ||| 0x04) :: (p2 &&& 0x7F) :: op :: tail) = .ok i) :
    decode (ps.map legacyByte ++ 0x62 :: p0 :: p1 :: p2 :: op :: tail) = .illegal (instrLen i) := by
  rw [decode_legacy_escape ps pfxOfByte_62] at h ⊢
  obtain ⟨len, hlen, hl⟩ := layout_of_ok h
  generalize hoi : some i = oi at hl
  cases hl with
  | evexIllegal => cases hoi
  | evex hr fits operand _ =>
    rw [acceptedPfx_legacy, Option.map_some, Option.some.injEq] at hoi
    have hwpp : p1 &&& 0x83#8 = 0x01#8 := (setBit2_wpp p1).symm.trans fits.wpp
    have hl := Layout.evexIllegal hr ⟨fits.reserved, fits.map, hwpp, fits.opcode⟩ operand hi
    rw [hl.decodeEscape_eq, finishDecode_none_of_le hlen, hoi, instrLen_evexInstr, List.length_map]
    rfl

/-- Settles O5: the masked bytes are those of a legal EVEX layout; other bytes after 62 are refused, or are an illegal
layout. -/
theorem evexPatternSelectsRow : Obligations.EvexPatternSelectsRow := by
  refine ⟨?_, ?_, fun ps p0 p1 p2 op tail i hi h => decode_evexIllegal ((evexIllegal_iff p1 p2).2 hi) h⟩
  · intro ps f b0 b1 b2 b3 b4 tail hps hb0 htail
    cases f with
    | f132 => exact evexRow_iff .f132 b1 b2 b3 b4 hps hb0 htail
    | f213 => exact evexRow_iff .f213 b1 b2 b3 b4 hps hb0 htail
    | f231 => exact evexRow_iff .f231 b1 b2 b3 b4 hps hb0 htail
  · intro pre p0 p1 p2 op tail hp
    refine ⟨fun h0 => decode_evexReserved hp tail (mt (evexReserved_iff p0).1 h0) p1 p2 op, fun h0 h => ?_⟩
    refine decode_evexNeighbour hp tail ((evexReserved_iff p0).2 h0) (fun f fits => ?_) p2
    have hmap := (evexMap_iff p0).1 fits.map
    exact h.elim (· hmap) (not_wppOpcode_neighbour fits.wpp fits.opcode)

end Sys2Proof
end

section
/-! PROOFS. A well-formed instruction behind any bytes of prefixes (O7): refused for an early REX, too long, or illegal
for one that R80 does not accept. -/

namespace Sys2Proof

/-! ## The bytes behind the prefixes -/

/-- `bs` are `n` bytes that make an instruction behind any accepted prefixes. -/
structure Body (bs : List Byte) (n : Nat) : Prop where
  escape : ∃ c cs, bs = c :: cs ∧ pfxOfByte c = none
  layout : ∀ {ps : List PfxByte} (rest : List Byte), rexEarly ps = false →
    ∃ g : List LegacyPrefix → Instr, Layout ps (bs ++ rest) (ps.length + n) ((acceptedPfx ps).map g)
  refused : ∀ {ps : List PfxByte} (rest : List Byte), rexEarly ps = true →
    decodeEscape ps (bs ++ rest) = .refuse .rexEarly

/-- The bytes of a VEX form behind its prefixes. -/
def vexBody (f : Form) (o : VexOperands) : List Byte :=
  0xC4 :: vexByte1 (o.d.extractLsb' 3 1) (encodeVexSrc3 o.src3).x (encodeVexSrc3 o.src3).b ::
    vexByte2 o.s2 o.l :: opcodeOfForm f ::
    byte233 (encodeVexSrc3 o.src3).mod (o.d.extractLsb' 0 3) (encodeVexSrc3 o.src3).rm :: (encodeVexSrc3 o.src3).tail

/-- The bytes of an EVEX form behind its prefixes. -/
def evexBody (f : Form) (o : EvexOperands) : List Byte :=
  0x62 ::
    evexByte0 (o.d.extractLsb' 3 1) (encodeEvexSrc3 o.src3).x (encodeEvexSrc3 o.src3).b (o.d.extractLsb' 4 1) ::
    evexByte1 (o.s2.extractLsb' 0 4) :: evexByte2 o.z o.ll o.b (o.s2.extractLsb' 4 1) o.aaa :: opcodeOfForm f ::
    byte233 (encodeEvexSrc3 o.src3).mod (o.d.extractLsb' 0 3) (encodeEvexSrc3 o.src3).rm ::
    (encodeEvexSrc3 o.src3).tail

theorem encode_vexInstr_eq_body (f : Form) (o : VexOperands) :
    encode (vexInstr f o) = o.pfx.map legacyByte ++ vexBody f o :=
  (encode_vexInstr f o).trans (encodeVex_eq f o)

theorem encode_evexInstr_eq_body (f : Form) (o : EvexOperands) :
    encode (evexInstr f o) = o.pfx.map legacyByte ++ evexBody f o :=
  (encode_evexInstr f o).trans (encodeEvex_eq f o)

theorem body_vex (f : Form) {o : VexOperands} (h : o.src3.wf = true) :
    Body (vexBody f o) (5 + vexSrc3Len o.src3) := by
  obtain ⟨hmap, _, hx, hb⟩ :=
    vexByte1_fields (o.d.extractLsb' 3 1) (encodeVexSrc3 o.src3).x (encodeVexSrc3 o.src3).b
  have fits : VexMatches _ _ (opcodeOfForm f) f :=
    ⟨hmap, (vexByte2_fields o.s2 o.l).1, formOfOpcode_opcodeOfForm f⟩
  refine ⟨⟨_, _, rfl, pfxOfByte_C4⟩, fun rest hr => ?_, fun rest hr => ?_⟩
  · rw [← Nat.add_assoc]
    refine ⟨_, Layout.vex hr fits ?_⟩
    rw [vexSrc3Of, hx, hb]
    exact decodeVexSrc3_encode h _ rest
  · exact (decodeEscape_vex ..).trans (decodeVex_rexEarly fits hr _)

theorem body_evex (f : Form) {o : EvexOperands} (h : o.src3.wf = true) (hmask : ¬ (o.z = 1#1 ∧ o.aaa = 0#3)) :
    Body (evexBody f o) (6 + evexSrc3Len o.src3) := by
  obtain ⟨hres, hmap, _, hx, hb, _⟩ :=
    evexByte0_fields (o.d.extractLsb' 3 1) (encodeEvexSrc3 o.src3).x (encodeEvexSrc3 o.src3).b (o.d.extractLsb' 4 1)
  obtain ⟨hwpp, hp1, _⟩ := evexByte1_fields (o.s2.extractLsb' 0 4)
  obtain ⟨hz, _, _, _, haaa⟩ := evexByte2_fields o.z o.ll o.b (o.s2.extractLsb' 4 1) o.aaa
  have fits : EvexMatches _ _ (opcodeOfForm f) f := ⟨hres, hmap, hwpp, formOfOpcode_opcodeOfForm f⟩
  refine ⟨⟨_, _, rfl, pfxOfByte_62⟩, fun rest hr => ?_, fun rest hr => ?_⟩
  · rw [← Nat.add_assoc]
    refine ⟨_, Layout.evex hr fits ?_ ?_⟩
    · rw [evexSrc3Of, hx, hb]
      exact decodeEvexSrc3_encode h _ rest
    · rw [EvexIllegal, hp1, hz, haaa]
      simpa using hmask
  · exact (decodeEscape_evex ..).trans (decodeEvex_rexEarly fits hr _ _)

end Sys2Proof

namespace Sys2Proof.Machine

/-! ## Prefixes that are not accepted (R80) -/

theorem pfxOfByte_forbidden {c : Byte} (h : isForbiddenByte c = true) : pfxOfByte c = some (.forbidden c) := by
  revert c; decide

theorem pfxOfByte_rex {c : Byte} (h : isRexByte c = true) : pfxOfByte c = some (.rex c) := by
  revert c; decide

/-- A byte among the prefixes is read as a REX byte exactly where it is one. -/
theorem isRex_prefixClass {c : Byte} (h : (pfxOfByte c).isSome = true) : (prefixClass c).isRex = isRexByte c := by
  revert c; decide

/-- The decoder's test for an early REX is that of the bytes (D13). -/
theorem rexEarly_map_prefixClass {pre : List Byte} (hp : ∀ c ∈ pre, (pfxOfByte c).isSome = true) :
    rexEarly (pre.map prefixClass) = hasEarlyRex pre := by
  rw [rexEarly, hasEarlyRex, ← List.map_dropLast, List.any_map, Bool.eq_iff_iff, List.any_eq_true, List.any_eq_true]
  refine exists_congr fun c => and_congr_right fun hc => ?_
  rw [Function.comp_apply, isRex_prefixClass (hp c (List.mem_of_mem_dropLast hc))]

/-- One that is not accepted is enough (`bad or rex_last` of R96). -/
theorem acceptedPfx_eq_none {ps : List PfxByte} {p : PfxByte} (hp : p ∈ ps) (h : ∀ l, p ≠ .legacy l) :
    acceptedPfx ps = none := by
  by_contra hn
  obtain ⟨ls, hls⟩ := Option.ne_none_iff_exists'.1 hn
  rw [acceptedPfx_some hls] at hp
  obtain ⟨l, _, hl⟩ := List.mem_map.1 hp
  exact h l hl.symm

theorem isSome_pfxOfByte_of_mem_prefixBytes {pre : List Byte} (hp : ∀ c ∈ pre, (pfxOfByte c).isSome = true)
    (i : Instr) : ∀ c ∈ prefixBytes pre i, (pfxOfByte c).isSome = true := fun c hc =>
  (List.mem_append.1 hc).elim (hp c) isSome_pfxOfByte_of_mem_legacy

/-- A forbidden byte, or a REX byte at the end, makes the prefixes unacceptable. -/
theorem acceptedPfx_prefixBytes_eq_none {pre : List Byte} {i : Instr}
    (h : (∃ c ∈ pre, isForbiddenByte c = true) ∨ endsInRex (prefixBytes pre i) = true) :
    acceptedPfx ((prefixBytes pre i).map prefixClass) = none := by
  rcases h with ⟨c, hc, hforb⟩ | hrex
  · refine acceptedPfx_eq_none (List.mem_map_of_mem (List.mem_append_left _ hc)) fun l => ?_
    rw [prefixClass_of_some (pfxOfByte_forbidden hforb)]
    simp
  · obtain ⟨c, hc, hrexc⟩ := (Option.any_eq_true ..).1 hrex
    refine acceptedPfx_eq_none (List.mem_map_of_mem (List.mem_of_getLast? hc)) fun l => ?_
    rw [prefixClass_of_some (pfxOfByte_rex hrexc)]
    simp

/-! ## An instruction behind prefixes -/

/-- Every instruction is a VEX or an EVEX row (R81). -/
theorem instr_cases (i : Instr) :
    (∃ f o, i = vexInstr f o ∧ pfxOf i = o.pfx) ∨ ∃ f o, i = evexInstr f o ∧ pfxOf i = o.pfx := by
  cases i with
  | vfnmsub132ssVex o => exact .inl ⟨.f132, o, rfl, rfl⟩
  | vfnmsub213ssVex o => exact .inl ⟨.f213, o, rfl, rfl⟩
  | vfnmsub231ssVex o => exact .inl ⟨.f231, o, rfl, rfl⟩
  | vfnmsub132ssEvex o => exact .inr ⟨.f132, o, rfl, rfl⟩
  | vfnmsub213ssEvex o => exact .inr ⟨.f213, o, rfl, rfl⟩
  | vfnmsub231ssEvex o => exact .inr ⟨.f231, o, rfl, rfl⟩

/-- A well-formed instruction is its accepted prefixes and a body. -/
theorem exists_body {i : Instr} (h : WellFormed i) :
    ∃ bs n, Body bs n ∧ encode i = (pfxOf i).map legacyByte ++ bs ∧ instrLen i = (pfxOf i).length + n := by
  obtain ⟨f, o, rfl, hpfx⟩ | ⟨f, o, rfl, hpfx⟩ := instr_cases i <;> rw [hpfx]
  · obtain ⟨hsrc, _⟩ := (wellFormed_vexInstr f o).1 h
    refine ⟨_, _, body_vex f hsrc, encode_vexInstr_eq_body f o, ?_⟩
    rw [instrLen_vexInstr, vexLen]
    omega
  · obtain ⟨hsrc, hmask, _⟩ := (wellFormed_evexInstr f o).1 h
    refine ⟨_, _, body_evex f hsrc hmask, encode_evexInstr_eq_body f o, ?_⟩
    rw [instrLen_evexInstr, evexLen]
    omega

section behind
variable {pre : List Byte} (hp : ∀ c ∈ pre, (pfxOfByte c).isSome = true) {i : Instr} (hwf : WellFormed i)
  (rest : List Byte)
include hp hwf

/-- An instruction behind further prefixes is its body behind all of them. -/
theorem decode_prefixBytes_body : ∃ bs n, Body bs n ∧
    decode (pre ++ (encode i ++ rest)) = decodeEscape ((prefixBytes pre i).map prefixClass) (bs ++ rest) ∧
      pre.length + instrLen i = ((prefixBytes pre i).map prefixClass).length + n := by
  obtain ⟨bs, n, hbody, henc, hlen⟩ := exists_body hwf
  refine ⟨bs, n, hbody, ?_, ?_⟩
  · obtain ⟨c, cs, rfl, hc⟩ := hbody.escape
    rw [henc, List.append_assoc, ← List.append_assoc]
    exact decode_append_escape (isSome_pfxOfByte_of_mem_prefixBytes hp i) hc _
  · rw [hlen, List.length_map, prefixBytes, List.length_append, List.length_map, Nat.add_assoc]

/-- An early REX makes the bytes refused (D13). -/
theorem decode_behind_rexEarly (hr : hasEarlyRex (prefixBytes pre i) = true) :
    decode (pre ++ (encode i ++ rest)) = .refuse .rexEarly := by
  obtain ⟨bs, n, hbody, hd, _⟩ := decode_prefixBytes_body hp hwf rest
  rw [hd]
  exact hbody.refused rest ((rexEarly_map_prefixClass (isSome_pfxOfByte_of_mem_prefixBytes hp i)).trans hr)

/-- Without one, the last tests of R96 decide: the length, then the prefixes. -/
theorem decode_behind (hr : hasEarlyRex (prefixBytes pre i) = false) :
    ∃ g : List LegacyPrefix → Instr, decode (pre ++ (encode i ++ rest)) =
      finishDecode (pre.length + instrLen i) ((acceptedPfx ((prefixBytes pre i).map prefixClass)).map g) := by
  obtain ⟨bs, n, hbody, hd, hlen⟩ := decode_prefixBytes_body hp hwf rest
  obtain ⟨g, hg⟩ := hbody.layout rest
    ((rexEarly_map_prefixClass (isSome_pfxOfByte_of_mem_prefixBytes hp i)).trans hr)
  exact ⟨g, by rw [hd, hlen, hg.decodeEscape_eq]⟩

/-- One that is not accepted makes the bytes illegal, within the length limit (R80). -/
theorem decode_behind_illegal (hr : hasEarlyRex (prefixBytes pre i) = false) (hlen : pre.length + instrLen i ≤ 15)
    (hbad : (∃ c ∈ pre, isForbiddenByte c = true) ∨ endsInRex (prefixBytes pre i) = true) :
    decode (pre ++ (encode i ++ rest)) = .illegal (pre.length + instrLen i) := by
  obtain ⟨g, hg⟩ := decode_behind hp hwf rest hr
  rw [hg, acceptedPfx_prefixBytes_eq_none hbad, Option.map_none, finishDecode_none_of_le hlen]

/-- Over 15 bytes the length decides, whatever the prefixes (R70, R174). -/
theorem decode_behind_tooLong (hr : hasEarlyRex (prefixBytes pre i) = false) (hlen : 15 < pre.length + instrLen i) :
    decode (pre ++ (encode i ++ rest)) = .tooLong (pre.length + instrLen i) := by
  obtain ⟨g, hg⟩ := decode_behind hp hwf rest hr
  rw [hg, finishDecode_of_gt hlen]

end behind

/-! ## The step -/

/-- The step of a known illegal near-miss (R86, R174). -/
theorem step_of_decode_illegal {s : State} {n : Nat} (hm : s.mode = .mode64)
    (h : decode (fetchBytes s).1 = .illegal n) :
    step s = if nextPc s n = none then .refused .pcPastTop else .fault (.exception .ud s) := by
  simp [step, fetchInstr, hm, h, illegalEncoding, raise]

/-- Settles O7: the prefixes' tests come before the instruction's own, and the window of 15 bytes holds the
near-miss. -/
theorem rejectedPrefixes : Obligations.RejectedPrefixes := by
  refine ⟨fun pre i rest hp hwf => ⟨decode_behind_rexEarly hp hwf rest, decode_behind_illegal hp hwf rest⟩, ?_⟩
  intro s bs n hm hlen hcode hd
  exact step_of_decode_illegal hm ((decode_fetchBytes hlen hcode (by rw [hd]; simp)).trans hd)

end Sys2Proof.Machine
end

section
/-! PROOFS. Bytes that are refused or too long whatever the window of 15 holds (O8): the window and the bytes past it
give the answer of the whole code. -/

namespace Sys2Proof

/-! ## How many bytes a layout has (R89) -/

theorem vexSrc3Len_le_length {v1 modrm : Byte} {bs : List Byte} {r : VexSrc3} (h : vexSrc3Of v1 modrm bs = some r) :
    vexSrc3Len r ≤ bs.length := by
  obtain ⟨_, tail, rest, hr, rfl⟩ := encodeVexSrc3_of_decode h
  rw [← encodeVexSrc3_length, hr, List.length_append]
  exact Nat.le_add_right ..

theorem evexSrc3Len_le_length {p0 modrm : Byte} {bs : List Byte} {r : EvexSrc3}
    (h : evexSrc3Of p0 modrm bs = some r) : evexSrc3Len r ≤ bs.length := by
  obtain ⟨_, tail, rest, hr, rfl⟩ := encodeEvexSrc3_of_decode h
  rw [← encodeEvexSrc3_length, hr, List.length_append]
  exact Nat.le_add_right ..

/-- A layout is no longer than the bytes it is read from. -/
theorem Layout.len_le {ps : List PfxByte} {bs : List Byte} {len : Nat} {i : Option Instr} (h : Layout ps bs len i) :
    len ≤ ps.length + bs.length := by
  cases h with
  | vex _ _ operand =>
    have := vexSrc3Len_le_length operand
    simp only [List.length_cons]
    omega
  | evexIllegal _ _ operand _ | evex _ _ operand _ =>
    have := evexSrc3Len_le_length operand
    simp only [List.length_cons]
    omega

/-- A layout stands behind no early REX. -/
theorem Layout.noEarlyRex {ps : List PfxByte} {bs : List Byte} {len : Nat} {i : Option Instr}
    (h : Layout ps bs len i) : rexEarly ps = false := by
  cases h with
  | vex hr | evexIllegal hr | evex hr => exact hr

/-- An instruction that is too long is a layout. -/
theorem layout_of_tooLong {bs : List Byte} {n : Nat} (h : decode bs = .tooLong n) :
    ∃ i, Layout (splitPfx bs).1 (splitPfx bs).2 n i := by
  obtain ⟨len, i, hl, hf⟩ := layout_of_decodeEscape h (by simp) (by simp)
  obtain ⟨rfl, _⟩ := finishDecode_eq_tooLong hf
  exact ⟨i, hl⟩

/-- The length of an instruction that is too long is that of bytes read. -/
theorem tooLong_le_length {bs : List Byte} {n : Nat} (h : decode bs = .tooLong n) : n ≤ bs.length := by
  obtain ⟨i, hl⟩ := layout_of_tooLong h
  obtain ⟨pre, hbs, hclass, _⟩ := splitPfx_spec bs
  calc n ≤ (splitPfx bs).1.length + (splitPfx bs).2.length := hl.len_le
    _ = bs.length := by rw [hclass, List.length_map, ← List.length_append, ← hbs]

/-! ## `refusedAnyway` -/

theorem finishDecode_ne_refuse (len : Nat) (i : Option Instr) (why : DecodeRefusal) :
    finishDecode len i ≠ .refuse why := by
  unfold finishDecode
  split
  · simp
  · cases i <;> simp

/-- Bytes that match a VEX pattern behind no early REX are not refused, however many there are. -/
theorem decodeVex_ne_refuse {ps : List PfxByte} {v1 v2 op : Byte} {f : Form} (h : VexMatches v1 v2 op f)
    (hr : rexEarly ps = false) (bs : List Byte) (why : DecodeRefusal) : decodeVex ps v1 v2 op bs ≠ .refuse why := by
  cases bs with
  | nil => rw [decodeVex_nil h hr]; simp
  | cons modrm rest =>
    cases hs : vexSrc3Of v1 modrm rest with
    | none => rw [decodeVex_operand_none h hr hs]; simp
    | some r => rw [decodeVex_operand_some h hr hs]; exact finishDecode_ne_refuse _ _ why

/-- Bytes that match an EVEX pattern behind no early REX are not refused, however many there are. -/
theorem decodeEvex_ne_refuse {ps : List PfxByte} {p0 p1 op : Byte} {f : Form} (h : EvexMatches p0 p1 op f)
    (hr : rexEarly ps = false) (p2 : Byte) (bs : List Byte) (why : DecodeRefusal) :
    decodeEvex ps p0 p1 p2 op bs ≠ .refuse why := by
  cases bs with
  | nil => rw [decodeEvex_nil h hr]; simp
  | cons modrm rest =>
    cases hs : evexSrc3Of p0 modrm rest with
    | none => rw [decodeEvex_operand_none h hr p2 hs]; simp
    | some r =>
      by_cases hi : EvexIllegal p1 p2
      · rw [decodeEvex_illegal h hr hs hi]; exact finishDecode_ne_refuse _ _ why
      · rw [decodeEvex_operand_some h hr hs hi]; exact finishDecode_ne_refuse _ _ why

/-- The first bytes of a VEX layout, completed: each byte is the layout's or the pattern's. -/
theorem padToPattern_vex {bs rest tail : List Byte} {v1 v2 op : Byte}
    (h : bs ++ rest = 0xC4 :: v1 :: v2 :: op :: tail) :
    ∃ v1' v2' op' tail', padToPattern bs = 0xC4 :: v1' :: v2' :: op' :: tail' ∧
      (v1' = v1 ∨ v1' = 0x02#8) ∧ (v2' = v2 ∨ v2' = 0x01#8) ∧ (op' = op ∨ op' = 0x9F#8) := by
  match bs with
  | [] => exact ⟨_, _, _, _, rfl, .inr rfl, .inr rfl, .inr rfl⟩
  | [_] =>
    obtain ⟨rfl, _⟩ := List.cons.inj h
    exact ⟨_, _, _, _, rfl, .inr rfl, .inr rfl, .inr rfl⟩
  | [_, _] =>
    simp only [List.cons_append, List.cons.injEq] at h
    obtain ⟨rfl, rfl, _⟩ := h
    exact ⟨_, _, _, _, rfl, .inl rfl, .inr rfl, .inr rfl⟩
  | [_, _, _] =>
    simp only [List.cons_append, List.cons.injEq] at h
    obtain ⟨rfl, rfl, rfl, _⟩ := h
    exact ⟨_, _, _, _, rfl, .inl rfl, .inl rfl, .inr rfl⟩
  | _ :: _ :: _ :: _ :: _ =>
    simp only [List.cons_append, List.cons.injEq] at h
    obtain ⟨rfl, rfl, rfl, rfl, _⟩ := h
    exact ⟨_, _, _, _, rfl, .inl rfl, .inl rfl, .inl rfl⟩

/-- The first bytes of an EVEX layout, completed: each byte is the layout's or the pattern's. -/
theorem padToPattern_evex {bs rest tail : List Byte} {p0 p1 p2 op : Byte}
    (h : bs ++ rest = 0x62 :: p0 :: p1 :: p2 :: op :: tail) (hbs : bs ≠ []) :
    ∃ p0' p1' p2' op' tail', padToPattern bs = 0x62 :: p0' :: p1' :: p2' :: op' :: tail' ∧
      (p0' = p0 ∨ p0' = 0x02#8) ∧ (p1' = p1 ∨ p1' = 0x05#8) ∧ (op' = op ∨ op' = 0x9F#8) := by
  match bs with
  | [] => exact absurd rfl hbs
  | [_] =>
    obtain ⟨rfl, _⟩ := List.cons.inj h
    exact ⟨_, _, _, _, _, rfl, .inr rfl, .inr rfl, .inr rfl⟩
  | [_, _] =>
    simp only [List.cons_append, List.cons.injEq] at h
    obtain ⟨rfl, rfl, _⟩ := h
    exact ⟨_, _, _, _, _, rfl, .inl rfl, .inr rfl, .inr rfl⟩
  | [_, _, _] =>
    simp only [List.cons_append, List.cons.injEq] at h
    obtain ⟨rfl, rfl, rfl, _⟩ := h
    exact ⟨_, _, _, _, _, rfl, .inl rfl, .inl rfl, .inr rfl⟩
  | [_, _, _, _] =>
    simp only [List.cons_append, List.cons.injEq] at h
    obtain ⟨rfl, rfl, rfl, rfl, _⟩ := h
    exact ⟨_, _, _, _, _, rfl, .inl rfl, .inl rfl, .inr rfl⟩
  | _ :: _ :: _ :: _ :: _ :: _ =>
    simp only [List.cons_append, List.cons.injEq] at h
    obtain ⟨rfl, rfl, rfl, rfl, rfl, _⟩ := h
    exact ⟨_, _, _, _, _, rfl, .inl rfl, .inl rfl, .inl rfl⟩

/-- The pattern's own bytes match in the place of any of them. -/
theorem VexMatches.pad {v1 v2 op v1' v2' op' : Byte} {f : Form} (h : VexMatches v1 v2 op f)
    (h1 : v1' = v1 ∨ v1' = 0x02#8) (h2 : v2' = v2 ∨ v2' = 0x01#8) (h3 : op' = op ∨ op' = 0x9F#8) :
    ∃ f', VexMatches v1' v2' op' f' := by
  have hmap : v1' &&& 0x1F#8 = 0x02#8 := h1.elim (· ▸ h.map) (by rintro rfl; decide)
  have hwpp : v2' &&& 0x83#8 = 0x01#8 := h2.elim (· ▸ h.wpp) (by rintro rfl; decide)
  obtain rfl | rfl := h3
  · exact ⟨f, hmap, hwpp, h.opcode⟩
  · exact ⟨.f132, hmap, hwpp, by decide⟩

theorem EvexMatches.pad {p0 p1 op p0' p1' op' : Byte} {f : Form} (h : EvexMatches p0 p1 op f)
    (h1 : p0' = p0 ∨ p0' = 0x02#8) (h2 : p1' = p1 ∨ p1' = 0x05#8) (h3 : op' = op ∨ op' = 0x9F#8) :
    ∃ f', EvexMatches p0' p1' op' f' := by
  have hres : p0' &&& 0x0C#8 = 0#8 := h1.elim (· ▸ h.reserved) (by rintro rfl; decide)
  have hmap : p0' &&& 0x03#8 = 0x02#8 := h1.elim (· ▸ h.map) (by rintro rfl; decide)
  have hwpp : p1' &&& 0x83#8 = 0x01#8 := h2.elim (· ▸ h.wpp) (by rintro rfl; decide)
  obtain rfl | rfl := h3
  · exact ⟨f, hres, hmap, hwpp, h.opcode⟩
  · exact ⟨.f132, hres, hmap, hwpp, by decide⟩

/-- Behind no early REX, no bytes at all can be refused yet. -/
theorem pad_nil_ne_refuse {ps : List PfxByte} (hr : rexEarly ps = false) (why : DecodeRefusal) :
    decodeEscape ps (padToPattern []) ≠ .refuse why :=
  have fits : VexMatches 0x02 0x01 0x9F .f132 := ⟨by decide, by decide, by decide⟩
  decodeVex_ne_refuse fits hr [] why

/-- The first bytes of a layout, completed to a pattern, are not refused. -/
theorem Layout.pad_ne_refuse {ps : List PfxByte} {bs rest : List Byte} {len : Nat} {i : Option Instr}
    (h : Layout ps (bs ++ rest) len i) (why : DecodeRefusal) : decodeEscape ps (padToPattern bs) ≠ .refuse why := by
  by_cases hbs : bs = []
  · rw [hbs]
    exact pad_nil_ne_refuse h.noEarlyRex why
  · generalize hall : bs ++ rest = all at h
    cases h with
    | vex hr fits _ =>
      obtain ⟨v1, v2, op, tail, hpad, h1, h2, h3⟩ := padToPattern_vex hall
      obtain ⟨f, fits'⟩ := fits.pad h1 h2 h3
      rw [hpad, decodeEscape_vex]
      exact decodeVex_ne_refuse fits' hr tail why
    | evexIllegal hr fits _ _ | evex hr fits _ _ =>
      obtain ⟨p0, p1, p2, op, tail, hpad, h1, h2, h3⟩ := padToPattern_evex hall hbs
      obtain ⟨f, fits'⟩ := fits.pad h1 h2 h3
      rw [hpad, decodeEscape_evex]
      exact decodeEvex_ne_refuse fits' hr p2 tail why

/-- Fewer prefixes have no early REX either. -/
theorem rexEarly_of_append {ps qs : List PfxByte} (h : rexEarly (ps ++ qs) = false) : rexEarly ps = false := by
  by_cases hqs : qs = []
  · rwa [hqs, List.append_nil] at h
  · rw [rexEarly, List.dropLast_append_of_ne_nil hqs, List.any_append, Bool.or_eq_false_iff] at h
    exact List.any_eq_false.2 fun p hp => List.any_eq_false.1 h.1 p (List.mem_of_mem_dropLast hp)

/-- Where the loop has met prefixes alone, it goes on. -/
theorem splitPfx_append_of_nil {bs : List Byte} (h : (splitPfx bs).2 = []) (rest : List Byte) :
    splitPfx (bs ++ rest) = ((splitPfx bs).1 ++ (splitPfx rest).1, (splitPfx rest).2) := by
  induction bs with
  | nil => rfl
  | cons c cs ih =>
    cases hc : pfxOfByte c with
    | none => rw [splitPfx_cons_none hc] at h; cases h
    | some p =>
      rw [splitPfx_cons_some hc] at h ⊢
      rw [List.cons_append, splitPfx_cons_some hc, ih h]
      rfl

/-- The first bytes of an instruction that is too long are not refused however they go on. -/
theorem refusedAnyway_eq_none {bs rest : List Byte} {n : Nat} (h : decode (bs ++ rest) = .tooLong n) :
    refusedAnyway bs = none := by
  obtain ⟨i, hl⟩ := layout_of_tooLong h
  have hne (why : DecodeRefusal) : decodeEscape (splitPfx bs).1 (padToPattern (splitPfx bs).2) ≠ .refuse why := by
    by_cases hnil : (splitPfx bs).2 = []
    · rw [splitPfx_append_of_nil hnil] at hl
      rw [hnil]
      exact pad_nil_ne_refuse (rexEarly_of_append hl.noEarlyRex) why
    · rw [splitPfx_append hnil] at hl
      exact hl.pad_ne_refuse why
  unfold refusedAnyway
  split
  · next why hw => exact absurd hw (hne why)
  · rfl

/-- The loop ends at a byte that is none of them. -/
theorem pfxOfByte_of_splitPfx {bs cs : List Byte} {c : Byte} (h : (splitPfx bs).2 = c :: cs) :
    pfxOfByte c = none := by
  induction bs with
  | nil => cases h
  | cons b bs ih =>
    cases hb : pfxOfByte b with
    | none =>
      rw [splitPfx_cons_none hb] at h
      exact (List.cons.inj h).1 ▸ hb
    | some p =>
      rw [splitPfx_cons_some hb] at h
      exact ih h

/-- Bytes that the decoder decides are prefixes and a byte that is none of them. -/
theorem exists_escape {bs : List Byte} (h : decode bs ≠ .needMore) :
    ∃ pre c cs, bs = pre ++ c :: cs ∧ (∀ b ∈ pre, (pfxOfByte b).isSome = true) ∧ pfxOfByte c = none := by
  obtain ⟨pre, hbs, _, hpre⟩ := splitPfx_spec bs
  cases hs : (splitPfx bs).2 with
  | nil => exact absurd (by rw [decode, hs]; rfl) h
  | cons c cs => exact ⟨pre, c, cs, hs ▸ hbs, hpre, pfxOfByte_of_splitPfx hs⟩

/-- Bytes that are too few have at most ten from the first one on that the loop stops at (R70). -/
theorem length_splitPfx_of_needMore {bs : List Byte} (h : decode bs = .needMore) :
    (splitPfx bs).2.length ≤ 10 := by
  by_contra hlen
  exact decodeEscape_ne_needMore (splitPfx bs).1 (by omega) h

end Sys2Proof

namespace Sys2Proof.Machine

/-! ## The window and the bytes past it (R61, R96) -/

/-- The first bytes of code are code. -/
theorem CodeAtPc.take {s : State} {bs : List Byte} (h : CodeAtPc s bs) (n : Nat) : CodeAtPc s (bs.take n) := by
  intro j
  have hj : j.val < bs.length := j.isLt.trans_le (List.length_take_le' ..)
  simpa using h ⟨j.val, hj⟩

/-- Where 15 bytes of code stand at `pc` they are the window. -/
theorem fetchBytes_of_length_eq {s : State} {bs : List Byte} (h : CodeAtPc s bs) (hlen : bs.length = 15) :
    fetchBytes s = (bs, none) := by
  rw [fetchBytes, fetchFrom_code hlen.le (offset := 0) (by simpa [CodeAtPc] using h), hlen]
  simp [fetchFrom]

/-- Code that the decoder decides is decided in the window, or the window is full and too short and the bytes past it
decide. -/
theorem window_cases {s : State} {bs : List Byte} (h : CodeAtPc s bs) (hd : decode bs ≠ .needMore) :
    decode (fetchBytes s).1 = decode bs ∨
      (decode (fetchBytes s).1 = .needMore ∧ (fetchBytes s).2 = none ∧ decode (bytesAhead s).1 = decode bs) := by
  by_cases hlen : bs.length ≤ 15
  · exact .inl (decode_fetchBytes hlen h hd)
  · have hwin := fetchBytes_of_length_eq (h.take 15) (List.length_take_of_le (by omega))
    rw [hwin]
    by_cases hn : decode (bs.take 15) = .needMore
    · obtain ⟨pre, c, cs, rfl, hpre, hc⟩ := exists_escape hd
      exact .inr ⟨hn, rfl, decode_bytesAhead hpre hc h hd⟩
    · refine .inl ?_
      rw [← decode_append hn (bs.drop 15), List.take_append_drop]

section stop
variable {s : State} {bs : List Byte} {n offset : Nat} {e : FetchStop}

/-- A fetch that stops behind known bytes gives those bytes and the stop, from any offset on. -/
theorem fetchFrom_of_stop (hn : bs.length < n)
    (h : ∀ j : Fin bs.length, fetchByte s (offset + j.val) = .ok bs[j])
    (he : fetchByte s (offset + bs.length) = .error e) : fetchFrom s n offset = (bs, some e) := by
  obtain ⟨k, hk⟩ : ∃ k, n - bs.length = k + 1 := ⟨n - bs.length - 1, by omega⟩
  rw [fetchFrom_code hn.le h, hk, fetchFrom, he, List.append_nil]

/-- So does a run of prefixes, with at most ten bytes from the first other one on. -/
theorem fetchRun_of_stop (hn : bs.length < n)
    (h : ∀ j : Fin bs.length, fetchByte s (offset + j.val) = .ok bs[j])
    (he : fetchByte s (offset + bs.length) = .error e) (hs : (splitPfx bs).2.length ≤ 10) :
    fetchRun s n offset = (bs, some e) := by
  induction bs generalizing n offset with
  | nil =>
    obtain ⟨k, rfl⟩ : ∃ k, n = k + 1 := ⟨n - 1, by omega⟩
    rw [fetchRun, show fetchByte s offset = .error e from he]
  | cons b bs ih =>
    obtain ⟨k, rfl⟩ : ∃ k, n = k + 1 := ⟨n - 1, by omega⟩
    have hb : fetchByte s offset = .ok b := h ⟨0, by simp⟩
    have htail (j : Fin bs.length) : fetchByte s (offset + 1 + j.val) = .ok bs[j] := by
      simpa [Nat.add_assoc, Nat.add_comm 1] using h ⟨j.val + 1, by simp⟩
    have he' : fetchByte s (offset + 1 + bs.length) = .error e := by
      rwa [Nat.add_assoc, Nat.add_comm 1]
    have hk : bs.length < k := Nat.lt_of_succ_lt_succ hn
    cases hc : pfxOfByte b with
    | none =>
      rw [splitPfx_cons_none hc] at hs
      rw [fetchRun_escape hb hc, fetchFrom_of_stop hs htail he']
    | some p =>
      rw [splitPfx_cons_some hc] at hs
      simp only [fetchRun, hb, hc, Option.isSome_some, if_true, ih hk htail he' hs]

end stop

/-- Where the bytes that R96 reads past the window stop behind known ones, they are those. -/
theorem bytesAhead_of_stop {s : State} {bs : List Byte} {e : FetchStop} (h : CodeAtPc s bs)
    (hlen : bs.length < 2 ^ 64) (he : fetchByte s bs.length = .error e) (hs : (splitPfx bs).2.length ≤ 10) :
    bytesAhead s = (bs, some e) :=
  fetchRun_of_stop hlen (by simpa [CodeAtPc] using h) (by rwa [Nat.zero_add]) hs

/-! ## The step -/

/-- Code that the decoder refuses is refused, however long (C14). -/
theorem step_of_code_refuse {s : State} {bs : List Byte} {why : DecodeRefusal} (hm : s.mode ≠ .mode32)
    (h : CodeAtPc s bs) (hd : decode bs = .refuse why) : step s = .refused (.notInScope why) := by
  rcases window_cases h (by rw [hd]; simp) with hwin | ⟨hwin, hstop, hahead⟩
  · simp only [step, fetchInstr, if_neg hm, hwin, hd]
  · rw [step_of_decode_needMore hm hwin, hstop]
    simp only [endedEarly, pastFifteen, hahead, hd]

/-- Code that is too long is so, whatever the window holds (R70). -/
theorem step_of_code_tooLong {s : State} {bs : List Byte} {n : Nat} (hm : s.mode ≠ .mode32)
    (h : CodeAtPc s bs) (hd : decode bs = .tooLong n) : step s = overlong s n := by
  rcases window_cases h (by rw [hd]; simp) with hwin | ⟨hwin, hstop, hahead⟩
  · simp only [step, fetchInstr, if_neg hm, hwin, hd]
  · rw [step_of_decode_needMore hm hwin, hstop]
    simp only [endedEarly, pastFifteen, hahead, hd]

/-- The length fault in 64-bit mode (R70, D4). -/
theorem overlong_mode64 {s : State} (hm : s.mode = .mode64) (n : Nat) :
    overlong s n = if nextPc s n = none then .refused .pcPastTop else .fault (.exception (.gp 0) s) := by
  simp only [overlong, hm, true_and, raise]

/-- An instruction that is too long, of which the window's bytes alone can be read: the length fault (log 9). -/
theorem step_of_unreadable {s : State} {bs : List Byte} {n : Nat} {e : FetchStop} (hm : s.mode ≠ .mode32)
    (hd : decode bs = .tooLong n) (hn : 15 < n) (h : CodeAtPc s (bs.take 15)) (he : fetchByte s 15 = .error e) :
    step s = unreadable s (some e) := by
  have hlen : (bs.take 15).length = 15 := List.length_take_of_le (hn.le.trans (tooLong_le_length hd))
  have hall : decode (bs.take 15 ++ bs.drop 15) = .tooLong n := by rwa [List.take_append_drop]
  have hshort : decode (bs.take 15) = .needMore := by
    by_contra hne
    have := tooLong_le_length ((decode_append hne _).symm.trans hall)
    omega
  have hahead : bytesAhead s = (bs.take 15, some e) :=
    bytesAhead_of_stop h (by omega) (by rwa [hlen]) (length_splitPfx_of_needMore hshort)
  have hwin := fetchBytes_of_length_eq h hlen
  rw [step_of_decode_needMore hm (by rw [hwin, hshort]), hwin]
  simp only [endedEarly, pastFifteen, hahead, hshort, refusedAnyway_eq_none hall]

/-- Settles O8: the window, or the bytes past it, decide as the whole code does; and where those cannot be read, 15
bytes of an instruction that is too long are neither refused nor enough. -/
theorem overlongInstructionFaults : Obligations.OverlongInstructionFaults := by
  refine ⟨fun s bs why => step_of_code_refuse, fun s pre i hm hp hwf hlen hr => ?_⟩
  have hm32 : s.mode ≠ .mode32 := by simp [hm]
  have hd := decode_behind_tooLong hp hwf [] hr hlen
  rw [List.append_nil] at hd
  refine ⟨fun h => (step_of_code_tooLong hm32 h hd).trans (overlong_mode64 hm _), ?_⟩
  rintro h (⟨code, a, he⟩ | ⟨p, he⟩)
  · exact step_of_unreadable hm32 hd hlen h he
  · exact step_of_unreadable hm32 hd hlen h he

end Sys2Proof.Machine
end

section
/-! PROOFS. The address of a memory operand (O41, O42, O43): the displacement's value, the sums of R79 at both address
sizes, and the segment base. -/

namespace Sys2Proof.Machine

/-! ## Displacements (R77) -/

/-- An 8-bit displacement scaled by 4 fits 32 bits. -/
theorem signExtend_mul_four (v : Byte) : (v.signExtend 32 * 4#32).signExtend 64 = v.signExtend 64 * 4#64 := by
  revert v; decide

/-- Under EVEX an 8-bit displacement has the value of the 32-bit one that is four times it. -/
theorem dispValue_d8_evex (v : Byte) : dispValue 4 (.d8 v) = dispValue 4 (.d32 (v.signExtend 32 * 4)) :=
  (signExtend_mul_four v).symm

/-- Under VEX an 8-bit displacement has the value of the 32-bit one that it extends to. -/
theorem dispValue_d8_vex (v : Byte) : dispValue 1 (.d8 v) = dispValue 1 (.d32 (v.signExtend 32)) := by
  revert v; decide

/-- With a base register the length of the instruction does not matter, and the displacement does by its value alone. -/
theorem linearAddr_base_congr (s : State) (pfx : List LegacyPrefix) (n8 : Word64) (len len' : Nat) (x : BitVec 1)
    (r : BitVec 4) {d d' : Disp} (h : dispValue n8 d = dispValue n8 d') :
    linearAddr s ⟨pfx, n8, len, .base x r d⟩ = linearAddr s ⟨pfx, n8, len', .base x r d'⟩ := by
  simp only [linearAddr, effAddr, h]

theorem linearAddr_sib_congr (s : State) (pfx : List LegacyPrefix) (n8 : Word64) (len len' : Nat) (sc : BitVec 2)
    (ix r : BitVec 4) {d d' : Disp} (h : dispValue n8 d = dispValue n8 d') :
    linearAddr s ⟨pfx, n8, len, .sib sc ix r d⟩ = linearAddr s ⟨pfx, n8, len', .sib sc ix r d'⟩ := by
  simp only [linearAddr, effAddr, h]

/-- Settles O41: the address depends on the displacement's value, which is that of the 32-bit one. -/
theorem eightBitDisplacementScaling : Obligations.EightBitDisplacementScaling := by
  intro s pfx len len' x sc ix r v
  exact ⟨linearAddr_base_congr s pfx 4 len len' x r (dispValue_d8_evex v),
    linearAddr_sib_congr s pfx 4 len len' sc ix r (dispValue_d8_evex v),
    linearAddr_base_congr s pfx 1 len len' x r (dispValue_d8_vex v),
    linearAddr_sib_congr s pfx 1 len len' sc ix r (dispValue_d8_vex v)⟩

/-! ## The effective address (R79) -/

@[simp] theorem narrow_false (a : Word64) : narrow false a = a := rfl

theorem narrow_true (a : Word64) : narrow true a = (a.setWidth 32).setWidth 64 := rfl

/-- Narrowing keeps the low doubleword. -/
@[simp] theorem setWidth_narrow (a32 : Bool) (a : Word64) : (narrow a32 a).setWidth 32 = a.setWidth 32 := by
  cases a32 with
  | false => rfl
  | true => rw [narrow_true, BitVec.setWidth_setWidth_of_le _ (by decide), BitVec.setWidth_eq]

/-- The low doubleword of a sum. -/
theorem setWidth_add_word (a b : Word64) : (a + b).setWidth 32 = a.setWidth 32 + b.setWidth 32 :=
  BitVec.setWidth_add a b (by decide)

@[simp] theorem indexValue_none (s : State) (a32 : Bool) (sc : BitVec 2) : indexValue s a32 sc 4 = 0 := if_pos rfl

/-- A scaled index is a product (R79). -/
theorem indexValue_of_ne {s : State} {ix : BitVec 4} (h : ix ≠ 4#4) (sc : BitVec 2) :
    indexValue s false sc ix = s.x[ix.toNat] * BitVec.ofNat 64 (2 ^ sc.toNat) := by
  have hpow : BitVec.twoPow 64 sc.toNat = BitVec.ofNat 64 (2 ^ sc.toNat) :=
    BitVec.eq_of_toNat_eq (by rw [BitVec.toNat_twoPow, BitVec.toNat_ofNat])
  rw [indexValue, if_neg h, narrow_false, BitVec.shiftLeft_eq_mul_twoPow, hpow]
  rfl

/-- The low doubleword of a scaled index does not depend on the address size. -/
theorem setWidth_indexValue (s : State) (a32 : Bool) (sc : BitVec 2) (ix : BitVec 4) :
    (indexValue s a32 sc ix).setWidth 32 = (indexValue s false sc ix).setWidth 32 := by
  unfold indexValue
  split
  · rfl
  · rw [BitVec.setWidth_shiftLeft_of_le (by decide), BitVec.setWidth_shiftLeft_of_le (by decide), setWidth_narrow,
      narrow_false]

/-- Narrowing to 32 bits sees the low doubleword alone. -/
theorem narrow_true_of_setWidth_eq {a b : Word64} (h : a.setWidth 32 = b.setWidth 32) :
    narrow true a = (b.setWidth 32).setWidth 64 := by
  rw [narrow_true, h]

/-- At address size 32 the effective address is the low doubleword of the 64-bit one (R79). -/
theorem effAddr_true (s : State) (n8 : Word64) (len : Nat) (m : MemOperand) :
    effAddr s true n8 len m = ((effAddr s false n8 len m).setWidth 32).setWidth 64 := by
  cases m <;> refine narrow_true_of_setWidth_eq ?_ <;>
    simp only [effAddr, setWidth_add_word, setWidth_narrow, setWidth_indexValue s true]

section sums
variable (s : State) (n8 : Word64) (len : Nat)

theorem effAddr_base (x : BitVec 1) (r : BitVec 4) (d : Disp) :
    effAddr s false n8 len (.base x r d) = s.x[r.toNat] + dispValue n8 d := rfl

theorem effAddr_sib {ix : BitVec 4} (h : ix ≠ 4#4) (sc : BitVec 2) (r : BitVec 4) (d : Disp) :
    effAddr s false n8 len (.sib sc ix r d) =
      s.x[r.toNat] + s.x[ix.toNat] * BitVec.ofNat 64 (2 ^ sc.toNat) + dispValue n8 d := by
  rw [← indexValue_of_ne h]; rfl

theorem effAddr_sib_noIndex (sc : BitVec 2) (r : BitVec 4) (d : Disp) :
    effAddr s false n8 len (.sib sc 4 r d) = s.x[r.toNat] + dispValue n8 d := by
  rw [effAddr, indexValue_none, add_zero]; rfl

theorem effAddr_sibNoBase {ix : BitVec 4} (h : ix ≠ 4#4) (sc : BitVec 2) (b : BitVec 1) (d : Word32) :
    effAddr s false n8 len (.sibNoBase sc ix b d) =
      s.x[ix.toNat] * BitVec.ofNat 64 (2 ^ sc.toNat) + d.signExtend 64 := by
  rw [← indexValue_of_ne h]; rfl

theorem effAddr_sibNoBase_noIndex (sc : BitVec 2) (b : BitVec 1) (d : Word32) :
    effAddr s false n8 len (.sibNoBase sc 4 b d) = d.signExtend 64 := by
  rw [effAddr, indexValue_none, zero_add]; rfl

end sums

/-- Settles O42: each form's sum at address size 64 with each displacement's value, and the low doubleword of it at
address size 32. -/
theorem effectiveAddress : Obligations.EffectiveAddress := by
  intro s n8 len
  refine ⟨fun _ _ _ => rfl, fun x r => ?_, fun x r v => effAddr_base s n8 len x r _,
    fun x r v => effAddr_base s n8 len x r _, fun sc ix r h => ?_, fun sc ix r v h => effAddr_sib s n8 len h sc r _,
    fun sc ix r v h => effAddr_sib s n8 len h sc r _, fun sc r => ?_,
    fun sc r v => effAddr_sib_noIndex s n8 len sc r _, fun sc r v => effAddr_sib_noIndex s n8 len sc r _,
    fun sc ix b d h => effAddr_sibNoBase s n8 len h sc b d, effAddr_sibNoBase_noIndex s n8 len,
    effAddr_true s n8 len⟩
  · rw [effAddr_base, dispValue, add_zero]
  · rw [effAddr_sib s n8 len h, dispValue, add_zero]
  · rw [effAddr_sib_noIndex, dispValue, add_zero]

/-! ## The segment base (R54, R80) -/

/-- Prefixes other than FS and GS add nothing. -/
theorem segBase_of_no_override {s : State} {qs : List LegacyPrefix} (h : ∀ q ∈ qs, q ≠ .fs ∧ q ≠ .gs)
    (acc : Word64) : segBase s qs acc = acc := by
  induction qs with
  | nil => rfl
  | cons q qs ih =>
    obtain ⟨⟨hfs, hgs⟩, hqs⟩ := List.forall_mem_cons.1 h
    cases q with
    | fs => exact absurd rfl hfs
    | gs => exact absurd rfl hgs
    | es | cs | ss | ds | a32 => exact ih hqs

/-- Prefixes are read from the left. -/
theorem segBase_append (s : State) (ps qs : List LegacyPrefix) (acc : Word64) :
    segBase s (ps ++ qs) acc = segBase s qs (segBase s ps acc) := by
  induction ps generalizing acc with
  | nil => rfl
  | cons p ps ih => cases p <;> exact ih _

theorem addrSize32_iff (pfx : List LegacyPrefix) : addrSize32 pfx = true ↔ .a32 ∈ pfx := by
  rw [addrSize32, List.contains_iff_mem]

/-- Settles O43: after the last FS or GS override nothing changes the base. -/
theorem lastSegmentOverrideCounts : Obligations.LastSegmentOverrideCounts := by
  refine ⟨fun s ps qs h => ⟨?_, ?_, segBase_of_no_override h 0⟩, fun s m => ⟨fun h => ?_, fun h => ?_⟩⟩
  · rw [segBase_append]; exact segBase_of_no_override h s.fsBase
  · rw [segBase_append]; exact segBase_of_no_override h s.gsBase
  · rw [linearAddr, Bool.eq_false_iff.2 (mt (addrSize32_iff m.pfx).1 h)]
  · rw [linearAddr, (addrSize32_iff m.pfx).2 h]

end Sys2Proof.Machine
end

section
/-! PROOFS. An enabled instruction from its operands on (O9, O21 to O27, O34): the checks of R174 passed, what runs is
`executeOp` on its record, and where an active element's operand is read and nothing is raised, it delivers. -/

namespace Sys2Proof.Machine

/-! ## The checks passed (R174) -/

/-- The conditions of `VexReady` leave no #UD condition of R171. -/
theorem VexReady.not_undefined {s : State} (h : VexReady s) : vexUndefined s = false := by
  simp [vexUndefined, h.osxsave, h.avx, h.fma]

/-- The conditions of `EvexReady` leave no #UD condition of R172. -/
theorem EvexReady.not_undefined {o : EvexOperands} {s : State} (h : EvexReady o s) : evexUndefined o s = false := by
  simp [evexUndefined, h.osxsave, h.avx, h.avx512, h.avx512f, h.fields]

/-- An enabled VEX form runs steps 3 to 7 of R110 on its record. -/
theorem VexReady.exec_eq {o : VexOperands} {s : State} {next : Word64} (h : VexReady s)
    (hn : nextPc s (vexLen o) = some next) (f : Form) :
    exec (vexInstr f o) s = executeOp (vexOp f o) next s :=
  (exec_vex f o s).trans (executeChecked_ready h.mode hn h.not_undefined h.ts)

/-- An enabled EVEX form runs steps 3 to 7 of R110 on its record. -/
theorem EvexReady.exec_eq {o : EvexOperands} {s : State} {next : Word64} (h : EvexReady o s)
    (hn : nextPc s (evexLen o) = some next) (f : Form) :
    exec (evexInstr f o) s = executeOp (evexOp f o) next s :=
  (exec_evex f o s).trans (executeChecked_ready h.mode hn h.not_undefined h.ts)

/-! ## An active element (R110 steps 4 to 7) -/

theorem active_vexOp (f : Form) (o : VexOperands) (s : State) : active (vexOp f o) s = true := rfl

/-- No writemask, or its bit 0 set, makes the low element active (R113). -/
theorem active_evexOp_of {o : EvexOperands} {s : State} (h : o.aaa = 0#3 ∨ maskBit s (kreg3 o.aaa) = true)
    (f : Form) : active (evexOp f o) s = true := by
  simpa [active_evexOp] using h

/-- The arithmetic of a record is that of its form on its registers (R111). -/
theorem compute_eq_fnmsubOf (op : FmaOp) (s : State) (w : Word32) :
    compute op s w = fnmsubOf op.form s op.dest op.src2 w (roundingOf op s) := by
  simp only [compute, computeWith, fnmsubOf]
  cases op.form <;> rfl

/-- An active element whose operand cannot be read stops there, before the arithmetic (R174, D10). -/
theorem executeOp_stops {op : FmaOp} {next : Word64} {s : State} {e : Stop} (ha : active op s = true)
    (hr : readSrc3 op s = .error e) : executeOp op next s = stopWith e s := by
  simp [executeOp, ha, hr]

/-- Without embedded rounding MXCSR rules: its RC rounds, its masks decide what is raised, and its flags are ORed in
(R114, R156, R157). -/
theorem executeOp_completes {op : FmaOp} {next : Word64} {s : State} {w : Word32} (her : op.er = none)
    (ha : active op s = true) (hr : readSrc3 op s = .ok w)
    (hu : let r := fnmsubOf op.form s op.dest op.src2 w (mxcsrRc s.mxcsr); unmasked r.fl r.tiny s.mxcsr = false) :
    let r := fnmsubOf op.form s op.dest op.src2 w (mxcsrRc s.mxcsr)
    ∃ t, executeOp op next s = .next t ∧ Leaves s t op.dest r.value (mxcsrOr s.mxcsr r.fl) next := by
  have hround : roundingOf op s = mxcsrRc s.mxcsr := by simp [roundingOf, her]
  have hcompute := compute_eq_fnmsubOf op s w
  rw [hround] at hcompute
  have hraises : raisesNumeric op s (compute op s w) = false := by simpa [raisesNumeric, her, hcompute] using hu
  have hdeliver (fl : BitVec 6) : deliveredMxcsr op s fl = mxcsrOr s.mxcsr fl := by simp only [deliveredMxcsr, her]
  rw [executeOp_active ha hr, executeActive_delivers hraises, hdeliver, hcompute]
  exact ⟨_, rfl, complete_leaves op next _ _ s⟩

/-- Under embedded rounding nothing is raised, and the given mode rounds (R114, R115, R158). -/
theorem executeOp_embeddedRounding {op : FmaOp} {next : Word64} {s : State} {w : Word32} {rm : RoundMode}
    (her : op.er = some rm) (ha : active op s = true) (hr : readSrc3 op s = .ok w) :
    let r := fnmsubOf op.form s op.dest op.src2 w rm
    ∃ t, executeOp op next s = .next t ∧ Leaves s t op.dest r.value (deliveredMxcsr op s r.fl) next := by
  have hround : roundingOf op s = rm := by simp [roundingOf, her]
  have hraises : raisesNumeric op s (compute op s w) = false := by simp [raisesNumeric, her]
  rw [executeOp_active ha hr, executeActive_delivers hraises, compute_eq_fnmsubOf, hround]
  exact ⟨_, rfl, complete_leaves op next _ _ s⟩

/-- MXCSR after embedded rounding: as it was, or, under `P_SAE_FLAGS = either` alone, with the flags ORed in (D21). -/
theorem deliveredMxcsr_embeddedRounding {op : FmaOp} {rm : RoundMode} (her : op.er = some rm) (s : State)
    (fl : BitVec 6) :
    (s.cfg.pSaeFlags = .suppressed → deliveredMxcsr op s fl = s.mxcsr) ∧
      (deliveredMxcsr op s fl = s.mxcsr ∨ deliveredMxcsr op s fl = mxcsrOr s.mxcsr fl) := by
  simp only [deliveredMxcsr, her]
  cases s.cfg.pSaeFlags with
  | suppressed => exact ⟨fun _ => rfl, .inl rfl⟩
  | either =>
    refine ⟨nofun, ?_⟩
    cases Config.freeSaeFlags s.draws with
    | false => exact .inl rfl
    | true => exact .inr rfl

/-- No embedded rounding with `b = 0`, nor with a memory operand (R84, R114). -/
theorem evexOp_er_eq_none {o : EvexOperands} (h : o.b = 0#1 ∨ evexSrc3IsReg o.src3 = false) (f : Form) :
    (evexOp f o).er = none := by
  rcases h with h | h <;> simp [evexOp, h]

/-- With `b = 1` and a register operand `L'L` is the rounding mode (R84, R114). -/
theorem evexOp_er_eq_some {o : EvexOperands} {n : BitVec 5} (hb : o.b = 1#1) (hreg : o.src3 = .reg n) (f : Form) :
    (evexOp f o).er = some (roundModeOf o.ll) := by
  simp [evexOp, hb, hreg, evexSrc3IsReg]

/-! ## The six instructions (R116 to R121) -/

/-- An enabled VEX form with SRC3 read and no unmasked exception completes with its own `FNMSUB32` under MXCSR. -/
theorem vexInstr_completes (f : Form) (o : VexOperands) (s : State) (next : Word64) (w : Word32) (h : VexReady s)
    (hn : nextPc s (vexLen o) = some next) (hr : readSrc3 (vexOp f o) s = .ok w) :
    let r := fnmsubOf f s (vreg4 o.d) (vreg4 o.s2) w (mxcsrRc s.mxcsr)
    unmasked r.fl r.tiny s.mxcsr = false →
    ∃ t, exec (vexInstr f o) s = .next t ∧ Leaves s t (vreg4 o.d) r.value (mxcsrOr s.mxcsr r.fl) next := by
  intro r hu
  rw [h.exec_eq hn]
  exact executeOp_completes rfl (active_vexOp f o s) hr hu

/-- An enabled and active EVEX form without embedded rounding, with SRC3 read and no unmasked exception, completes with
its own `FNMSUB32` under MXCSR. -/
theorem evexInstr_completes (f : Form) (o : EvexOperands) (s : State) (next : Word64) (w : Word32)
    (h : EvexReady o s) (hn : nextPc s (evexLen o) = some next) (hb : o.b = 0#1 ∨ evexSrc3IsReg o.src3 = false)
    (ha : o.aaa = 0#3 ∨ maskBit s (kreg3 o.aaa) = true) (hr : readSrc3 (evexOp f o) s = .ok w) :
    let r := fnmsubOf f s (vreg5 o.d) (vreg5 o.s2) w (mxcsrRc s.mxcsr)
    unmasked r.fl r.tiny s.mxcsr = false →
    ∃ t, exec (evexInstr f o) s = .next t ∧ Leaves s t (vreg5 o.d) r.value (mxcsrOr s.mxcsr r.fl) next := by
  intro r hu
  rw [h.exec_eq hn]
  exact executeOp_completes (evexOp_er_eq_none hb f) (active_evexOp_of ha f) hr hu

/-- Settles O9: no check stands between the decoder's answer and `exec`. -/
theorem stepRunsDecodedInstruction : Obligations.StepRunsDecodedInstruction := fun _ _ hm h => step_of_decode_ok hm h

/-- Settles O21: the multiplicands are DEST and SRC3, the subtrahend SRC2. -/
theorem vfnmsub132ssVexCompletes : Obligations.Vfnmsub132ssVexCompletes := vexInstr_completes .f132

/-- Settles O22: the multiplicands are SRC2 and DEST, the subtrahend SRC3. -/
theorem vfnmsub213ssVexCompletes : Obligations.Vfnmsub213ssVexCompletes := vexInstr_completes .f213

/-- Settles O23: the multiplicands are SRC2 and SRC3, the subtrahend DEST. -/
theorem vfnmsub231ssVexCompletes : Obligations.Vfnmsub231ssVexCompletes := vexInstr_completes .f231

/-- Settles O24: the multiplicands are DEST and SRC3, the subtrahend SRC2. -/
theorem vfnmsub132ssEvexCompletes : Obligations.Vfnmsub132ssEvexCompletes := evexInstr_completes .f132

/-- Settles O25: the multiplicands are SRC2 and DEST, the subtrahend SRC3. -/
theorem vfnmsub213ssEvexCompletes : Obligations.Vfnmsub213ssEvexCompletes := evexInstr_completes .f213

/-- Settles O26: the multiplicands are SRC2 and SRC3, the subtrahend DEST (C1). -/
theorem vfnmsub231ssEvexCompletes : Obligations.Vfnmsub231ssEvexCompletes := evexInstr_completes .f231

/-- Settles O27: embedded rounding raises nothing, and D21 decides what becomes of the flags. -/
theorem embeddedRoundingCompletes : Obligations.EmbeddedRoundingCompletes := by
  intro f o n s next h hn hb hreg ha r
  have her := evexOp_er_eq_some hb hreg f
  obtain ⟨t, ht, hleaves⟩ :=
    executeOp_embeddedRounding (next := next) her (active_evexOp_of ha f) (readSrc3_evex_reg hreg f s)
  exact ⟨t, _, (h.exec_eq hn f).trans ht, hleaves, deliveredMxcsr_embeddedRounding her s r.fl⟩

/-- Settles O34: the operand is read before anything is computed (D10, log 25); an absent byte stops the run (D9). -/
theorem memoryOperandStopEndsInstruction : Obligations.MemoryOperandStopEndsInstruction := by
  constructor
  · intro f o s next e h hn hr
    rw [h.exec_eq hn, executeOp_stops (active_vexOp f o s) hr]
  · intro f o s next e h hn ha hr
    rw [h.exec_eq hn, executeOp_stops (active_evexOp_of ha f) hr]

end Sys2Proof.Machine
end

section
/-! PROOFS. A masked-off element (O28, O29): it completes wherever its operand, if it is read all the same, can be read,
and stops as the read stops elsewhere (R113, D22). -/

namespace Sys2Proof.Machine

/-- A writemask whose bit 0 is clear masks the low element off (R113). -/
theorem active_evexOp_eq_false {o : EvexOperands} {s : State} (haaa : o.aaa ≠ 0#3)
    (hmask : maskBit s (kreg3 o.aaa) = false) (f : Form) : active (evexOp f o) s = false := by
  simp [active_evexOp, haaa, hmask]

/-- Bits 31:0 of a masked-off element: zero under zeroing, kept under merging (R113). -/
theorem maskedLow_evexOp (f : Form) (o : EvexOperands) (s : State) :
    maskedLow (evexOp f o) s = if o.z = 1#1 then 0 else lowDword s (vreg5 o.d) := by
  simp only [maskedLow, evexOp, beq_iff_eq]

/-- Only `P_FAULTSUPP = either` lets a masked-off memory operand be read (D22). -/
theorem pFaultSupp_of_maskedAccess {s : State} (h : maskedAccess s = true) : s.cfg.pFaultSupp = .either := by
  unfold maskedAccess at h
  split at h
  · cases h
  · next heither => exact heither

/-- A masked-off element that is read all the same stops as the read stops (D22). -/
theorem executeOp_masked_stops {op : FmaOp} {next : Word64} {s : State} {e : Stop} (ha : active op s = false)
    (hacc : maskedAccess s = true) (hr : readSrc3 op s = .error e) : executeOp op next s = stopWith e s := by
  simp [executeOp, ha, hacc, hr]

/-- A masked-off element completes where a read of its operand, if there is one, succeeds. -/
theorem evexInstr_maskedOff_completes {f : Form} {o : EvexOperands} {s : State} {next : Word64} (h : EvexReady o s)
    (hn : nextPc s (evexLen o) = some next) (haaa : o.aaa ≠ 0#3) (hmask : maskBit s (kreg3 o.aaa) = false)
    (hread : maskedAccess s = true → ∃ w, readSrc3 (evexOp f o) s = .ok w) :
    ∃ t, exec (evexInstr f o) s = .next t ∧
      Leaves s t (vreg5 o.d) (if o.z = 1#1 then 0 else lowDword s (vreg5 o.d)) s.mxcsr next := by
  have ha : active (evexOp f o) s = false := active_evexOp_eq_false haaa hmask f
  rw [h.exec_eq hn, ← maskedLow_evexOp f o s]
  exact ⟨_, (executeOp_masked_next_iff ha).2 ⟨hread, rfl⟩, complete_leaves (evexOp f o) next _ _ s⟩

/-- Settles O28: a register is always readable, and under `no_access` nothing is read. -/
theorem maskedOffElementCompletes : Obligations.MaskedOffElementCompletes := by
  intro f o s next h hn haaa hmask hoperand
  refine evexInstr_maskedOff_completes h hn haaa hmask fun hacc => ?_
  rcases hoperand with hreg | hno
  · cases hsrc : o.src3 with
    | reg n => exact ⟨_, readSrc3_evex_reg hsrc f s⟩
    | mem m => simp [hsrc, evexSrc3IsReg] at hreg
  · simp [pFaultSupp_of_maskedAccess hacc] at hno

/-- Settles O29: an operand that is read and cannot be read is the one way not to complete. -/
theorem maskedOffMemoryEitherOutcome : Obligations.MaskedOffMemoryEitherOutcome := by
  intro f o s next h hn haaa hmask
  cases hr : readSrc3 (evexOp f o) s with
  | ok w => exact .inl (evexInstr_maskedOff_completes h hn haaa hmask fun _ => ⟨w, hr⟩)
  | error e =>
    cases hacc : maskedAccess s with
    | false => exact .inl (evexInstr_maskedOff_completes h hn haaa hmask fun hacc' => by simp [hacc] at hacc')
    | true =>
      refine .inr ⟨pFaultSupp_of_maskedAccess hacc, e, rfl, ?_⟩
      rw [h.exec_eq hn, executeOp_masked_stops (active_evexOp_eq_false haaa hmask f) hacc hr]

end Sys2Proof.Machine
end

section
/-! PROOFS. The two encodings of a form (O40): an unmasked EVEX record without embedded rounding is a VEX record but for
its third operand and its length, and those enter only through the read of SRC3 and the advance of `pc`. -/

namespace Sys2Proof.Machine

/-- A record with another third operand and another length. -/
def FmaOp.withSrc3 (op : FmaOp) (r : Src3) (len : Nat) : FmaOp := { op with src3 := r, len := len }

/-- With the operand read, what an active element does depends on neither the third operand nor the length, and on the
next `pc` only in the `pc` that it leaves. -/
theorem executeActive_withSrc3 (op : FmaOp) (r : Src3) (len : Nat) (next next' : Word64) (s : State) (w : Word32) :
    executeActive (op.withSrc3 r len) next' s w = withPc next' (executeActive op next s w) := by
  cases h : raisesNumeric op s (compute op s w) with
  | false =>
    have h' : raisesNumeric (op.withSrc3 r len) s (compute (op.withSrc3 r len) s w) = false := h
    rw [executeActive_delivers h, executeActive_delivers h']
    rfl
  | true =>
    have h' : raisesNumeric (op.withSrc3 r len) s (compute (op.withSrc3 r len) s w) = true := h
    rw [executeActive_raises h, executeActive_raises h']
    rfl

theorem withPc_stopWith (next : Word64) (e : Stop) (s : State) : withPc next (stopWith e s) = stopWith e s := by
  cases e <;> rfl

/-- Active records that differ in the third operand and the length alone, and read the same, run alike but for the next
`pc`. -/
theorem executeOp_withSrc3 {op : FmaOp} {r : Src3} {len : Nat} {s : State} (ha : active op s = true)
    (hread : readSrc3 (op.withSrc3 r len) s = readSrc3 op s) (next next' : Word64) :
    executeOp (op.withSrc3 r len) next' s = withPc next' (executeOp op next s) := by
  have ha' : active (op.withSrc3 r len) s = true := ha
  cases hr : readSrc3 op s with
  | ok w => rw [executeOp_active ha hr, executeOp_active ha' (hread.trans hr), executeActive_withSrc3]
  | error e => rw [executeOp_stops ha hr, executeOp_stops ha' (hread.trans hr), withPc_stopWith]

/-- With `aaa = 000b`, `z = 0`, `b = 0` and the same registers the EVEX record is the VEX record but for its third
operand and its length. -/
theorem evexOp_eq_vexOp {ov : VexOperands} {oe : EvexOperands} (hd : oe.d.toNat = ov.d.toNat)
    (hs2 : oe.s2.toNat = ov.s2.toNat) (haaa : oe.aaa = 0#3) (hz : oe.z = 0#1) (hb : oe.b = 0#1) (f : Form) :
    evexOp f oe = (vexOp f ov).withSrc3 (evexOp f oe).src3 (evexLen oe) := by
  have hdest : vreg5 oe.d = vreg4 ov.d := Fin.ext hd
  have hsrc2 : vreg5 oe.s2 = vreg4 ov.s2 := Fin.ext hs2
  simp [FmaOp.withSrc3, evexOp, vexOp, hdest, hsrc2, haaa, hz, hb]

/-- The same register, or memory at the same address through the same segment, is read alike by both encodings. -/
theorem readSrc3_evex_eq_vex {ov : VexOperands} {oe : EvexOperands} {s : State}
    (h : (∃ x n m, ov.src3 = .reg x n ∧ oe.src3 = .reg m ∧ m.toNat = n.toNat) ∨
      ∃ m m', ov.src3 = .mem m ∧ oe.src3 = .mem m' ∧
        linearAddr s ⟨oe.pfx, 4, evexLen oe, m'⟩ = linearAddr s ⟨ov.pfx, 1, vexLen ov, m⟩ ∧
        usesSs ⟨oe.pfx, 4, evexLen oe, m'⟩ = usesSs ⟨ov.pfx, 1, vexLen ov, m⟩) (f : Form) :
    readSrc3 (evexOp f oe) s = readSrc3 (vexOp f ov) s := by
  rcases h with ⟨x, n, m, hv, he, hnum⟩ | ⟨m, m', hv, he, haddr, hss⟩
  · have hreg : vreg5 m = vreg4 n := Fin.ext hnum
    rw [readSrc3_vex_reg hv, readSrc3_evex_reg he, hreg]
  · rw [readSrc3_vex_mem hv, readSrc3_evex_mem he, haddr, hss]

/-- Where the VEX forms may run, so may the EVEX forms with `b = 0` and `L'L` other than 11b, if AVX-512 is there and
enabled (R171, R172). -/
theorem VexReady.evexReady {s : State} {o : EvexOperands} (h : VexReady s) (h512 : avx512StateOn s = true)
    (hf : s.cfg.hasAvx512f = true) (hb : o.b = 0#1) (hll : o.ll ≠ 3#2) : EvexReady o s where
  mode := h.mode
  osxsave := h.osxsave
  avx := h.avx
  avx512 := h512
  avx512f := hf
  fields := by simp [evexFieldIllegal, hb, hll]
  ts := h.ts

/-- Settles O40: the records differ in the third operand and the length alone, and both operands read the same. -/
theorem vexAndEvexAgree : Obligations.VexAndEvexAgree := by
  intro f ov oe s nv ne h h512 hf hnv hne hd hs2 haaa hz hb hll hsrc3
  have hop := evexOp_eq_vexOp hd hs2 haaa hz hb f
  have hread := readSrc3_evex_eq_vex hsrc3 f
  rw [hop] at hread
  rw [h.exec_eq hnv, (h.evexReady h512 hf hb hll).exec_eq hne, hop]
  exact executeOp_withSrc3 (active_vexOp f ov s) hread nv ne

end Sys2Proof.Machine
end

section
/-! PROOFS. The layout of a binary32 word (R140): a word is its sign and its low 31 bits, the class of a word is a range
of the low 31 bits, and DAZ and the change of sign act on one of the two. -/

namespace Sys2Proof.Machine

/-- The low 31 bits of a word: biased exponent and fraction (R140). -/
def lowBits (u : Word32) : Nat := u.toNat % 2 ^ 31

theorem lowBits_lt (u : Word32) : lowBits u < 2 ^ 31 := Nat.mod_lt _ (by decide)

theorem expOf_eq (u : Word32) : expOf u = lowBits u / 2 ^ 23 := by
  simp only [expOf, lowBits, BitVec.extractLsb'_toNat, Nat.shiftRight_eq_div_pow]
  omega

theorem fracOf_eq (u : Word32) : fracOf u = lowBits u % 2 ^ 23 := by
  simp only [fracOf, lowBits, BitVec.extractLsb'_toNat, Nat.shiftRight_zero]
  omega

theorem signOf_eq (u : Word32) : signOf u = decide (2 ^ 31 ≤ u.toNat) := BitVec.msb_eq_decide u

/-! ## Classes (R140) -/

theorem isZero_iff {u : Word32} : isZero u = true ↔ lowBits u = 0 := by
  simp only [isZero, expOf_eq, fracOf_eq, Bool.and_eq_true, beq_iff_eq]
  omega

theorem isDenormal_iff {u : Word32} : isDenormal u = true ↔ 0 < lowBits u ∧ lowBits u < 2 ^ 23 := by
  simp only [isDenormal, expOf_eq, fracOf_eq, Bool.and_eq_true, beq_iff_eq, bne_iff_ne]
  omega

theorem isInf_iff {u : Word32} : isInf u = true ↔ lowBits u = 255 * 2 ^ 23 := by
  have := lowBits_lt u
  simp only [isInf, expOf_eq, fracOf_eq, Bool.and_eq_true, beq_iff_eq]
  omega

theorem isNaN_iff {u : Word32} : isNaN u = true ↔ 255 * 2 ^ 23 < lowBits u := by
  have := lowBits_lt u
  simp only [isNaN, expOf_eq, fracOf_eq, Bool.and_eq_true, beq_iff_eq, bne_iff_ne]
  omega

theorem isFinite_iff {u : Word32} : isFinite u = true ↔ lowBits u < 255 * 2 ^ 23 := by
  have := lowBits_lt u
  simp only [isFinite, expOf_eq, bne_iff_ne]
  omega

/-! ## A word from its sign and its low bits -/

theorem packWord_toNat (neg : Bool) (n : Nat) : (packWord neg n).toNat = neg.toNat * 2 ^ 31 + n % 2 ^ 31 := by
  rw [packWord, BitVec.toNat_append, ← Nat.shiftLeft_add_eq_or_of_lt (BitVec.isLt _), Nat.shiftLeft_eq,
    BitVec.toNat_ofBool, BitVec.toNat_ofNat]

theorem signOf_packWord (neg : Bool) (n : Nat) : signOf (packWord neg n) = neg := by
  rw [signOf_eq, packWord_toNat]
  cases neg <;> simp only [Bool.toNat_false, Bool.toNat_true, decide_eq_true_eq, decide_eq_false_iff_not] <;> omega

theorem lowBits_packWord_mod (neg : Bool) (n : Nat) : lowBits (packWord neg n) = n % 2 ^ 31 := by
  rw [lowBits, packWord_toNat]
  omega

theorem lowBits_packWord (neg : Bool) {n : Nat} (h : n < 2 ^ 31) : lowBits (packWord neg n) = n := by
  rw [lowBits_packWord_mod, Nat.mod_eq_of_lt h]

/-- A word is its sign and its low 31 bits (R140). -/
theorem packWord_signOf_lowBits (u : Word32) : packWord (signOf u) (lowBits u) = u := by
  apply BitVec.eq_of_toNat_eq
  have hlt : u.toNat < 2 ^ 32 := u.isLt
  rw [packWord_toNat, lowBits, signOf_eq]
  by_cases h : 2 ^ 31 ≤ u.toNat
  · rw [decide_eq_true h, Bool.toNat_true]
    omega
  · rw [decide_eq_false h, Bool.toNat_false]
    omega

theorem word_ext {u w : Word32} (hs : signOf u = signOf w) (hl : lowBits u = lowBits w) : u = w := by
  rw [← packWord_signOf_lowBits u, hs, hl, packWord_signOf_lowBits]

/-! ## The sign flipped -/

theorem signOf_flipSign (u : Word32) : signOf (flipSign u) = !signOf u := by
  simp [signOf, flipSign]

theorem lowBits_flipSign (u : Word32) : lowBits (flipSign u) = lowBits u := by
  rw [lowBits, lowBits, flipSign, BitVec.toNat_xor, ← Nat.and_two_pow_sub_one_eq_mod, Nat.and_xor_distrib_right,
    Nat.and_two_pow_sub_one_eq_mod, Nat.and_two_pow_sub_one_eq_mod]
  simp

theorem flipSign_packWord (neg : Bool) (n : Nat) : flipSign (packWord neg n) = packWord (!neg) n := by
  apply word_ext
  · rw [signOf_flipSign, signOf_packWord, signOf_packWord]
  · rw [lowBits_flipSign, lowBits_packWord_mod, lowBits_packWord_mod]

/-- What depends on the low bits alone does not see the sign. -/
theorem classes_flipSign (u : Word32) :
    isZero (flipSign u) = isZero u ∧ isDenormal (flipSign u) = isDenormal u ∧ isInf (flipSign u) = isInf u ∧
      isNaN (flipSign u) = isNaN u ∧ isFinite (flipSign u) = isFinite u := by
  simp only [isZero, isDenormal, isInf, isNaN, isFinite, expOf_eq, fracOf_eq, lowBits_flipSign, and_self]

/-! ## DAZ (R144) -/

theorem signOf_dazOf (daz : Bool) (u : Word32) : signOf (dazOf daz u) = signOf u := by
  unfold dazOf
  split
  · simp [signOf]
  · rfl

theorem lowBits_dazOf_denormal {u : Word32} (h : isDenormal u = true) : lowBits (dazOf true u) = 0 := by
  have hmask : (0x80000000 : Nat) &&& (2 ^ 31 - 1) = 0 := by decide
  rw [dazOf, h, Bool.true_and, if_pos rfl, lowBits, BitVec.toNat_and, ← Nat.and_two_pow_sub_one_eq_mod, Nat.and_assoc]
  exact (congrArg _ hmask).trans (Nat.and_zero _)

/-- DAZ gives the operand or, for a denormal one, the zero of its sign. -/
theorem dazOf_cases (daz : Bool) (u : Word32) :
    dazOf daz u = u ∨ (isDenormal u = true ∧ lowBits (dazOf daz u) = 0) := by
  cases daz with
  | false => exact .inl rfl
  | true =>
    cases h : isDenormal u with
    | false => exact .inl (dazOf_of_not_denormal true h)
    | true => exact .inr ⟨rfl, lowBits_dazOf_denormal h⟩

/-- DAZ makes no NaN, infinity or finite number and takes none away. -/
theorem classes_dazOf (daz : Bool) (u : Word32) :
    isNaN (dazOf daz u) = isNaN u ∧ isInf (dazOf daz u) = isInf u ∧ isFinite (dazOf daz u) = isFinite u := by
  rcases dazOf_cases daz u with h | ⟨hu, h⟩
  · simp only [h, and_self]
  · obtain ⟨_, hlt⟩ := isDenormal_iff.1 hu
    have hexp : expOf u = 0 := by rw [expOf_eq]; omega
    simp [isNaN, isInf, isFinite, expOf_eq (dazOf daz u), h, hexp]

theorem isNaN_dazOf (daz : Bool) (u : Word32) : isNaN (dazOf daz u) = isNaN u := (classes_dazOf daz u).1

theorem isInf_dazOf (daz : Bool) (u : Word32) : isInf (dazOf daz u) = isInf u := (classes_dazOf daz u).2.1

theorem dazOf_of_isNaN (daz : Bool) {u : Word32} (h : isNaN u = true) : dazOf daz u = u := by
  refine dazOf_of_not_denormal daz (Bool.eq_false_iff.2 fun hd => ?_)
  have hn := isNaN_iff.1 h
  obtain ⟨_, hlt⟩ := isDenormal_iff.1 hd
  omega

theorem noNaN_dazOf {daz : Bool} {x y z : Word32} :
    NoNaN (dazOf daz x) (dazOf daz y) (dazOf daz z) ↔ NoNaN x y z := by
  simp only [NoNaN, isNaN_dazOf]

theorem dazOf_flipSign (daz : Bool) (u : Word32) : dazOf daz (flipSign u) = flipSign (dazOf daz u) := by
  obtain ⟨_, hd, _⟩ := classes_flipSign u
  cases h : daz && isDenormal u with
  | false => rw [dazOf, dazOf, hd, h]; rfl
  | true =>
    refine word_ext (by rw [signOf_dazOf, signOf_flipSign, signOf_flipSign, signOf_dazOf]) ?_
    obtain ⟨rfl, h⟩ := Bool.and_eq_true_iff.1 h
    rw [lowBits_flipSign, lowBits_dazOf_denormal h, lowBits_dazOf_denormal (hd.trans h)]

/-- Settles O44: step 1 of R143 is DAZ, and a second DAZ that is off changes nothing. -/
theorem dazReadsDenormalsAsZeros : Obligations.DazReadsDenormalsAsZeros := by
  refine ⟨fun _ _ _ _ _ _ _ => rfl, fun u h => ?_, fun u h => dazOf_of_not_denormal true h, fun _ => rfl⟩
  have hlow := lowBits_dazOf_denormal h
  refine ⟨by rw [dazOf, h]; rfl, isZero_iff.2 hlow, Bool.eq_false_iff.2 fun hd => ?_, signOf_dazOf true u⟩
  have := isDenormal_iff.1 hd
  omega

end Sys2Proof.Machine
end

section
/-! PROOFS. The branches of R143 that return before the rounding (O45 to O49), and that the multiplicands commute
(O58). -/

namespace Sys2Proof.Machine

/-! ## The branches as statements about the operands (R145 to R149) -/

/-- The terms are infinities of opposite sign (R147). -/
def OppositeInfinities (x y z : Word32) : Prop :=
  (isInf x = true ∨ isInf y = true) ∧ isInf z = true ∧ signProd x y ≠ signSub z

section branches
variable {x y z : Word32} (pick : Nat) (ie : Bool) (rm : RoundMode) (ftz : Bool)

theorem not_noNaN_iff : ¬ NoNaN x y z ↔ (isNaN x || isNaN y || isNaN z) = true := by
  rw [← Bool.not_eq_false, NoNaN, Bool.or_eq_false_iff, Bool.or_eq_false_iff, and_assoc]

theorem noNaN_iff : NoNaN x y z ↔ (isNaN x || isNaN y || isNaN z) = false := by
  rw [NoNaN, Bool.or_eq_false_iff, Bool.or_eq_false_iff, and_assoc]

theorem zeroTimesInf_iff : ZeroTimesInf x y ↔ ((isZero x && isInf y) || (isInf x && isZero y)) = true := by
  simp only [ZeroTimesInf, Bool.or_eq_true, Bool.and_eq_true]

theorem oppositeInfinities_iff :
    OppositeInfinities x y z ↔ ((isInf x || isInf y) && isInf z && (signProd x y != signSub z)) = true := by
  simp only [OppositeInfinities, Bool.and_eq_true, Bool.or_eq_true, bne_iff_ne, and_assoc]

/-- R145 comes first. -/
theorem fnmsubCore_of_nan (h : ¬ NoNaN x y z) : fnmsubCore pick ie x y z rm ftz = nanResult pick ie x y z := by
  rw [fnmsubCore, if_pos (not_noNaN_iff.1 h)]

/-- R146. -/
theorem fnmsubCore_of_zeroTimesInf (hn : NoNaN x y z) (h : ZeroTimesInf x y) :
    fnmsubCore pick ie x y z rm ftz = ⟨indefinite, flagIE, false⟩ := by
  rw [fnmsubCore, noNaN_iff.1 hn, zeroTimesInf_iff.1 h]
  rfl

/-- R147. -/
theorem fnmsubCore_of_oppositeInfinities (hn : NoNaN x y z) (hzi : ¬ ZeroTimesInf x y)
    (h : OppositeInfinities x y z) : fnmsubCore pick ie x y z rm ftz = ⟨indefinite, flagIE, false⟩ := by
  rw [fnmsubCore, noNaN_iff.1 hn, Bool.eq_false_iff.2 (mt zeroTimesInf_iff.2 hzi), oppositeInfinities_iff.1 h]
  rfl

/-- R149, an infinite product. -/
theorem fnmsubCore_of_infProduct (hn : NoNaN x y z) (hzi : ¬ ZeroTimesInf x y) (hop : ¬ OppositeInfinities x y z)
    (h : isInf x = true ∨ isInf y = true) :
    fnmsubCore pick ie x y z rm ftz = ⟨infOf (signProd x y), denormalFlag x y z, false⟩ := by
  rw [fnmsubCore, noNaN_iff.1 hn, Bool.eq_false_iff.2 (mt zeroTimesInf_iff.2 hzi),
    Bool.eq_false_iff.2 (mt oppositeInfinities_iff.2 hop), Bool.or_eq_true_iff.2 h]
  rfl

/-- R149, an infinite subtrahend alone. -/
theorem fnmsubCore_of_infSubtrahend (hn : NoNaN x y z) (hx : isInf x = false) (hy : isInf y = false)
    (hz : isInf z = true) : fnmsubCore pick ie x y z rm ftz = ⟨infOf (signSub z), denormalFlag x y z, false⟩ := by
  rw [fnmsubCore, noNaN_iff.1 hn]
  simp [hx, hy, hz]

/-- With no NaN and no infinity the operands are finite (R140). -/
theorem finiteOperands_of (hn : NoNaN x y z) (hx : isInf x = false) (hy : isInf y = false) (hz : isInf z = false) :
    FiniteOperands x y z := by
  have finite {u : Word32} (hn : isNaN u = false) (hi : isInf u = false) : isFinite u = true := by
    rw [← Bool.not_eq_true, isNaN_iff] at hn
    rw [← Bool.not_eq_true, isInf_iff] at hi
    rw [isFinite_iff]
    omega
  obtain ⟨nx, ny, nz⟩ := hn
  exact ⟨finite nx hx, finite ny hy, finite nz hz⟩

end branches

/-! ## NaN operands (R145) -/

theorem isSNaN_dazOf (daz : Bool) (u : Word32) : isSNaN (dazOf daz u) = isSNaN u := by
  cases h : isNaN u with
  | true => rw [dazOf_of_isNaN daz h]
  | false => simp [isSNaN, isNaN_dazOf, h]

theorem mem_nanOperands {n x y z : Word32} :
    n ∈ nanOperands x y z ↔ (n = x ∨ n = y ∨ n = z) ∧ isNaN n = true := by
  simp [nanOperands]

/-- A NaN operand as DAZ reads it is the operand. -/
theorem nanOperands_dazOf (daz : Bool) (x y z : Word32) :
    nanOperands (dazOf daz x) (dazOf daz y) (dazOf daz z) = nanOperands x y z := by
  have keep (u : Word32) (us : List Word32) (ws : List Word32) (h : us.filter isNaN = ws.filter isNaN) :
      (dazOf daz u :: us).filter isNaN = (u :: ws).filter isNaN := by
    rw [List.filter_cons, List.filter_cons, isNaN_dazOf, h]
    split
    · next hu => rw [dazOf_of_isNaN daz hu]
    · rfl
  exact keep _ _ _ (keep _ _ _ (keep _ _ _ rfl))

/-- The NaN result is the quieted copy of a NaN operand. -/
theorem nanResult_value {x y z : Word32} (h : ¬ NoNaN x y z) (pick : Nat) (ie : Bool) :
    ∃ n ∈ nanOperands x y z, (nanResult pick ie x y z).value = quiet n := by
  have hpos : 0 < (nanOperands x y z).length := by
    rw [List.length_pos_iff_exists_mem]
    rw [not_noNaN_iff, Bool.or_eq_true, Bool.or_eq_true] at h
    simpa [mem_nanOperands, or_and_right, exists_or, or_assoc] using h
  have hlt : pick % (nanOperands x y z).length < (nanOperands x y z).length := Nat.mod_lt _ hpos
  exact ⟨_, List.getElem_mem hlt, by simp only [nanResult, List.getD_eq_getElem _ _ hlt]⟩

/-- The default of `P_NAN` picks the first NaN operand (D18). -/
theorem nanResult_value_first {x y z : Word32} (h : ¬ NoNaN x y z) (ie : Bool) :
    (nanResult 0 ie x y z).value = if isNaN x then quiet x else if isNaN y then quiet y else quiet z := by
  rw [not_noNaN_iff] at h
  cases hx : isNaN x <;> cases hy : isNaN y <;> cases hz : isNaN z <;>
    simp [nanResult, nanOperands, hx, hy, hz] at h ⊢

/-- A signalling NaN is invalid (R145). -/
theorem nanResult_fl_of_snan {x y z : Word32} (h : isSNaN x = true ∨ isSNaN y = true ∨ isSNaN z = true)
    (pick : Nat) (ie : Bool) : (nanResult pick ie x y z).fl = flagIE := by
  rw [← or_assoc, ← Bool.or_eq_true, ← Bool.or_eq_true] at h
  exact if_pos h

/-- Quiet NaNs alone are invalid only with zero times infinity, where the parameter has it (R145, D19). -/
theorem nanResult_fl_of_quiet {x y z : Word32} (h : isSNaN x = false ∧ isSNaN y = false ∧ isSNaN z = false)
    (pick : Nat) (ie : Bool) :
    (ie = true ∧ ZeroTimesInf x y → (nanResult pick ie x y z).fl = flagIE) ∧
    (¬ (ie = true ∧ ZeroTimesInf x y) → (nanResult pick ie x y z).fl = flagNone) := by
  obtain ⟨hx, hy, hz⟩ := h
  rw [zeroTimesInf_iff, ← Bool.and_eq_true]
  refine ⟨fun hi => ?_, fun hi => ?_⟩
  · simp only [nanResult, hx, hy, hz, hi, Bool.or_false, Bool.false_eq_true, if_false, if_true]
  · simp only [nanResult, hx, hy, hz, hi, Bool.or_false, Bool.false_eq_true, if_false]

/-- What the configuration makes of `P_NAN` and `P_IE_INFZERO_QNAN` (D18, D19; logs 11, 12). -/
theorem nanParameters (s : State) :
    (s.cfg.pNan = .firstInOperationOrder → nanPick s = 0) ∧
    (s.cfg.pIeInfZeroQnan = .noFlag → ieInfZero s = false) ∧ (s.cfg.pIeInfZeroQnan = .ie → ieInfZero s = true) := by
  refine ⟨fun h => ?_, fun h => ?_, fun h => ?_⟩
  · simp only [nanPick, h]
  · simp only [ieInfZero, h]
  · simp only [ieInfZero, h]

/-- Settles O45: R145 is the first branch, and its tests see the operands that DAZ leaves as they are. -/
theorem nanOperandResult : Obligations.NanOperandResult := by
  refine ⟨fun pick ie x y z rm daz ftz h => ?_, nanParameters⟩
  have h' : ¬ NoNaN (dazOf daz x) (dazOf daz y) (dazOf daz z) := mt noNaN_dazOf.1 h
  have hfl := nanResult_fl_of_quiet (x := dazOf daz x) (y := dazOf daz y) (z := dazOf daz z)
  simp only [isSNaN_dazOf] at hfl
  rw [fnmsub32, fnmsubCore_of_nan _ _ _ _ h']
  refine ⟨?_, ?_, fun hs => ?_, fun hq hie => ?_, fun hq hie => ⟨fun hzi => ?_, fun hzi => ?_⟩, rfl⟩
  · obtain ⟨n, hn, hv⟩ := nanResult_value h' pick ie
    rw [nanOperands_dazOf, mem_nanOperands] at hn
    exact ⟨n, hn.1, hn.2, hv⟩
  · rintro rfl
    rw [nanResult_value_first h', isNaN_dazOf, isNaN_dazOf]
    rw [not_noNaN_iff] at h
    split
    · next hx => rw [dazOf_of_isNaN daz hx]
    · next hx =>
      split
      · next hy => rw [dazOf_of_isNaN daz hy]
      · next hy =>
        have hz : isNaN z = true := by simpa [hx, hy] using h
        rw [dazOf_of_isNaN daz hz]
  · exact nanResult_fl_of_snan (by simpa only [isSNaN_dazOf] using hs) pick ie
  · exact (hfl hq pick ie).2 fun h => by simp [hie] at h
  · exact (hfl hq pick ie).1 ⟨hie, hzi⟩
  · exact (hfl hq pick ie).2 fun h => hzi h.2

/-! ## Invalid operations and infinite operands (R146, R147, R149) -/

/-- Settles O46: R146 is the branch after the NaN operands. -/
theorem invalidMultiplication : Obligations.InvalidMultiplication := fun _ _ _ _ _ _ _ _ hn hzi =>
  fnmsubCore_of_zeroTimesInf _ _ _ _ (noNaN_dazOf.2 hn) hzi

/-- DAZ changes neither the infinities nor the signs of R147. -/
theorem oppositeInfinities_dazOf {daz : Bool} {x y z : Word32} :
    OppositeInfinities (dazOf daz x) (dazOf daz y) (dazOf daz z) ↔
      (isInf x = true ∨ isInf y = true) ∧ isInf z = true ∧ (!(signOf x ^^ signOf y)) ≠ !signOf z := by
  simp only [OppositeInfinities, isInf_dazOf, signProd, signSub, signOf_dazOf]

/-- Settles O47: R147 is the branch after R146. -/
theorem invalidSubtraction : Obligations.InvalidSubtraction := fun _ _ _ _ _ _ _ _ hn hzi hxy hz hsign =>
  fnmsubCore_of_oppositeInfinities _ _ _ _ (noNaN_dazOf.2 hn) hzi (oppositeInfinities_dazOf.2 ⟨hxy, hz, hsign⟩)

/-- The flags of R148 are DE or none. -/
theorem denormalFlag_cases (x y z : Word32) : denormalFlag x y z = flagDE ∨ denormalFlag x y z = flagNone := by
  unfold denormalFlag
  split
  · exact .inl rfl
  · exact .inr rfl

theorem denormalFlag_only_de (x y z : Word32) : denormalFlag x y z &&& ~~~flagDE = 0 := by
  rcases denormalFlag_cases x y z with h | h <;> rw [h] <;> decide

theorem infOf_eq (neg : Bool) : infOf neg = if neg then 0xFF800000 else 0x7F800000 := by cases neg <;> rfl

theorem zeroOf_eq (neg : Bool) : zeroOf neg = if neg then 0x80000000 else 0 := by cases neg <;> rfl

/-- An infinity with its sign flipped (R149). -/
theorem infOf_signSub {z : Word32} (h : isInf z = true) : infOf (signSub z) = flipSign z := by
  apply word_ext
  · rw [infOf, signOf_packWord, signSub, signOf_flipSign]
  · rw [infOf, lowBits_packWord _ (by decide), lowBits_flipSign, isInf_iff.1 h]
    rfl

/-- Settles O48: the two branches of R149. -/
theorem validInfinities : Obligations.ValidInfinities := by
  intro pick ie x y z rm daz ftz hn hzi r
  have hn' : NoNaN (dazOf daz x) (dazOf daz y) (dazOf daz z) := noNaN_dazOf.2 hn
  have hprod (hxy : isInf x = true ∨ isInf y = true)
      (hz : isInf z = true → (!(signOf x ^^ signOf y)) = !signOf z) :
      r = ⟨infOf (!(signOf x ^^ signOf y)), denormalFlag (dazOf daz x) (dazOf daz y) (dazOf daz z), false⟩ := by
    rw [← isInf_dazOf daz x, ← isInf_dazOf daz y] at hxy
    have hop : ¬ OppositeInfinities (dazOf daz x) (dazOf daz y) (dazOf daz z) :=
      fun h => (oppositeInfinities_dazOf.1 h).2.2 (hz (oppositeInfinities_dazOf.1 h).2.1)
    rw [← signOf_dazOf daz x, ← signOf_dazOf daz y]
    exact fnmsubCore_of_infProduct _ _ _ _ hn' hzi hop hxy
  have hsub (hx : isInf x = false) (hy : isInf y = false) (hz : isInf z = true) :
      r = ⟨flipSign z, denormalFlag (dazOf daz x) (dazOf daz y) (dazOf daz z), false⟩ := by
    rw [← infOf_signSub hz, signSub, ← signOf_dazOf daz z]
    rw [← isInf_dazOf daz] at hx hy hz
    exact fnmsubCore_of_infSubtrahend _ _ _ _ hn' hx hy hz
  refine ⟨fun hxy hz => ?_, fun ⟨hx, hy⟩ hz => ?_, ?_⟩
  · rw [hprod hxy hz, infOf_eq]
  · rw [hsub hx hy hz]
  · rintro (⟨hxy, hz⟩ | ⟨hx, hy, hz⟩)
    · rw [hprod hxy hz]
      exact ⟨denormalFlag_only_de _ _ _, rfl⟩
    · rw [hsub hx hy hz]
      exact ⟨denormalFlag_only_de _ _ _, rfl⟩

/-! ## An exact zero (R150) -/

/-- Finite operands with an exact zero return it (R143 step 8). -/
theorem fnmsub32_exactZero {daz : Bool} {x y z : Word32}
    (hf : FiniteOperands (dazOf daz x) (dazOf daz y) (dazOf daz z))
    (hv : exactValue (dazOf daz x) (dazOf daz y) (dazOf daz z) = 0) (pick : Nat) (ie : Bool) (rm : RoundMode)
    (ftz : Bool) :
    fnmsub32 pick ie x y z rm daz ftz = ⟨exactZero rm (dazOf daz x) (dazOf daz y) (dazOf daz z),
      denormalFlag (dazOf daz x) (dazOf daz y) (dazOf daz z), false⟩ := by
  rw [fnmsub32, fnmsubCore_finite hf, finiteResult_zero hv]

/-- The sign of an exact zero: two zero terms of one sign keep it, and else round down alone makes it minus. -/
theorem exactZero_eq (rm : RoundMode) (x y z : Word32) :
    exactZero rm x y z =
      if (isZero x = true ∨ isZero y = true) ∧ isZero z = true ∧ signProd x y = signSub z then zeroOf (signSub z)
      else zeroOf (decide (rm = .rd)) := by
  simp only [exactZero, Bool.and_eq_true, Bool.or_eq_true, beq_iff_eq, and_assoc]
  split
  · next h => rw [h.2.2]
  · rfl

/-- Settles O49: step 8 of R143, with R150's two cases. -/
theorem exactZeroSign : Obligations.ExactZeroSign := by
  intro pick ie x₀ y₀ z₀ rm daz ftz x y z hf hv r
  have hr : r = ⟨exactZero rm x y z, denormalFlag x y z, false⟩ := fnmsub32_exactZero hf hv pick ie rm ftz
  rw [hr]
  refine ⟨fun h => ?_, fun h => ?_, denormalFlag_only_de _ _ _, rfl⟩
  · exact (exactZero_eq rm x y z).trans ((if_pos h).trans (zeroOf_eq _))
  · refine (exactZero_eq rm x y z).trans ((if_neg h).trans ((zeroOf_eq _).trans ?_))
    simp only [decide_eq_true_eq]

/-! ## The multiplicands commute (R161) -/

theorem signProd_comm (x y : Word32) : signProd x y = signProd y x := by
  rw [signProd, signProd, Bool.xor_comm]

theorem denormalFlag_comm (x y z : Word32) : denormalFlag x y z = denormalFlag y x z := by
  rw [denormalFlag, denormalFlag, Bool.or_comm (isDenormal x)]

theorem exactValue_comm (x y z : Word32) : exactValue x y z = exactValue y x z := by
  rw [exactValue, exactValue, Int.mul_comm]

theorem exactZero_comm (rm : RoundMode) (x y z : Word32) : exactZero rm x y z = exactZero rm y x z := by
  rw [exactZero, exactZero, Bool.or_comm (isZero x), signProd_comm x y]

theorem finiteResult_comm (rm : RoundMode) (ftz : Bool) (fl : BitVec 6) (x y z : Word32) :
    finiteResult rm ftz fl x y z = finiteResult rm ftz fl y x z := by
  rw [finiteResult, finiteResult, exactValue_comm x y, exactZero_comm rm x y]

theorem noNaN_swap {x y z : Word32} (h : NoNaN x y z) : NoNaN y x z := by
  obtain ⟨hx, hy, hz⟩ := h
  exact ⟨hy, hx, hz⟩

/-- Past R145 every test and every result of R143 treats the multiplicands alike. -/
theorem fnmsubCore_comm {x y z : Word32} (h : NoNaN x y z) (pick : Nat) (ie : Bool) (rm : RoundMode) (ftz : Bool) :
    fnmsubCore pick ie x y z rm ftz = fnmsubCore pick ie y x z rm ftz := by
  have hzi : ((isZero x && isInf y) || (isInf x && isZero y)) = ((isZero y && isInf x) || (isInf y && isZero x)) := by
    rw [Bool.or_comm, Bool.and_comm (isInf x), Bool.and_comm (isZero x)]
  rw [fnmsubCore, fnmsubCore, if_neg (Bool.eq_false_iff.1 (noNaN_iff.1 h)),
    if_neg (Bool.eq_false_iff.1 (noNaN_iff.1 (noNaN_swap h))), hzi, Bool.or_comm (isInf x), signProd_comm x,
    denormalFlag_comm x, finiteResult_comm _ _ _ x]

/-- Settles O58: DAZ reads each multiplicand by itself. -/
theorem multiplicandsCommute : Obligations.MultiplicandsCommute := fun _ _ _ _ _ _ _ _ h =>
  fnmsubCore_comm (noNaN_dazOf.2 h) _ _ _ _

end Sys2Proof.Machine
end

section
/-! PROOFS. Rounding a magnitude (R152): the modes as seen from a magnitude, and the magnitudes of binary32 words as a
grid of natural numbers in units of 2^-298, in the order of the words' low bits. -/

namespace Sys2Proof.Machine

/-! ## A rounding mode as seen from a magnitude -/

/-- What a rounding mode does to a magnitude: to the nearest multiple (ties to even), down, or up. -/
inductive MagMode where
  | nearest
  | down
  | up

/-- A directed mode rounds the magnitude up where it points away from zero (R152). -/
def magMode : RoundMode → Bool → MagMode
  | .rn, _ => .nearest
  | .rz, _ => .down
  | .rd, neg => if neg then .up else .down
  | .ru, neg => if neg then .down else .up

/-- The rounded quotient of a magnitude. -/
def roundMag (m : MagMode) (a d : Nat) : Nat :=
  match m with
  | .nearest => if d < 2 * (a % d) then a / d + 1 else if 2 * (a % d) < d then a / d else a / d + a / d % 2
  | .down => a / d
  | .up => if a % d = 0 then a / d else a / d + 1

theorem roundInt_eq_roundMag (rm : RoundMode) (neg : Bool) (a d : Nat) :
    roundInt rm neg a d = roundMag (magMode rm neg) a d := by
  cases rm with
  | rn => rfl
  | rz => rfl
  | rd => cases neg <;> simp [roundInt, magMode, roundMag]
  | ru => cases neg <;> simp [roundInt, magMode, roundMag]

/-- Round down of a number is round up of its negative (R161). -/
theorem magMode_mirror (neg : Bool) : magMode .ru (!neg) = magMode .rd neg := by cases neg <;> rfl

/-- The quotient rounded is the floor or the next integer. -/
theorem roundMag_bounds (m : MagMode) (a d : Nat) : a / d ≤ roundMag m a d ∧ roundMag m a d ≤ a / d + 1 := by
  cases m with
  | nearest =>
    simp only [roundMag]
    split
    · omega
    · split <;> omega
  | down => simp only [roundMag]; omega
  | up => simp only [roundMag]; split <;> omega

theorem roundMag_of_dvd (m : MagMode) {a d : Nat} (hd : 0 < d) (h : a % d = 0) : roundMag m a d = a / d := by
  cases m <;> simp [roundMag, h, hd]

/-- Rounding looks at the quotient alone. -/
theorem roundMag_mul_right (m : MagMode) (a d : Nat) {c : Nat} (hc : 0 < c) :
    roundMag m (a * c) (d * c) = roundMag m a d := by
  have hdiv : a * c / (d * c) = a / d := Nat.mul_div_mul_right a d hc
  have hmod : a * c % (d * c) = a % d * c := Nat.mul_mod_mul_right c a d
  have hlt (x y : Nat) : x * c < y * c ↔ x < y := Nat.mul_lt_mul_right hc
  cases m with
  | nearest => simp only [roundMag, hdiv, hmod, ← Nat.mul_assoc, hlt]
  | down => exact hdiv
  | up => simp only [roundMag, hdiv, hmod, Nat.mul_eq_zero, Nat.ne_of_gt hc, or_false]

/-- Rounding leaves a magnitude unchanged exactly where nothing is cut off. -/
theorem roundMag_mul_eq_iff (m : MagMode) {a d : Nat} (hd : 0 < d) : roundMag m a d * d = a ↔ a % d = 0 := by
  refine ⟨fun h => ?_, fun h => ?_⟩
  · rw [← h, Nat.mul_mod_left]
  · rw [roundMag_of_dvd m hd h, Nat.div_mul_cancel (Nat.dvd_of_mod_eq_zero h)]

/-- Where the rounded quotient stays below an even bound: to nearest, more than half a unit below it (the tie goes to
the bound); down, anywhere below it; up, a whole unit below it. -/
theorem roundMag_lt_iff (m : MagMode) (a : Nat) {d N : Nat} (hd : 0 < d) (hN : N % 2 = 0) :
    roundMag m a d < N ↔
      match m with
      | .nearest => 2 * a + d < 2 * (N * d)
      | .down => a < N * d
      | .up => a + d ≤ N * d := by
  obtain ⟨hlo, hhi⟩ := roundMag_bounds m a d
  have ha : d * (a / d) + a % d = a := Nat.div_add_mod a d
  have hr : a % d < d := Nat.mod_lt a hd
  rw [Nat.mul_comm] at ha
  rcases (by omega : a / d + 2 ≤ N ∨ a / d + 1 = N ∨ N ≤ a / d) with h | h | h
  · have hmul : (a / d + 2) * d ≤ N * d := Nat.mul_le_mul_right d h
    rw [Nat.add_mul] at hmul
    cases m <;> simp only <;> omega
  · have hmul : N * d = a / d * d + d := by rw [← h, Nat.add_mul, Nat.one_mul]
    cases m with
    | nearest =>
      simp only [roundMag]
      split
      · omega
      · split <;> omega
    | down => simp only [roundMag]; omega
    | up => simp only [roundMag]; split <;> omega
  · have hmul : N * d ≤ a / d * d := Nat.mul_le_mul_right d h
    cases m <;> simp only <;> omega

/-- What rounds to an even bound or more is greater than the number before the bound. -/
theorem lt_of_le_roundMag {m : MagMode} {a d N : Nat} (h : N ≤ roundMag m a d) (hN : N % 2 = 0) (hpos : 0 < N)
    (hd : 0 < d) : (N - 1) * d < a := by
  have hsub : (N - 1) * d + d = N * d := by rw [← Nat.succ_mul, Nat.succ_eq_add_one, Nat.sub_add_cancel hpos]
  have hlt := (roundMag_lt_iff m a hd hN).not.1 (Nat.not_lt.2 h)
  cases m <;> simp only at hlt <;> omega

/-! ## The grid of binary32 magnitudes (R140) -/

/-- The magnitude, in units of 2^-298, of the words with low bits `n`: with `e + 1` the biased exponent of a normal
number and `e = 0` of a denormal, the significand is `n - e * 2^23` (R140). -/
def gridVal (n : Nat) : Nat := (n - (n / 2 ^ 23 - 1) * 2 ^ 23) * 2 ^ (n / 2 ^ 23 - 1 + 149)

theorem magOf_eq (u : Word32) : magOf u * 2 ^ 149 = gridVal (lowBits u) := by
  rw [magOf, expOf_eq, fracOf_eq, gridVal, Nat.pow_add, ← Nat.mul_assoc]
  congr 1
  split
  · next h =>
    rw [h]
    omega
  · next h =>
    congr 1
    omega

theorem scaledVal_eq (u : Word32) :
    scaledVal u = if signOf u then -(gridVal (lowBits u) : Int) else (gridVal (lowBits u) : Int) := by
  rw [scaledVal, valOf, ← magOf_eq, Int.natCast_mul, Int.natCast_pow]
  split
  · exact Int.neg_mul _ _
  · rfl

/-- The grid by exponent and significand, a significand of 2^24 (a carry) included. -/
theorem gridVal_mul_add {e q : Nat} (hq : q ≤ 2 ^ 24) (he : e = 0 ∨ 2 ^ 23 ≤ q) :
    gridVal (e * 2 ^ 23 + q) = q * 2 ^ (e + 149) := by
  by_cases hc : q = 2 ^ 24
  · have hexp : (e * 2 ^ 23 + q) / 2 ^ 23 - 1 = e + 1 := by omega
    have hsig : e * 2 ^ 23 + q - (e + 1) * 2 ^ 23 = 2 ^ 23 := by omega
    have hpow : 2 ^ (e + 1 + 149) = 2 * 2 ^ (e + 149) := by rw [Nat.add_right_comm, Nat.pow_succ']
    rw [gridVal, hexp, hsig, hpow, hc, ← Nat.mul_assoc, ← Nat.pow_succ]
  · have hexp : (e * 2 ^ 23 + q) / 2 ^ 23 - 1 = e := by omega
    rw [gridVal, hexp, Nat.add_sub_cancel_left]

/-- The words' magnitudes are in the order of their low bits. -/
theorem gridVal_strictMono : StrictMono gridVal := by
  refine strictMono_nat_of_lt_succ fun n => ?_
  obtain ⟨e, q, rfl, hq, he⟩ : ∃ e q, n = e * 2 ^ 23 + q ∧ q < 2 ^ 24 ∧ (e = 0 ∨ 2 ^ 23 ≤ q) :=
    ⟨n / 2 ^ 23 - 1, n - (n / 2 ^ 23 - 1) * 2 ^ 23, by omega, by omega, by omega⟩
  rw [Nat.add_assoc, gridVal_mul_add hq.le he, gridVal_mul_add hq (he.imp_right fun h => by omega)]
  exact Nat.mul_lt_mul_of_pos_right (Nat.lt_succ_self q) (Nat.two_pow_pos _)

/-! ## The place of a magnitude in the grid -/

/-- The exponent field of the grid about a magnitude, less one for a normal number. -/
def gridExp (a : Nat) : Nat := a.log2 - 172

/-- The distance of the grid's points about a magnitude: a unit in the last place of 24 bits, no less than 2^-149. -/
def gridUnit (a : Nat) : Nat := 2 ^ (gridExp a + 149)

/-- The low bits of a magnitude rounded once to the grid. -/
def gridRound (m : MagMode) (a : Nat) : Nat := gridExp a * 2 ^ 23 + roundMag m a (gridUnit a)

theorem gridUnit_pos (a : Nat) : 0 < gridUnit a := Nat.two_pow_pos _

theorem two_pow_le_of_le_log2 {a n : Nat} (ha : a ≠ 0) (h : n ≤ a.log2) : 2 ^ n ≤ a := (Nat.le_log2 ha).1 h

theorem lt_two_pow_of_log2_lt {a n : Nat} (h : a.log2 < n) : a < 2 ^ n :=
  Nat.lt_log2_self.trans_le (Nat.pow_le_pow_right Nat.two_pos h)

/-- The quotient by the grid's distance is a 24-bit significand, normal unless the exponent field is the least. -/
theorem div_gridUnit (a : Nat) : a / gridUnit a < 2 ^ 24 ∧ (gridExp a = 0 ∨ 2 ^ 23 ≤ a / gridUnit a) := by
  by_cases h : a.log2 ≤ 172
  · have he : gridExp a = 0 := Nat.sub_eq_zero_of_le h
    refine ⟨?_, .inl he⟩
    rw [Nat.div_lt_iff_lt_mul (gridUnit_pos a), gridUnit, he, ← Nat.pow_add]
    exact lt_two_pow_of_log2_lt (by omega)
  · have hne : a ≠ 0 := by rintro rfl; simp at h
    have he : gridExp a + 172 = a.log2 := Nat.sub_add_cancel (by omega)
    rw [Nat.div_lt_iff_lt_mul (gridUnit_pos a), Nat.le_div_iff_mul_le (gridUnit_pos a), gridUnit, ← Nat.pow_add,
      ← Nat.pow_add]
    refine ⟨?_, .inr ?_⟩
    · exact lt_two_pow_of_log2_lt (by omega)
    · exact two_pow_le_of_le_log2 hne (by omega)

/-- The rounded magnitude is a point of the grid. -/
theorem gridVal_gridRound (m : MagMode) (a : Nat) :
    gridVal (gridRound m a) = roundMag m a (gridUnit a) * gridUnit a := by
  obtain ⟨hlt, he⟩ := div_gridUnit a
  obtain ⟨hlo, hhi⟩ := roundMag_bounds m a (gridUnit a)
  exact gridVal_mul_add (by omega) (he.imp_right fun h => by omega)

/-- No point of the grid lies strictly between the multiples of the distance about `a`. -/
theorem gridVal_le_or_ge (a n : Nat) :
    gridVal n ≤ a / gridUnit a * gridUnit a ∨ a / gridUnit a * gridUnit a + gridUnit a ≤ gridVal n := by
  obtain ⟨hlt, he⟩ := div_gridUnit a
  have hfloor : gridVal (gridExp a * 2 ^ 23 + a / gridUnit a) = a / gridUnit a * gridUnit a :=
    gridVal_mul_add hlt.le he
  have hnext : gridVal (gridExp a * 2 ^ 23 + (a / gridUnit a + 1)) = a / gridUnit a * gridUnit a + gridUnit a := by
    rw [gridVal_mul_add hlt (he.imp_right fun h => by omega), Nat.succ_mul]
    rfl
  rw [← hnext, ← hfloor, gridVal_strictMono.le_iff_le, gridVal_strictMono.le_iff_le]
  omega

/-- A magnitude lies between a multiple of the distance and the next. -/
theorem grid_bracket (a : Nat) : a / gridUnit a * gridUnit a + a % gridUnit a = a ∧ a % gridUnit a < gridUnit a :=
  ⟨Nat.div_add_mod' a _, Nat.mod_lt a (gridUnit_pos a)⟩

/-! ## The rounded magnitude among all magnitudes -/

/-- Down: the greatest point of the grid that is at most `a`. -/
theorem gridRound_down (a : Nat) :
    gridVal (gridRound .down a) ≤ a ∧ ∀ n, gridVal n ≤ a → gridVal n ≤ gridVal (gridRound .down a) := by
  obtain ⟨hsum, hlt⟩ := grid_bracket a
  rw [gridVal_gridRound]
  simp only [roundMag]
  refine ⟨by omega, fun n hn => ?_⟩
  rcases gridVal_le_or_ge a n with h | h <;> omega

/-- Up: the least point of the grid that is at least `a`. -/
theorem gridRound_up (a : Nat) :
    a ≤ gridVal (gridRound .up a) ∧ ∀ n, a ≤ gridVal n → gridVal (gridRound .up a) ≤ gridVal n := by
  obtain ⟨hsum, hlt⟩ := grid_bracket a
  rw [gridVal_gridRound]
  simp only [roundMag]
  split
  · exact ⟨by omega, fun n hn => by omega⟩
  · rw [Nat.add_mul, Nat.one_mul]
    refine ⟨by omega, fun n hn => ?_⟩
    rcases gridVal_le_or_ge a n with h | h <;> omega

/-- To nearest: no point of the grid is nearer to `a`, and with another as near the low bits are even. -/
theorem gridRound_nearest (a n : Nat) :
    |(gridVal (gridRound .nearest a) : Int) - a| ≤ |(gridVal n : Int) - a| ∧
      (|(gridVal n : Int) - a| = |(gridVal (gridRound .nearest a) : Int) - a| →
        gridVal n ≠ gridVal (gridRound .nearest a) → gridRound .nearest a % 2 = 0) := by
  obtain ⟨hsum, hlt⟩ := grid_bracket a
  have hstep := gridVal_le_or_ge a n
  have hval := gridVal_gridRound .nearest a
  have heven : gridRound .nearest a % 2 = roundMag .nearest a (gridUnit a) % 2 := by
    rw [gridRound]
    omega
  rw [heven]
  simp only [Int.abs_eq_natAbs]
  simp only [roundMag] at hval ⊢
  by_cases h1 : gridUnit a < 2 * (a % gridUnit a)
  · rw [if_pos h1, Nat.add_mul, Nat.one_mul] at hval
    rw [if_pos h1]
    omega
  · rw [if_neg h1] at hval ⊢
    by_cases h2 : 2 * (a % gridUnit a) < gridUnit a
    · rw [if_pos h2] at hval ⊢
      omega
    · rw [if_neg h2] at hval ⊢
      rcases Nat.mod_two_eq_zero_or_one (a / gridUnit a) with hq | hq <;> rw [hq, Nat.add_mul] at hval <;> omega

end Sys2Proof.Machine
end

section
/-! PROOFS. The rounding of R152 to R155 by the exact value: where it overflows, where it is tiny, and that everything
else is one rounding to the grid of binary32 magnitudes. -/

namespace Sys2Proof.Machine

/-! ## The rounding to 24 bits (R152) -/

section roundSig
variable {rm : RoundMode} {neg : Bool} {a : Nat}

/-- The significand is rounded in units of its last place. -/
theorem roundSig_significand (h : 23 ≤ a.log2) :
    roundInt rm neg (a * 2 ^ 23) (2 ^ a.log2) = roundMag (magMode rm neg) a (2 ^ (a.log2 - 23)) := by
  have hpow : 2 ^ a.log2 = 2 ^ (a.log2 - 23) * 2 ^ 23 := by rw [← Nat.pow_add, Nat.sub_add_cancel h]
  rw [hpow, roundInt_eq_roundMag, roundMag_mul_right _ _ _ (by decide)]

/-- No carry: the significand stays below 2^24 and the leading bit where it is. -/
theorem roundSig_of_lt (h : 23 ≤ a.log2) (hlt : roundMag (magMode rm neg) a (2 ^ (a.log2 - 23)) < 2 ^ 24) :
    roundSig rm neg a = (roundMag (magMode rm neg) a (2 ^ (a.log2 - 23)), a.log2) := by
  rw [roundSig, roundSig_significand h, if_neg (Nat.ne_of_lt hlt)]

/-- A carry out of 24 bits moves the leading bit up. -/
theorem roundSig_of_carry (h : 23 ≤ a.log2) (hc : roundMag (magMode rm neg) a (2 ^ (a.log2 - 23)) = 2 ^ 24) :
    roundSig rm neg a = (2 ^ 23, a.log2 + 1) := by
  rw [roundSig, roundSig_significand h, if_pos hc]

/-- The leading bit stays or moves up by one. -/
theorem roundSig_snd_bounds : a.log2 ≤ (roundSig rm neg a).2 ∧ (roundSig rm neg a).2 ≤ a.log2 + 1 := by
  simp only [roundSig]
  split <;> simp

/-- The position of the leading bit after the rounding, by a threshold of the exact magnitude. -/
theorem roundSig_snd_le_iff {j : Nat} (ha : a ≠ 0) (hj : 0 < j) :
    (roundSig rm neg a).2 ≤ j + 23 ↔ roundMag (magMode rm neg) a (2 ^ j) < 2 ^ 24 := by
  obtain ⟨hlo, hhi⟩ := roundSig_snd_bounds (rm := rm) (neg := neg) (a := a)
  obtain ⟨qlo, qhi⟩ := roundMag_bounds (magMode rm neg) a (2 ^ j)
  rcases Nat.lt_trichotomy a.log2 (j + 23) with h | h | h
  · have hdiv : a / 2 ^ j < 2 ^ 23 := by
      rw [Nat.div_lt_iff_lt_mul (Nat.two_pow_pos _), ← Nat.pow_add]
      exact lt_two_pow_of_log2_lt (by omega)
    exact iff_of_true (hhi.trans h) (by omega)
  · have hdiv : a / 2 ^ j < 2 ^ 24 := by
      rw [Nat.div_lt_iff_lt_mul (Nat.two_pow_pos _), ← Nat.pow_add]
      exact lt_two_pow_of_log2_lt (by omega)
    obtain rfl : j = a.log2 - 23 := by omega
    by_cases hc : roundMag (magMode rm neg) a (2 ^ (a.log2 - 23)) = 2 ^ 24
    · rw [roundSig_of_carry (by omega) hc, hc]
      exact iff_of_false (by omega) (Nat.lt_irrefl _)
    · have hlt : roundMag (magMode rm neg) a (2 ^ (a.log2 - 23)) < 2 ^ 24 := by omega
      rw [roundSig_of_lt (by omega) hlt]
      exact iff_of_true h.le hlt
  · have hdiv : 2 ^ 24 ≤ a / 2 ^ j := by
      rw [Nat.le_div_iff_mul_le (Nat.two_pow_pos _), ← Nat.pow_add]
      exact two_pow_le_of_le_log2 ha (by omega)
    exact iff_of_false (Nat.not_le.2 (h.trans_le hlo)) (by omega)

end roundSig

/-! ## The thresholds (R153, R154) -/

/-- The mode as `v`'s magnitude sees it. -/
def modeAt (rm : RoundMode) (v : Int) : MagMode := magMode rm (decide (v < 0))

theorem modeAt_rd (v : Int) : modeAt .rd v = if v < 0 then .up else .down := by simp [modeAt, magMode]

theorem modeAt_ru (v : Int) : modeAt .ru v = if v < 0 then .down else .up := by simp [modeAt, magMode]

theorem two_pow_split (n i j : Nat) (h : n = i + j) : 2 ^ n = 2 ^ i * 2 ^ j := by rw [h, Nat.pow_add]

/-- Where 24 bits hold the magnitude rounded to multiples of `2 ^ j`: the three thresholds of R153 and R154. -/
theorem roundMag_lt_two_pow_iff (m : MagMode) (a : Nat) {k j l : Nat} (hj : j = k + 1) (hl : l = k + 25) :
    roundMag m a (2 ^ j) < 2 ^ 24 ↔
      match m with
      | .nearest => a < (2 ^ 25 - 1) * 2 ^ k
      | .down => a < 2 ^ l
      | .up => a ≤ (2 ^ 24 - 1) * 2 ^ j := by
  rw [roundMag_lt_iff _ _ (Nat.two_pow_pos j) rfl, hj, hl, Nat.pow_succ, Nat.pow_add]
  generalize 2 ^ k = p
  cases m <;> simp only <;> omega

/-- R153: the exact value overflows exactly where its magnitude, rounded at the scale of the largest finite values,
needs more than 24 bits. -/
theorem overflows_iff (rm : RoundMode) (v : Int) :
    Overflows rm v ↔ 2 ^ 24 ≤ roundMag (modeAt rm v) v.natAbs (2 ^ 402) := by
  rw [← Nat.not_lt, roundMag_lt_two_pow_iff _ _ (k := 401) (j := 402) (l := 426) rfl rfl]
  cases rm with
  | rn => exact Nat.not_lt.symm
  | rz => exact Nat.not_lt.symm
  | rd =>
    show (if v < 0 then _ else _) ↔ _
    by_cases hv : v < 0
    · rw [modeAt_rd, if_pos hv, if_pos hv]
      exact Nat.not_le.symm
    · rw [modeAt_rd, if_neg hv, if_neg hv]
      exact Nat.not_lt.symm
  | ru =>
    show (if v < 0 then _ else _) ↔ _
    by_cases hv : v < 0
    · rw [modeAt_ru, if_pos hv, if_pos hv]
      exact Nat.not_lt.symm
    · rw [modeAt_ru, if_neg hv, if_neg hv]
      exact Nat.not_le.symm

/-- R154: tiny is what rounds, at the scale just below 2^-126, to less than 2^-126. -/
theorem tinyAfterRounding_iff (rm : RoundMode) (v : Int) :
    TinyAfterRounding rm v ↔ roundMag (modeAt rm v) v.natAbs (2 ^ 148) < 2 ^ 24 := by
  rw [roundMag_lt_two_pow_iff _ _ (k := 147) (j := 148) (l := 172) rfl rfl]
  cases rm with
  | rn => simp only [TinyAfterRounding, modeAt, magMode]; omega
  | rz => simp only [TinyAfterRounding, modeAt, magMode]
  | rd =>
    by_cases hv : v < 0
    · simp only [TinyAfterRounding, modeAt_rd, if_pos hv]; omega
    · simp only [TinyAfterRounding, modeAt_rd, if_neg hv]
  | ru =>
    by_cases hv : v < 0
    · simp only [TinyAfterRounding, modeAt_ru, if_pos hv]
    · simp only [TinyAfterRounding, modeAt_ru, if_neg hv]; omega

/-- The leading bit after the rounding is above 2^127 exactly on overflow (R153). -/
theorem roundSig_snd_gt_iff {v : Int} (hv : v ≠ 0) (rm : RoundMode) :
    425 < (roundSig rm (decide (v < 0)) v.natAbs).2 ↔ Overflows rm v :=
  (not_le.symm.trans (not_congr (roundSig_snd_le_iff (j := 402) (Int.natAbs_ne_zero.2 hv) (by decide)))).trans
    (not_lt.trans (overflows_iff rm v).symm)

/-- The leading bit after the rounding is below 2^-126 exactly for a tiny result (R154). -/
theorem roundSig_snd_lt_iff {v : Int} (hv : v ≠ 0) (rm : RoundMode) :
    (roundSig rm (decide (v < 0)) v.natAbs).2 < 172 ↔ TinyAfterRounding rm v := by
  rw [tinyAfterRounding_iff, Nat.lt_succ_iff]
  exact roundSig_snd_le_iff (j := 148) (Int.natAbs_ne_zero.2 hv) (by decide)

/-! ## One rounding to the grid (R152, R154) -/

/-- Below 2^-126 the grid's distance is 2^-149. -/
theorem gridExp_of_lt {a : Nat} (h : a < 2 ^ 172) : gridExp a = 0 := by
  rcases Nat.eq_zero_or_pos a with rfl | ha
  · rfl
  · have := (Nat.log2_lt (Nat.ne_of_gt ha)).2 h
    exact Nat.sub_eq_zero_of_le (by omega)

theorem gridUnit_of_lt {a : Nat} (h : a < 2 ^ 172) : gridUnit a = 2 ^ 149 := by rw [gridUnit, gridExp_of_lt h]

theorem gridRound_of_lt {a : Nat} (h : a < 2 ^ 172) (m : MagMode) : gridRound m a = roundMag m a (2 ^ 149) := by
  rw [gridRound, gridExp_of_lt h, gridUnit_of_lt h, Nat.zero_mul, Nat.zero_add]

/-- From 2^-126 on the grid's distance is the unit in the last place of 24 bits. -/
theorem gridUnit_of_ge {a : Nat} (h : 172 ≤ a.log2) : gridUnit a = 2 ^ (a.log2 - 23) := by
  have hexp : gridExp a + 149 = a.log2 - 23 := by unfold gridExp; omega
  exact congrArg (2 ^ ·) hexp

/-- What R152 delivers at 24 bits, field by field, is the magnitude rounded to the grid. -/
def DeliversGridRound (rm : RoundMode) (neg : Bool) (a : Nat) : Prop :=
  ((roundSig rm neg a).2 + 127 - 298) * 2 ^ 23 + (roundSig rm neg a).1 % 2 ^ 23 = gridRound (magMode rm neg) a ∧
  (a * 2 ^ 23 % 2 ^ a.log2 = 0 ↔ a % gridUnit a = 0)

section deliver
variable {rm : RoundMode} {neg : Bool} {a : Nat}

theorem roundSig_inexact (h : 23 ≤ a.log2) : a * 2 ^ 23 % 2 ^ a.log2 = a % 2 ^ (a.log2 - 23) * 2 ^ 23 := by
  rw [two_pow_split a.log2 (a.log2 - 23) 23 (by omega), Nat.mul_mod_mul_right]

/-- A magnitude from 2^-126 on: the grid is that of the 24-bit significands. -/
theorem deliversGridRound_of_ge (h : 172 ≤ a.log2) : DeliversGridRound rm neg a := by
  have hne : a ≠ 0 := by rintro rfl; simp at h
  have hunit := gridUnit_of_ge h
  obtain ⟨hsig, _⟩ := div_gridUnit a
  obtain ⟨nlo, nhi⟩ := roundMag_bounds (magMode rm neg) a (gridUnit a)
  have hnorm : 2 ^ 23 ≤ a / gridUnit a := by
    rw [Nat.le_div_iff_mul_le (gridUnit_pos a), hunit, ← Nat.pow_add]
    exact two_pow_le_of_le_log2 hne (by omega)
  have hexp : gridExp a = a.log2 - 172 := rfl
  refine ⟨?_, by rw [roundSig_inexact (by omega), hunit]; omega⟩
  rw [gridRound, hexp]
  by_cases hc : roundMag (magMode rm neg) a (gridUnit a) = 2 ^ 24
  · rw [roundSig_of_carry (by omega) (hunit ▸ hc), hc]
    omega
  · have hlt : roundMag (magMode rm neg) a (gridUnit a) < 2 ^ 24 := by omega
    rw [roundSig_of_lt (by omega) (hunit ▸ hlt), ← hunit]
    omega

/-- A magnitude just below 2^-126 whose 24-bit rounding carries up to it: the denormal grid has 2^-126 as its next
point. -/
theorem deliversGridRound_of_carry (h171 : a.log2 = 171) (h : 172 ≤ (roundSig rm neg a).2) :
    DeliversGridRound rm neg a := by
  have hlt : a < 2 ^ 172 := lt_two_pow_of_log2_lt (by omega)
  obtain ⟨nlo, nhi⟩ := roundMag_bounds (magMode rm neg) a (2 ^ 148)
  have hcarry : roundMag (magMode rm neg) a (2 ^ 148) = 2 ^ 24 := by
    by_contra hne
    have hno : roundMag (magMode rm neg) a (2 ^ 148) < 2 ^ 24 := by omega
    rw [roundSig_of_lt (by omega) (by rw [h171]; exact hno)] at h
    omega
  have hround : roundMag (magMode rm neg) a (2 ^ 149) = 2 ^ 23 := by
    obtain ⟨qlo, qhi⟩ := roundMag_bounds (magMode rm neg) a (2 ^ 149)
    have h24 := roundMag_lt_iff (magMode rm neg) a (N := 2 ^ 24) (Nat.two_pow_pos 148) rfl
    have h23 := roundMag_lt_iff (magMode rm neg) a (N := 2 ^ 23) (Nat.two_pow_pos 149) rfl
    cases hm : magMode rm neg <;> simp only [hm] at h24 h23 hcarry qlo qhi ⊢ <;> omega
  have hinexact : a % 2 ^ 148 ≠ 0 := fun h0 => by
    rw [roundMag_of_dvd _ (Nat.two_pow_pos 148) h0] at hcarry
    omega
  refine ⟨?_, ?_⟩
  · rw [roundSig_of_carry (by omega) (by rw [h171]; exact hcarry), gridRound_of_lt hlt, hround, h171]
    rfl
  · rw [roundSig_inexact (by omega), gridUnit_of_lt hlt, h171]
    omega

/-- A result from 2^-126 on is delivered as the magnitude rounded to the grid. -/
theorem deliversGridRound (h : 172 ≤ (roundSig rm neg a).2) : DeliversGridRound rm neg a := by
  obtain ⟨_, hhi⟩ := roundSig_snd_bounds (rm := rm) (neg := neg) (a := a)
  have hk : 171 ≤ a.log2 := Nat.le_of_succ_le_succ (h.trans hhi)
  rcases Nat.eq_or_lt_of_le hk with h171 | h172
  · exact deliversGridRound_of_carry h171.symm h
  · exact deliversGridRound_of_ge h172

end deliver

/-! ## `Round(v)` by the exact value (R152 to R155) -/

/-- The low bits of `v` rounded once to binary32, its exponent unbounded above. -/
def roundedLow (rm : RoundMode) (v : Int) : Nat := gridRound (modeAt rm v) v.natAbs

/-- Is `v` a binary32 value, its exponent unbounded above. -/
def onGrid (v : Int) : Bool := decide (v.natAbs % gridUnit v.natAbs = 0)

section roundResult
variable {v : Int} (rm : RoundMode) (ftz : Bool)

/-- R153. -/
theorem roundResult_of_overflows (hv : v ≠ 0) (h : Overflows rm v) :
    roundResult rm ftz v = ⟨overflowValue rm (decide (v < 0)), flagOE ||| flagPE, false⟩ := by
  have hk := (roundSig_snd_gt_iff hv rm).2 h
  rw [roundResult]
  exact if_pos hk

/-- A tiny result does not overflow. -/
theorem TinyAfterRounding.not_overflows (hv : v ≠ 0) (h : TinyAfterRounding rm v) : ¬ Overflows rm v := by
  rw [← roundSig_snd_gt_iff hv, Nat.not_lt]
  exact ((roundSig_snd_lt_iff hv rm).2 h).le.trans (by decide)

theorem TinyAfterRounding.lt (h : TinyAfterRounding rm v) : v.natAbs < 2 ^ 172 := by
  rw [tinyAfterRounding_iff] at h
  have := (roundMag_bounds (modeAt rm v) v.natAbs (2 ^ 148)).1
  omega

/-- R154, a tiny result under FTZ. -/
theorem roundResult_of_tiny_ftz (hv : v ≠ 0) (h : TinyAfterRounding rm v) :
    roundResult rm true v = ⟨zeroOf (decide (v < 0)), flagUE ||| flagPE, true⟩ := by
  have hk := (roundSig_snd_lt_iff hv rm).2 h
  rw [roundResult]
  exact (if_neg (by omega)).trans (if_pos hk)

/-- R154, a tiny result without FTZ: one rounding to the grid. -/
theorem roundResult_of_tiny (hv : v ≠ 0) (h : TinyAfterRounding rm v) :
    roundResult rm false v =
      ⟨packWord (decide (v < 0)) (roundedLow rm v), if onGrid v then flagNone else flagUE ||| flagPE, true⟩ := by
  have hk := (roundSig_snd_lt_iff hv rm).2 h
  have hround : roundResult rm false v = roundTiny rm false (decide (v < 0)) v.natAbs := by
    rw [roundResult]
    exact (if_neg (by omega)).trans (if_pos hk)
  rw [hround, roundTiny, roundInt_eq_roundMag, roundedLow, gridRound_of_lt h.lt, onGrid, gridUnit_of_lt h.lt]
  simp [modeAt]

/-- R154, a result from 2^-126 on: one rounding to the grid. -/
theorem roundResult_of_normal (hv : v ≠ 0) (ho : ¬ Overflows rm v) (ht : ¬ TinyAfterRounding rm v) :
    roundResult rm ftz v =
      ⟨packWord (decide (v < 0)) (roundedLow rm v), if onGrid v then flagNone else flagPE, false⟩ := by
  rw [← roundSig_snd_gt_iff hv] at ho
  rw [← roundSig_snd_lt_iff hv] at ht
  obtain ⟨hlow, hinexact⟩ := deliversGridRound (Nat.not_lt.1 ht)
  have hround : roundResult rm ftz v = ⟨packWord (decide (v < 0)) (roundedLow rm v),
      inexactFlag (decide (v.natAbs * 2 ^ 23 % 2 ^ v.natAbs.log2 ≠ 0)), false⟩ := by
    rw [roundedLow, modeAt, ← hlow, roundResult]
    exact (if_neg ho).trans (if_neg ht)
  rw [hround, inexactFlag, onGrid]
  simp only [ne_eq, hinexact, decide_eq_true_eq, ite_not]

/-- A result that does not overflow has the low bits of a finite word. -/
theorem roundedLow_lt (hv : v ≠ 0) (ho : ¬ Overflows rm v) : roundedLow rm v < 255 * 2 ^ 23 := by
  by_cases ht : TinyAfterRounding rm v
  · have hlt := ht.lt
    have := (roundMag_bounds (modeAt rm v) v.natAbs (2 ^ 149)).2
    rw [roundedLow, gridRound_of_lt hlt]
    omega
  · rw [← roundSig_snd_gt_iff hv] at ho
    rw [← roundSig_snd_lt_iff hv] at ht
    obtain ⟨hlow, _⟩ := deliversGridRound (Nat.not_lt.1 ht)
    rw [roundedLow, modeAt, ← hlow]
    omega

end roundResult

end Sys2Proof.Machine
end

section
/-! PROOFS. The statements about the rounding (O50, O51, O53 to O57, O59, O60): for finite operands and a nonzero exact
`v`, `FNMSUB32` is `Round(v)` with DE added, and every other return sets IE or DE alone. -/

namespace Sys2Proof.Machine

/-! ## Flags -/

theorem hasFlag_or {a b f : BitVec 6} : HasFlag (a ||| b) f ↔ HasFlag a f ∨ HasFlag b f := by
  have hdist : (a ||| b) &&& f = (a &&& f) ||| (b &&& f) := by
    rw [BitVec.and_comm, BitVec.and_or_distrib_left, BitVec.and_comm f a, BitVec.and_comm f b]
  unfold HasFlag
  rw [hdist]
  exact (not_congr BitVec.or_eq_zero_iff).trans not_and_or

/-- The flags that a rounding can set. -/
def IsRoundingFlag (f : BitVec 6) : Prop := f = flagOE ∨ f = flagUE ∨ f = flagPE

/-- IE and DE are none of them. -/
theorem IsRoundingFlag.not_hasFlag {f fl : BitVec 6} (hf : IsRoundingFlag f)
    (hfl : fl = flagIE ∨ fl = flagDE ∨ fl = flagNone) : ¬ HasFlag fl f := by
  unfold HasFlag
  rcases hf with rfl | rfl | rfl <;> rcases hfl with rfl | rfl | rfl <;> decide

theorem hasFlag_denormalFlag (x y z : Word32) :
    HasFlag (denormalFlag x y z) flagDE ↔ isDenormal x = true ∨ isDenormal y = true ∨ isDenormal z = true := by
  rw [← or_assoc, ← Bool.or_eq_true, ← Bool.or_eq_true, denormalFlag]
  split
  · next h => exact iff_of_true (by unfold HasFlag; decide) h
  · next h => exact iff_of_false (by unfold HasFlag; decide) h

/-! ## `FNMSUB32` by its exact value (R143) -/

section returns
variable {x y z : Word32} {daz : Bool} (pick : Nat) (ie : Bool) (rm : RoundMode) (ftz : Bool)

/-- Finite operands with a nonzero exact value are rounded (R143 step 9). -/
theorem fnmsub32_round (hf : FiniteOperands (dazOf daz x) (dazOf daz y) (dazOf daz z))
    (hv : exactValue (dazOf daz x) (dazOf daz y) (dazOf daz z) ≠ 0) :
    let r := roundResult rm ftz (exactValue (dazOf daz x) (dazOf daz y) (dazOf daz z))
    fnmsub32 pick ie x y z rm daz ftz =
      ⟨r.value, denormalFlag (dazOf daz x) (dazOf daz y) (dazOf daz z) ||| r.fl, r.tiny⟩ := by
  rw [fnmsub32, fnmsubCore_finite hf, finiteResult_round hv]

/-- Every earlier return sets IE alone, DE alone or nothing, and nothing is tiny (R143). -/
theorem fnmsub32_early (h : ¬ (FiniteOperands (dazOf daz x) (dazOf daz y) (dazOf daz z) ∧
      exactValue (dazOf daz x) (dazOf daz y) (dazOf daz z) ≠ 0)) :
    let r := fnmsub32 pick ie x y z rm daz ftz
    (r.fl = flagIE ∨ r.fl = flagDE ∨ r.fl = flagNone) ∧ r.tiny = false := by
  intro r
  have hr : r = fnmsubCore pick ie (dazOf daz x) (dazOf daz y) (dazOf daz z) rm ftz := rfl
  have hde := denormalFlag_cases (dazOf daz x) (dazOf daz y) (dazOf daz z)
  rcases fnmsubCore_cases pick ie (dazOf daz x) (dazOf daz y) (dazOf daz z) rm ftz with
    ⟨_, e⟩ | ⟨hn, ⟨_, e⟩ | ⟨_, ⟨_, e⟩ | ⟨_, ⟨_, e⟩ | ⟨hxy, ⟨_, e⟩ | ⟨hz, e⟩⟩⟩⟩⟩ <;> rw [hr, e]
  · refine ⟨?_, rfl⟩
    simp only [nanResult]
    split
    · exact .inl rfl
    · split
      · exact .inl rfl
      · exact .inr (.inr rfl)
  · exact ⟨.inl rfl, rfl⟩
  · exact ⟨.inl rfl, rfl⟩
  · exact ⟨.inr hde, rfl⟩
  · exact ⟨.inr hde, rfl⟩
  · obtain ⟨hx, hy⟩ := Bool.or_eq_false_iff.1 hxy
    have hv := not_not.1 fun hv => h ⟨finiteOperands_of (noNaN_iff.2 hn) hx hy hz, hv⟩
    rw [finiteResult_zero hv]
    exact ⟨.inr hde, rfl⟩

/-- The rounding's flags are those of `Round(v)`. -/
theorem hasFlag_fnmsub32_round {f : BitVec 6} (hflag : IsRoundingFlag f)
    (hf : FiniteOperands (dazOf daz x) (dazOf daz y) (dazOf daz z))
    (hv : exactValue (dazOf daz x) (dazOf daz y) (dazOf daz z) ≠ 0) :
    HasFlag (fnmsub32 pick ie x y z rm daz ftz).fl f ↔
      HasFlag (roundResult rm ftz (exactValue (dazOf daz x) (dazOf daz y) (dazOf daz z))).fl f := by
  rw [fnmsub32_round pick ie rm ftz hf hv, hasFlag_or,
    or_iff_right (hflag.not_hasFlag (.inr (denormalFlag_cases _ _ _)))]

/-- No earlier return has a rounding's flag. -/
theorem fnmsub32_early_not_hasFlag {f : BitVec 6} (hflag : IsRoundingFlag f)
    (h : ¬ (FiniteOperands (dazOf daz x) (dazOf daz y) (dazOf daz z) ∧
      exactValue (dazOf daz x) (dazOf daz y) (dazOf daz z) ≠ 0)) :
    ¬ HasFlag (fnmsub32 pick ie x y z rm daz ftz).fl f :=
  hflag.not_hasFlag (fnmsub32_early pick ie rm ftz h).1

end returns

/-! ## `Round(v)`: its flags (R153 to R155) -/

section flags
variable {v : Int} (rm : RoundMode) (ftz : Bool)

/-- The four returns of `Round(v)`, by the exact value. -/
theorem roundResult_split (hv : v ≠ 0) :
    (Overflows rm v ∧ ¬ TinyAfterRounding rm v ∧
      roundResult rm ftz v = ⟨overflowValue rm (decide (v < 0)), flagOE ||| flagPE, false⟩) ∨
    (¬ Overflows rm v ∧ TinyAfterRounding rm v ∧ ftz = true ∧
      roundResult rm ftz v = ⟨zeroOf (decide (v < 0)), flagUE ||| flagPE, true⟩) ∨
    (¬ Overflows rm v ∧ TinyAfterRounding rm v ∧ ftz = false ∧ roundResult rm ftz v =
      ⟨packWord (decide (v < 0)) (roundedLow rm v), if onGrid v then flagNone else flagUE ||| flagPE, true⟩) ∨
    (¬ Overflows rm v ∧ ¬ TinyAfterRounding rm v ∧ roundResult rm ftz v =
      ⟨packWord (decide (v < 0)) (roundedLow rm v), if onGrid v then flagNone else flagPE, false⟩) := by
  by_cases ht : TinyAfterRounding rm v
  · have ho := ht.not_overflows rm hv
    cases ftz with
    | true => exact .inr (.inl ⟨ho, ht, rfl, roundResult_of_tiny_ftz rm hv ht⟩)
    | false => exact .inr (.inr (.inl ⟨ho, ht, rfl, roundResult_of_tiny rm hv ht⟩))
  · by_cases ho : Overflows rm v
    · exact .inl ⟨ho, ht, roundResult_of_overflows rm ftz hv ho⟩
    · exact .inr (.inr (.inr ⟨ho, ht, roundResult_of_normal rm ftz hv ho ht⟩))

theorem roundResult_tiny_iff (hv : v ≠ 0) : (roundResult rm ftz v).tiny = true ↔ TinyAfterRounding rm v := by
  rw [roundResult_tiny, decide_eq_true_eq, roundSig_snd_lt_iff hv]

/-- OE: the overflow (R153). UE: a tiny result that is flushed or inexact (R154). PE: those and every other inexact
result (R155). DE is none of the rounding's. -/
theorem roundResult_flags (hv : v ≠ 0) :
    (HasFlag (roundResult rm ftz v).fl flagOE ↔ Overflows rm v) ∧
    (HasFlag (roundResult rm ftz v).fl flagUE ↔ TinyAfterRounding rm v ∧ (ftz = true ∨ onGrid v = false)) ∧
    (HasFlag (roundResult rm ftz v).fl flagPE ↔
      Overflows rm v ∨ (TinyAfterRounding rm v ∧ ftz = true) ∨ onGrid v = false) ∧
    ¬ HasFlag (roundResult rm ftz v).fl flagDE := by
  rcases roundResult_split rm ftz hv with ⟨ho, ht, e⟩ | ⟨ho, ht, hftz, e⟩ | ⟨ho, ht, hftz, e⟩ | ⟨ho, ht, e⟩ <;>
    rw [e] <;> unfold HasFlag
  · simp only [ho, ht, true_or, false_and, iff_true, iff_false]
    decide
  · simp only [ho, ht, hftz, true_or, false_or, and_self, iff_true, iff_false]
    decide
  · cases onGrid v <;> simp only [ho, ht, hftz, false_or, true_and, iff_false] <;> decide
  · cases onGrid v <;> simp only [ho, ht, false_or, false_and, iff_true, iff_false] <;> decide

end flags

/-! ## The values of the rounding -/

theorem scaledVal_packWord (neg : Bool) {n : Nat} (h : n < 2 ^ 31) :
    scaledVal (packWord neg n) = if neg then -(gridVal n : Int) else (gridVal n : Int) := by
  rw [scaledVal_eq, signOf_packWord, lowBits_packWord neg h]

/-- A value of `v`'s sign is `v` exactly where its magnitude is `v`'s. -/
theorem signed_eq_iff (v : Int) (n : Nat) :
    (if decide (v < 0) = true then -(n : Int) else (n : Int)) = v ↔ n = v.natAbs := by
  by_cases h : v < 0
  · rw [if_pos (decide_eq_true h)]
    omega
  · rw [if_neg (by simpa using h)]
    omega

/-- The rounded magnitude is the exact one exactly on the grid. -/
theorem gridVal_roundedLow_eq_iff (rm : RoundMode) (v : Int) :
    gridVal (roundedLow rm v) = v.natAbs ↔ onGrid v = true := by
  rw [roundedLow, gridVal_gridRound, roundMag_mul_eq_iff _ (gridUnit_pos _), onGrid, decide_eq_true_eq]

/-- The largest finite magnitude (R140), `j` a name of 402. -/
theorem gridVal_maxFinite {j : Nat} (hj : j = 253 + 149) : gridVal (255 * 2 ^ 23 - 1) = (2 ^ 24 - 1) * 2 ^ j := by
  have hlow : 255 * 2 ^ 23 - 1 = 253 * 2 ^ 23 + (2 ^ 24 - 1) := by decide
  rw [hlow, hj, gridVal_mul_add (by decide) (.inr (by decide))]

/-- What overflows is greater than every finite value (R153). -/
theorem Overflows.gridVal_lt {rm : RoundMode} {v : Int} (h : Overflows rm v) {w : Word32} (hw : isFinite w = true) :
    gridVal (lowBits w) < v.natAbs := by
  have hmax : gridVal (lowBits w) ≤ (2 ^ 24 - 1) * 2 ^ 402 := by
    rw [← gridVal_maxFinite (j := 402) rfl, gridVal_strictMono.le_iff_le]
    exact Nat.le_sub_one_of_lt (isFinite_iff.1 hw)
  exact hmax.trans_lt (lt_of_le_roundMag ((overflows_iff rm v).1 h) rfl (by decide) (by positivity))

theorem Overflows.scaledVal_ne {rm : RoundMode} {v : Int} (h : Overflows rm v) {w : Word32} (hw : isFinite w = true) :
    scaledVal w ≠ v := by
  have hlt := h.gridVal_lt hw
  rw [scaledVal_eq]
  split <;> omega

theorem overflowValue_eq (rm : RoundMode) (neg : Bool) :
    overflowValue rm neg = packWord neg (255 * 2 ^ 23) ∨ overflowValue rm neg = packWord neg (255 * 2 ^ 23 - 1) := by
  cases rm with
  | rn => exact .inl rfl
  | rz => exact .inr rfl
  | rd => cases neg with
    | true => exact .inl rfl
    | false => exact .inr rfl
  | ru => cases neg with
    | true => exact .inr rfl
    | false => exact .inl rfl

/-! ## Overflow, tiny results, precision (R153 to R155) -/

theorem maxFiniteOf_eq (neg : Bool) : maxFiniteOf neg = if neg then 0xFF7FFFFF else 0x7F7FFFFF := by cases neg <;> rfl

/-- Settles O53: `Round(v)` on the one side of the threshold, with R153's values. -/
theorem overflowThresholdAndResult : Obligations.OverflowThresholdAndResult := by
  intro pick ie x₀ y₀ z₀ rm daz ftz x y z hf hv v r
  obtain ⟨hOE, _, hPE, _⟩ := roundResult_flags rm ftz hv
  refine ⟨(hasFlag_fnmsub32_round pick ie rm ftz (.inl rfl) hf hv).trans hOE, fun ho => ?_⟩
  refine ⟨(hasFlag_fnmsub32_round pick ie rm ftz (.inr (.inr rfl)) hf hv).2 (hPE.2 (.inl ho)), ?_⟩
  have hr : r = _ := fnmsub32_round pick ie rm ftz hf hv
  rw [hr, roundResult_of_overflows rm ftz hv ho]
  refine ⟨rfl, ?_⟩
  have hneg : exactValue (dazOf daz x₀) (dazOf daz y₀) (dazOf daz z₀) = v := rfl
  rw [hneg]
  cases rm with
  | rn => simp only [overflowValue, infOf_eq, decide_eq_true_eq]
  | rz => simp only [overflowValue, maxFiniteOf_eq, decide_eq_true_eq]
  | rd => by_cases h : v < 0 <;> simp [overflowValue, infOf_eq, maxFiniteOf_eq, h]
  | ru => by_cases h : v < 0 <;> simp [overflowValue, infOf_eq, maxFiniteOf_eq, h]

/-- Settles O54: tiny is `Round(v)`'s, and false on every earlier return. -/
theorem tinyIsDetectedAfterRounding : Obligations.TinyIsDetectedAfterRounding := by
  intro pick ie x₀ y₀ z₀ rm daz ftz x y z r
  refine ⟨fun ⟨hf, hv⟩ => ?_, fun h => (fnmsub32_early pick ie rm ftz h).2⟩
  have hr : r = _ := fnmsub32_round pick ie rm ftz hf hv
  rw [hr]
  exact roundResult_tiny_iff rm ftz hv

/-- Settles O55: the flags of a tiny result are those of the flush to zero or of the one rounding to the grid. -/
theorem underflowAndFlushToZero : Obligations.UnderflowAndFlushToZero := by
  intro pick ie x y z rm daz ftz r
  by_cases h : FiniteOperands (dazOf daz x) (dazOf daz y) (dazOf daz z) ∧
      exactValue (dazOf daz x) (dazOf daz y) (dazOf daz z) ≠ 0
  · obtain ⟨hf, hv⟩ := h
    obtain ⟨_, hUE, hPE, _⟩ := roundResult_flags rm ftz hv
    have hr : r = _ := fnmsub32_round pick ie rm ftz hf hv
    have hUE' : HasFlag r.fl flagUE ↔ _ := (hasFlag_fnmsub32_round pick ie rm ftz (.inr (.inl rfl)) hf hv).trans hUE
    have hPE' : HasFlag r.fl flagPE ↔ _ := (hasFlag_fnmsub32_round pick ie rm ftz (.inr (.inr rfl)) hf hv).trans hPE
    have htiny : r.tiny = true ↔ _ := (by rw [hr] : r.tiny = true ↔ _).trans (roundResult_tiny_iff rm ftz hv)
    rw [hUE', hPE', ← Bool.not_eq_true, htiny]
    refine ⟨fun ht hftz => ⟨?_, ⟨ht, .inl hftz⟩, .inr (.inl ⟨ht, hftz⟩)⟩, fun ht hftz => ?_, fun ht hUE => ?_⟩
    · subst hftz
      rw [hr, roundResult_of_tiny_ftz rm hv ht, zeroOf_eq]
      simp only [decide_eq_true_eq]
    · simp [ht, hftz, ht.not_overflows rm hv]
    · simp [htiny.2 hUE.1] at ht
  · have htiny : r.tiny = false := (fnmsub32_early pick ie rm ftz h).2
    refine ⟨fun ht => ?_, fun ht => ?_, fun _ => fnmsub32_early_not_hasFlag pick ie rm ftz (.inr (.inl rfl)) h⟩
    · simp [htiny] at ht
    · simp [htiny] at ht

/-- The rounded value is the exact one exactly where PE is not set (R155). -/
theorem roundResult_inexact_iff {v : Int} (hv : v ≠ 0) (rm : RoundMode) (ftz : Bool) :
    HasFlag (roundResult rm ftz v).fl flagPE ↔
      ¬ (isFinite (roundResult rm ftz v).value = true ∧ scaledVal (roundResult rm ftz v).value = v) := by
  obtain ⟨_, _, hPE, _⟩ := roundResult_flags rm ftz hv
  have hgrid (ho : ¬ Overflows rm v) :
      isFinite (packWord (decide (v < 0)) (roundedLow rm v)) = true ∧
        scaledVal (packWord (decide (v < 0)) (roundedLow rm v)) = v ↔ onGrid v = true := by
    have hlt := roundedLow_lt rm hv ho
    rw [isFinite_iff, lowBits_packWord _ (by omega), scaledVal_packWord _ (by omega), signed_eq_iff,
      gridVal_roundedLow_eq_iff, and_iff_right hlt]
  rw [hPE]
  rcases roundResult_split rm ftz hv with ⟨ho, ht, e⟩ | ⟨ho, ht, hftz, e⟩ | ⟨ho, ht, hftz, e⟩ | ⟨ho, ht, e⟩ <;> rw [e]
  · exact iff_of_true (.inl ho) fun ⟨hfin, hval⟩ => ho.scaledVal_ne hfin hval
  · refine iff_of_true (.inr (.inl ⟨ht, hftz⟩)) fun ⟨_, hval⟩ => hv ?_
    rw [← hval, zeroOf, scaledVal_packWord _ (by decide)]
    simp [gridVal]
  · rw [hgrid ho]
    simp [ho, hftz]
  · rw [hgrid ho]
    simp [ho, ht]

/-- Settles O56: R155 for `Round(v)`, and no earlier return sets PE. -/
theorem precisionFlagIsInexactness : Obligations.PrecisionFlagIsInexactness := by
  intro pick ie x₀ y₀ z₀ rm daz ftz x y z v r
  refine ⟨fun hf hv => ?_, fun h => fnmsub32_early_not_hasFlag pick ie rm ftz (.inr (.inr rfl)) fun ⟨hf, hv⟩ => ?_⟩
  · have hr : r = _ := fnmsub32_round pick ie rm ftz hf hv
    have hflag : HasFlag r.fl flagPE ↔ _ := hasFlag_fnmsub32_round pick ie rm ftz (.inr (.inr rfl)) hf hv
    rw [hflag, roundResult_inexact_iff hv, hr]
  · exact h.elim (fun h => h hf) fun h => hv h

end Sys2Proof.Machine
end

section
/-! PROOFS. The delivered value (O50, O51, O57, O60): a NaN comes from R145 to R147 alone, a result that is neither an
overflow nor flushed is correctly rounded among all binary32 values, and a binary32 value rounds to itself. -/

namespace Sys2Proof.Machine

/-! ## DE and NaN results (R148, R160) -/

/-- Where neither R145 nor R146 nor R147 returns, DE is the denormal operand's flag. -/
theorem fnmsubCore_hasFlag_de {x y z : Word32} (hn : NoNaN x y z) (hzi : ¬ ZeroTimesInf x y)
    (hop : ¬ OppositeInfinities x y z) (pick : Nat) (ie : Bool) (rm : RoundMode) (ftz : Bool) :
    HasFlag (fnmsubCore pick ie x y z rm ftz).fl flagDE ↔ HasFlag (denormalFlag x y z) flagDE := by
  by_cases hxy : isInf x = true ∨ isInf y = true
  · rw [fnmsubCore_of_infProduct _ _ _ _ hn hzi hop hxy]
  · rw [not_or, Bool.not_eq_true, Bool.not_eq_true] at hxy
    obtain ⟨hx, hy⟩ := hxy
    cases hz : isInf z with
    | true => rw [fnmsubCore_of_infSubtrahend _ _ _ _ hn hx hy hz]
    | false =>
      rw [fnmsubCore_finite (finiteOperands_of hn hx hy hz)]
      by_cases hv : exactValue x y z = 0
      · rw [finiteResult_zero hv]
      · obtain ⟨_, _, _, hDE⟩ := roundResult_flags rm ftz hv
        rw [finiteResult_round hv, hasFlag_or, or_iff_left hDE]

/-- Settles O50: every return after step 5 of R143 adds R148's flag, and the rounding adds no DE of its own. -/
theorem denormalOperandFlag : Obligations.DenormalOperandFlag := by
  intro pick ie x y z rm daz ftz hn hzi hop
  have hde := fnmsubCore_hasFlag_de (noNaN_dazOf.2 hn) hzi (mt oppositeInfinities_dazOf.1 hop) pick ie rm ftz
  exact hde.trans (hasFlag_denormalFlag _ _ _)

theorem isNaN_packWord {neg : Bool} {n : Nat} (h : n ≤ 255 * 2 ^ 23) : isNaN (packWord neg n) = false := by
  rw [← Bool.not_eq_true, isNaN_iff, lowBits_packWord _ (by omega)]
  omega

/-- The rounding makes no NaN (R160). -/
theorem roundResult_not_isNaN {v : Int} (hv : v ≠ 0) (rm : RoundMode) (ftz : Bool) :
    isNaN (roundResult rm ftz v).value = false := by
  rcases roundResult_split rm ftz hv with ⟨_, _, e⟩ | ⟨_, _, _, e⟩ | ⟨ho, _, _, e⟩ | ⟨ho, _, e⟩ <;> rw [e]
  · rcases overflowValue_eq rm (decide (v < 0)) with h | h <;> rw [h] <;> exact isNaN_packWord (by decide)
  · exact isNaN_packWord (by decide)
  · exact isNaN_packWord (roundedLow_lt rm hv ho).le
  · exact isNaN_packWord (roundedLow_lt rm hv ho).le

theorem finiteResult_not_isNaN (rm : RoundMode) (ftz : Bool) (fl : BitVec 6) (x y z : Word32) :
    isNaN (finiteResult rm ftz fl x y z).value = false := by
  by_cases hv : exactValue x y z = 0
  · rw [finiteResult_zero hv, exactZero_eq]
    split <;> exact isNaN_packWord (by decide)
  · rw [finiteResult_round hv]
    exact roundResult_not_isNaN hv rm ftz

/-- Without a NaN operand a NaN result is R146's or R147's. -/
theorem fnmsubCore_isNaN {x y z : Word32} {pick : Nat} {ie : Bool} {rm : RoundMode} {ftz : Bool} (hn : NoNaN x y z)
    (h : isNaN (fnmsubCore pick ie x y z rm ftz).value = true) :
    fnmsubCore pick ie x y z rm ftz = ⟨indefinite, flagIE, false⟩ := by
  rcases fnmsubCore_cases pick ie x y z rm ftz with
    ⟨hnan, _⟩ | ⟨_, ⟨_, e⟩ | ⟨_, ⟨_, e⟩ | ⟨_, ⟨_, e⟩ | ⟨_, ⟨_, e⟩ | ⟨_, e⟩⟩⟩⟩⟩
  · exact absurd hn (not_noNaN_iff.2 hnan)
  · exact e
  · exact e
  · rw [e, infOf, isNaN_packWord (by decide)] at h
    cases h
  · rw [e, infOf, isNaN_packWord (by decide)] at h
    cases h
  · rw [e, finiteResult_not_isNaN] at h
    cases h

/-- Settles O51: a NaN operand gives R145's quieted copy, and else only R146 and R147 return a NaN. -/
theorem nanResultsAreIndefiniteOrQuieted : Obligations.NanResultsAreIndefiniteOrQuieted := by
  intro pick ie x y z rm daz ftz r hr
  by_cases hn : NoNaN x y z
  · have e : r = ⟨indefinite, flagIE, false⟩ := fnmsubCore_isNaN (noNaN_dazOf.2 hn) hr
    rw [e]
    exact .inl ⟨hn, rfl, rfl⟩
  · exact .inr (nanOperandResult.1 pick ie x y z rm daz ftz hn).1

/-! ## One rounding (R151, R152) -/

theorem scaledVal_flipSign (u : Word32) : scaledVal (flipSign u) = -scaledVal u := by
  rw [scaledVal_eq, scaledVal_eq, signOf_flipSign, lowBits_flipSign]
  cases signOf u with
  | false => rw [if_pos (Bool.not_false), if_neg Bool.false_ne_true]
  | true => rw [if_neg (by decide), if_pos rfl, Int.neg_neg]

section signed
variable {v : Int} {r : Word32}

/-- Rounding down at or above zero is rounding the magnitude down. -/
theorem isRoundDown_of_nonneg (hv : 0 ≤ v) (hs : signOf r = false) (hl : lowBits r = gridRound .down v.natAbs) :
    IsRoundDown v r := by
  obtain ⟨hle, hgreatest⟩ := gridRound_down v.natAbs
  have hr : scaledVal r = gridVal (gridRound .down v.natAbs) := by
    rw [scaledVal_eq, hs, hl, if_neg Bool.false_ne_true]
  rw [IsRoundDown, hr]
  refine ⟨by omega, fun w _ hw => ?_⟩
  have hlow := hgreatest (lowBits w)
  rw [scaledVal_eq w] at hw ⊢
  cases hsign : signOf w <;> simp only [hsign, Bool.false_eq_true, if_false, if_true] at hw ⊢ <;> omega

/-- Rounding down at or below zero is rounding the magnitude up. -/
theorem isRoundDown_of_nonpos (hv : v ≤ 0) (hs : signOf r = true) (hl : lowBits r = gridRound .up v.natAbs) :
    IsRoundDown v r := by
  obtain ⟨hge, hleast⟩ := gridRound_up v.natAbs
  have hr : scaledVal r = -gridVal (gridRound .up v.natAbs) := by
    rw [scaledVal_eq, hs, hl, if_pos rfl]
  rw [IsRoundDown, hr]
  refine ⟨by omega, fun w _ hw => ?_⟩
  have hlow := hleast (lowBits w)
  rw [scaledVal_eq w] at hw ⊢
  cases hsign : signOf w <;> simp only [hsign, Bool.false_eq_true, if_false, if_true] at hw ⊢ <;> omega

/-- Rounding up is rounding the negative down. -/
theorem isRoundUp_of_flipSign (h : IsRoundDown (-v) (flipSign r)) : IsRoundUp v r := by
  obtain ⟨hle, hgreatest⟩ := h
  rw [scaledVal_flipSign] at hle hgreatest
  refine ⟨by omega, fun w hw hvw => ?_⟩
  obtain ⟨_, _, _, _, hfin⟩ := classes_flipSign w
  have := hgreatest (flipSign w) (hfin.trans hw)
  rw [scaledVal_flipSign] at this
  omega

/-- Rounding up at or above zero is rounding the magnitude up. -/
theorem isRoundUp_of_nonneg (hv : 0 ≤ v) (hs : signOf r = false) (hl : lowBits r = gridRound .up v.natAbs) :
    IsRoundUp v r :=
  isRoundUp_of_flipSign (isRoundDown_of_nonpos (by omega) (by rw [signOf_flipSign, hs]; rfl)
    (by rw [lowBits_flipSign, Int.natAbs_neg, hl]))

/-- Rounding up at or below zero is rounding the magnitude down. -/
theorem isRoundUp_of_nonpos (hv : v ≤ 0) (hs : signOf r = true) (hl : lowBits r = gridRound .down v.natAbs) :
    IsRoundUp v r :=
  isRoundUp_of_flipSign (isRoundDown_of_nonneg (by omega) (by rw [signOf_flipSign, hs]; rfl)
    (by rw [lowBits_flipSign, Int.natAbs_neg, hl]))

/-- The last bit of a word is that of its low bits. -/
theorem getLsbD_zero_eq_false (h : lowBits r % 2 = 0) : r.getLsbD 0 = false := by
  have hmod : r.toNat % 2 = 0 := by unfold lowBits at h; omega
  rw [BitVec.getLsbD, Nat.testBit_zero, hmod]
  rfl

/-- To nearest is to nearest in magnitude: a value of the other sign is no nearer than zero. -/
theorem isRoundNearest_of_gridRound (hs : signOf r = decide (v < 0)) (hl : lowBits r = gridRound .nearest v.natAbs) :
    IsRoundNearest v r := by
  intro w _
  obtain ⟨hnear, htie⟩ := gridRound_nearest v.natAbs (lowBits w)
  obtain ⟨hnear0, htie0⟩ := gridRound_nearest v.natAbs 0
  have h0 : gridVal 0 = 0 := by decide
  have heven := getLsbD_zero_eq_false (r := r)
  rw [hl] at heven
  rw [scaledVal_eq r, scaledVal_eq w, hs, hl]
  simp only [Int.abs_eq_natAbs, h0] at hnear htie hnear0 htie0 ⊢
  by_cases hv : v < 0 <;> cases hsign : signOf w <;>
    simp only [hv, decide_true, decide_false, Bool.false_eq_true, if_false, if_true]
  · refine ⟨by omega, fun heq hne => heven (by omega)⟩
  · refine ⟨by omega, fun heq hne => heven (by omega)⟩
  · refine ⟨by omega, fun heq hne => heven (by omega)⟩
  · refine ⟨by omega, fun heq hne => heven (by omega)⟩

/-- The word of `v`'s sign and rounded magnitude is `v` rounded (R152). -/
theorem isRounded_packWord {rm : RoundMode} (hlow : roundedLow rm v < 255 * 2 ^ 23) :
    IsRounded rm v (packWord (decide (v < 0)) (roundedLow rm v)) := by
  have hs := signOf_packWord (decide (v < 0)) (roundedLow rm v)
  have hl := lowBits_packWord (decide (v < 0)) (n := roundedLow rm v) (by omega)
  generalize packWord (decide (v < 0)) (roundedLow rm v) = r at hs hl
  refine ⟨isFinite_iff.2 (hl ▸ hlow), hs, ?_⟩
  rw [roundedLow] at hl
  cases rm with
  | rn => exact isRoundNearest_of_gridRound hs hl
  | rz =>
    show if v < 0 then _ else _
    split
    · next hv => exact isRoundUp_of_nonpos hv.le (hs.trans (decide_eq_true hv)) hl
    · next hv => exact isRoundDown_of_nonneg (not_lt.1 hv) (hs.trans (decide_eq_false hv)) hl
  | rd =>
    rw [modeAt_rd] at hl
    split at hl
    · next hv => exact isRoundDown_of_nonpos hv.le (hs.trans (decide_eq_true hv)) hl
    · next hv => exact isRoundDown_of_nonneg (not_lt.1 hv) (hs.trans (decide_eq_false hv)) hl
  | ru =>
    rw [modeAt_ru] at hl
    split at hl
    · next hv => exact isRoundUp_of_nonpos hv.le (hs.trans (decide_eq_true hv)) hl
    · next hv => exact isRoundUp_of_nonneg (not_lt.1 hv) (hs.trans (decide_eq_false hv)) hl

end signed

/-- Settles O57: without overflow and flush `Round(v)` is the word of the one rounding to the grid. -/
theorem resultIsCorrectlyRounded : Obligations.ResultIsCorrectlyRounded := by
  intro pick ie x₀ y₀ z₀ rm daz ftz x y z hf hv r hftz hOE
  obtain ⟨hOE', _⟩ := roundResult_flags rm ftz hv
  have ho : ¬ Overflows rm (exactValue x y z) := fun ho =>
    hOE ((hasFlag_fnmsub32_round pick ie rm ftz (.inl rfl) hf hv).2 (hOE'.2 ho))
  have hr : r = _ := fnmsub32_round pick ie rm ftz hf hv
  have hvalue : r.value = packWord (decide (exactValue x y z < 0)) (roundedLow rm (exactValue x y z)) := by
    rcases roundResult_split rm ftz hv with ⟨ho', _⟩ | ⟨_, _, hftz', e⟩ | ⟨_, _, _, e⟩ | ⟨_, _, e⟩
    · exact absurd ho' ho
    · rw [hr, e] at hftz
      simp [hftz'] at hftz
    · rw [hr, e]
    · rw [hr, e]
  rw [hvalue]
  exact isRounded_packWord (roundedLow_lt rm hv ho)

/-! ## A binary32 value rounds to itself (R151) -/

/-- A point of the grid is rounded to itself, in every mode. -/
theorem gridRound_gridVal (m : MagMode) (n : Nat) :
    gridRound m (gridVal n) = n ∧ gridVal n % gridUnit (gridVal n) = 0 := by
  obtain ⟨hsum, hlt⟩ := grid_bracket (gridVal n)
  have hmod : gridVal n % gridUnit (gridVal n) = 0 := by
    rcases gridVal_le_or_ge (gridVal n) n with h | h <;> omega
  refine ⟨gridVal_strictMono.injective ?_, hmod⟩
  rw [gridVal_gridRound]
  exact (roundMag_mul_eq_iff m (gridUnit_pos _)).2 hmod

theorem natAbs_scaledVal (w : Word32) : (scaledVal w).natAbs = gridVal (lowBits w) := by
  rw [scaledVal_eq]
  split <;> omega

theorem scaledVal_neg_iff {w : Word32} (hw : scaledVal w ≠ 0) : scaledVal w < 0 ↔ signOf w = true := by
  have hpos : gridVal (lowBits w) ≠ 0 := by rwa [← natAbs_scaledVal, Int.natAbs_ne_zero]
  rw [scaledVal_eq]
  split
  · next h => exact iff_of_true (by omega) h
  · next h => exact iff_of_false (by omega) h

/-- The tiny values among the binary32 values are the denormals (R154). -/
theorem tinyAfterRounding_scaledVal {w : Word32} (hw : scaledVal w ≠ 0) (rm : RoundMode) :
    TinyAfterRounding rm (scaledVal w) ↔ isDenormal w = true := by
  have hpos : 0 < lowBits w := by
    refine Nat.pos_of_ne_zero fun h => hw ?_
    rw [← Int.natAbs_eq_zero, natAbs_scaledVal, h]
    rfl
  rw [isDenormal_iff, and_iff_right hpos]
  refine ⟨fun h => ?_, fun h => ?_⟩
  · have hlt := h.lt
    have hleast : gridVal (2 ^ 23) = 2 ^ 172 := by decide
    rwa [natAbs_scaledVal, ← hleast, gridVal_strictMono.lt_iff_lt] at hlt
  · have hval : gridVal (lowBits w) = lowBits w * 2 ^ 149 := by
      have hexp : lowBits w / 2 ^ 23 - 1 = 0 := by omega
      rw [gridVal, hexp, Nat.zero_mul, Nat.sub_zero, Nat.zero_add]
    rw [tinyAfterRounding_iff, natAbs_scaledVal, hval, roundMag_of_dvd _ (Nat.two_pow_pos 148) (by omega)]
    omega

/-- A nonzero binary32 value is rounded to itself without a flag, but for a denormal under FTZ (R151, R154). -/
theorem roundResult_scaledVal {w : Word32} (hfin : isFinite w = true) (hw : scaledVal w ≠ 0) (rm : RoundMode)
    {ftz : Bool} (hftz : ftz = false ∨ isDenormal w = false) :
    roundResult rm ftz (scaledVal w) = ⟨w, flagNone, isDenormal w⟩ := by
  obtain ⟨hlow, hmod⟩ := gridRound_gridVal (modeAt rm (scaledVal w)) (lowBits w)
  have hgrid : onGrid (scaledVal w) = true := by rw [onGrid, natAbs_scaledVal, hmod]; rfl
  have hsign : decide (scaledVal w < 0) = signOf w := by
    rw [Bool.eq_iff_iff, decide_eq_true_eq, scaledVal_neg_iff hw]
  have hword : packWord (decide (scaledVal w < 0)) (roundedLow rm (scaledVal w)) = w := by
    rw [hsign, roundedLow, natAbs_scaledVal, hlow, packWord_signOf_lowBits]
  have htiny := tinyAfterRounding_scaledVal hw rm
  rcases roundResult_split rm ftz hw with ⟨ho, _⟩ | ⟨_, ht, hftz', _⟩ | ⟨_, ht, _, e⟩ | ⟨_, ht, e⟩
  · exact absurd rfl (ho.scaledVal_ne hfin)
  · rcases hftz with h | h
    · exact absurd (h.symm.trans hftz') Bool.false_ne_true
    · exact absurd (h.symm.trans (htiny.1 ht)) Bool.false_ne_true
  · rw [e, hword, if_pos hgrid, htiny.1 ht]
  · rw [e, hword, if_pos hgrid, Bool.eq_false_iff.2 (mt htiny.2 ht)]

theorem scaledVal_eq_zero_iff {w : Word32} : scaledVal w = 0 ↔ isZero w = true := by
  rw [isZero_iff, ← Int.natAbs_eq_zero, natAbs_scaledVal]
  exact gridVal_strictMono.injective.eq_iff (a := lowBits w) (b := 0)

theorem valOf_of_isZero {u : Word32} (h : isZero u = true) : valOf u = 0 := by
  have hs := scaledVal_eq_zero_iff.2 h
  rw [scaledVal] at hs
  omega

/-- A zero product leaves the other term (R151). -/
theorem exactValue_of_zeroProduct {x y z : Word32} (h : isZero x = true ∨ isZero y = true) :
    exactValue x y z = scaledVal (flipSign z) := by
  have hprod : valOf x * valOf y = 0 := by
    rcases h with h | h <;> rw [valOf_of_isZero h]
    · exact Int.zero_mul _
    · exact Int.mul_zero _
  rw [exactValue, hprod, scaledVal_flipSign, scaledVal, Int.neg_zero, Int.zero_sub]

/-- Settles O60: in both clauses the exact value is a binary32 value, which rounds to itself. -/
theorem zeroProductPassesThrough : Obligations.ZeroProductPassesThrough := by
  constructor
  · intro pick ie x₀ y₀ z₀ rm daz ftz x y z hf hxy hz hftz r
    obtain ⟨_, hden, _, _, hfin⟩ := classes_flipSign z
    have hexact : exactValue x y z = scaledVal (flipSign z) := exactValue_of_zeroProduct hxy
    have hne : scaledVal (flipSign z) ≠ 0 := by
      rw [scaledVal_flipSign, ne_eq, Int.neg_eq_zero, scaledVal_eq_zero_iff, hz]
      exact Bool.false_ne_true
    have hr : r = _ := fnmsub32_round pick ie rm ftz hf (hexact ▸ hne)
    have hround := roundResult_scaledVal (hfin.trans hf.2.2) hne rm (hden.symm ▸ hftz)
    rw [← hexact] at hround
    rw [hr, hround]
    refine ⟨rfl, ?_⟩
    rw [flagNone, BitVec.ofNat_eq_ofNat, BitVec.or_zero]
    exact denormalFlag_only_de _ _ _
  · intro pick ie daz ftz rm
    have hx : dazOf daz 0x3F800001 = 0x3F800001 := dazOf_of_not_denormal daz (by decide)
    have hz : dazOf daz 0xBF800002 = 0xBF800002 := dazOf_of_not_denormal daz (by decide)
    have hf : FiniteOperands 0x3F800001 0x3F800001 0xBF800002 := ⟨by decide, by decide, by decide⟩
    have hexact : exactValue 0x3F800001 0x3F800001 0xBF800002 = scaledVal 0xA8800000 := by decide
    have hne : scaledVal 0xA8800000 ≠ 0 := by decide
    have hround := roundResult_scaledVal (by decide) hne rm (ftz := ftz) (.inr (by decide))
    rw [fnmsub32, hx, hz, fnmsubCore_finite hf, finiteResult_round (hexact ▸ hne), hexact, hround]
    rfl

end Sys2Proof.Machine
end

section
/-! PROOFS. Round down mirrors round up (O59): a sign flipped in the product and in the subtrahend flips both terms, and
every branch of R143 and of R152 to R155 past the NaNs flips with them. -/

namespace Sys2Proof.Machine

/-- A result with its sign flipped. -/
def FmaResult.mirror (r : FmaResult) : FmaResult := ⟨flipSign r.value, r.fl, r.tiny⟩

/-! ## The rounding (R152 to R155) -/

section rounding
variable (neg : Bool)

theorem roundInt_mirror (a d : Nat) : roundInt .ru (!neg) a d = roundInt .rd neg a d := by
  rw [roundInt_eq_roundMag, roundInt_eq_roundMag, magMode_mirror]

theorem roundSig_mirror (a : Nat) : roundSig .ru (!neg) a = roundSig .rd neg a := by
  rw [roundSig, roundSig, roundInt_mirror]

theorem overflowValue_mirror : overflowValue .ru (!neg) = flipSign (overflowValue .rd neg) := by
  cases neg <;> exact (flipSign_packWord _ _).symm

theorem roundTiny_mirror (ftz : Bool) (a : Nat) : roundTiny .ru ftz (!neg) a = (roundTiny .rd ftz neg a).mirror := by
  cases ftz with
  | true => rw [roundTiny, roundTiny, if_pos rfl, if_pos rfl, FmaResult.mirror, zeroOf, zeroOf, flipSign_packWord]
  | false =>
    rw [roundTiny, roundTiny, if_neg Bool.false_ne_true, if_neg Bool.false_ne_true, FmaResult.mirror, roundInt_mirror,
      flipSign_packWord]

end rounding

theorem decide_neg_lt_zero {v : Int} (hv : v ≠ 0) : decide (-v < 0) = !decide (v < 0) := by
  rw [← decide_not, decide_eq_decide]
  omega

/-- `Round` of the negative in the mirrored mode is the mirrored `Round`. -/
theorem roundResult_mirror {v : Int} (hv : v ≠ 0) (ftz : Bool) :
    roundResult .ru ftz (-v) = (roundResult .rd ftz v).mirror := by
  rcases roundResult_cases .rd ftz v with ⟨h, e⟩ | ⟨h, e⟩ | ⟨hlo, hhi, e⟩ <;> rw [e, roundResult] <;>
    simp only [Int.natAbs_neg, decide_neg_lt_zero hv, roundSig_mirror]
  · rw [if_pos h, overflowValue_mirror, FmaResult.mirror]
  · rw [if_neg (by omega), if_pos h, roundTiny_mirror]
  · rw [if_neg (by omega), if_neg (by omega), FmaResult.mirror, flipSign_packWord]

/-! ## The branches of R143 -/

section branches
variable (x y z : Word32)

theorem signProd_flipSign : signProd (flipSign x) y = !signProd x y := by
  rw [signProd, signProd, signOf_flipSign, Bool.not_xor]

theorem signSub_flipSign : signSub (flipSign z) = !signSub z := by rw [signSub, signSub, signOf_flipSign]

theorem denormalFlag_flipSign : denormalFlag (flipSign x) y (flipSign z) = denormalFlag x y z := by
  obtain ⟨_, hx, _⟩ := classes_flipSign x
  obtain ⟨_, hz, _⟩ := classes_flipSign z
  rw [denormalFlag, denormalFlag, hx, hz]

theorem valOf_flipSign (u : Word32) : valOf (flipSign u) = -valOf u := by
  have h := scaledVal_flipSign u
  rw [scaledVal, scaledVal] at h
  omega

theorem exactValue_flipSign : exactValue (flipSign x) y (flipSign z) = -exactValue x y z := by
  rw [exactValue, exactValue, valOf_flipSign, valOf_flipSign]
  ring

theorem zeroOf_mirror (neg : Bool) : zeroOf (!neg) = flipSign (zeroOf neg) := (flipSign_packWord neg 0).symm

theorem infOf_mirror (neg : Bool) : infOf (!neg) = flipSign (infOf neg) := (flipSign_packWord neg _).symm

/-- Of the exact zeros round down alone makes a minus, and the zero that two terms keep flips with them (R150). -/
theorem exactZero_mirror : exactZero .ru (flipSign x) y (flipSign z) = flipSign (exactZero .rd x y z) := by
  obtain ⟨hx, _⟩ := classes_flipSign x
  obtain ⟨hz, _⟩ := classes_flipSign z
  simp only [exactZero_eq, hx, hz, signProd_flipSign, signSub_flipSign, Bool.not_inj_iff]
  split
  · exact zeroOf_mirror _
  · exact zeroOf_mirror true

theorem finiteResult_mirror (ftz : Bool) (fl : BitVec 6) :
    finiteResult .ru ftz fl (flipSign x) y (flipSign z) = (finiteResult .rd ftz fl x y z).mirror := by
  by_cases hv : exactValue x y z = 0
  · have hv' : exactValue (flipSign x) y (flipSign z) = 0 := by rw [exactValue_flipSign, hv, Int.neg_zero]
    rw [finiteResult_zero hv, finiteResult_zero hv', exactZero_mirror]
    rfl
  · have hv' : exactValue (flipSign x) y (flipSign z) ≠ 0 := by rwa [exactValue_flipSign, ne_eq, Int.neg_eq_zero]
    rw [finiteResult_round hv, finiteResult_round hv', exactValue_flipSign, roundResult_mirror hv]
    rfl

end branches

/-- R161: past the NaNs, flipping `x` and `z` and exchanging round down for round up mirrors the result. -/
theorem fnmsubCore_mirror {x y z : Word32} {pick : Nat} {ie ftz : Bool} (hn : NoNaN x y z)
    (hr : isNaN (fnmsubCore pick ie x y z .rd ftz).value = false) :
    fnmsubCore pick ie (flipSign x) y (flipSign z) .ru ftz = (fnmsubCore pick ie x y z .rd ftz).mirror := by
  obtain ⟨hx0, _, hxinf, hxnan, _⟩ := classes_flipSign x
  obtain ⟨_, _, hzinf, hznan, _⟩ := classes_flipSign z
  have hn' : NoNaN (flipSign x) y (flipSign z) := by rwa [NoNaN, hxnan, hznan]
  by_cases hzi : ZeroTimesInf x y
  · rw [fnmsubCore_of_zeroTimesInf _ _ _ _ hn hzi] at hr
    exact absurd hr (by decide)
  · have hzi' : ¬ ZeroTimesInf (flipSign x) y := by rwa [ZeroTimesInf, hx0, hxinf]
    by_cases hop : OppositeInfinities x y z
    · rw [fnmsubCore_of_oppositeInfinities _ _ _ _ hn hzi hop] at hr
      exact absurd hr (by decide)
    · have hop' : ¬ OppositeInfinities (flipSign x) y (flipSign z) := by
        rwa [OppositeInfinities, hxinf, hzinf, signProd_flipSign, signSub_flipSign, ne_eq, Bool.not_inj_iff]
      by_cases hxy : isInf x = true ∨ isInf y = true
      · rw [fnmsubCore_of_infProduct _ _ _ _ hn hzi hop hxy,
          fnmsubCore_of_infProduct _ _ _ _ hn' hzi' hop' (by rwa [hxinf]), signProd_flipSign, infOf_mirror,
          denormalFlag_flipSign]
        rfl
      · rw [not_or, Bool.not_eq_true, Bool.not_eq_true] at hxy
        obtain ⟨hx, hy⟩ := hxy
        cases hz : isInf z with
        | true =>
          rw [fnmsubCore_of_infSubtrahend _ _ _ _ hn hx hy hz,
            fnmsubCore_of_infSubtrahend _ _ _ _ hn' (hxinf.trans hx) hy (hzinf.trans hz), signSub_flipSign,
            infOf_mirror, denormalFlag_flipSign]
          rfl
        | false =>
          rw [fnmsubCore_finite (finiteOperands_of hn hx hy hz),
            fnmsubCore_finite (finiteOperands_of hn' (hxinf.trans hx) hy (hzinf.trans hz)), denormalFlag_flipSign,
            finiteResult_mirror]

/-- Settles O59: DAZ keeps the signs, so it reads the flipped operands flipped. -/
theorem directedRoundingMirrors : Obligations.DirectedRoundingMirrors := by
  intro pick ie x y z daz ftz hn r hr
  rw [fnmsub32, dazOf_flipSign, dazOf_flipSign]
  exact fnmsubCore_mirror (noNaN_dazOf.2 hn) hr

end Sys2Proof.Machine
end

section
/-! PROOFS. Unmasked SIMD floating-point exceptions (O30), and ZE in every outcome of a step (O52): what is raised, and
that a fault leaves MXCSR with some flags of the computation ORed in, or with none (R157, R159). -/

namespace Sys2Proof.Machine

/-! ## Flag sets bit by bit -/

theorem ne_zero_iff_getLsbD (b : BitVec 6) : b ≠ 0 ↔ ∃ i, i < 6 ∧ b.getLsbD i = true := by
  refine ⟨fun h => ?_, fun ⟨i, _, hi⟩ h => ?_⟩
  · by_contra hno
    refine h (BitVec.eq_of_getLsbD_eq fun i hi => ?_)
    exact (Bool.eq_false_iff.2 fun hb => hno ⟨i, hi, hb⟩).trans BitVec.getLsbD_zero.symm
  · rw [h] at hi
    simp at hi

/-- A flag set lies within another exactly where each of its bits does. -/
theorem and_not_eq_zero_iff (a b : BitVec 6) :
    a &&& ~~~b = 0 ↔ ∀ i, i < 6 → a.getLsbD i = true → b.getLsbD i = true := by
  rw [← not_iff_not, ← ne_eq, ne_zero_iff_getLsbD]
  simp only [BitVec.getLsbD_and, BitVec.getLsbD_not, Bool.and_eq_true, not_forall, Bool.not_eq_true, Bool.not_eq_true',
    exists_prop, decide_eq_true_eq]
  refine exists_congr fun i => and_congr_right fun hi => and_congr_right fun _ => ?_
  exact and_iff_right hi

/-- The mask of flag `i` is bit `7 + i` (R25). -/
theorem mxcsrMasks_getLsbD (m : Word32) {i : Nat} (h : i < 6) : (mxcsrMasks m).getLsbD i = m.getLsbD (7 + i) := by
  simp [mxcsrMasks, h]

/-- A flag set has an unmasked flag exactly where one of its bits has a clear mask bit (R157). -/
theorem hasUnmasked_iff (fl : BitVec 6) (m : Word32) :
    fl &&& ~~~(mxcsrMasks m) ≠ 0 ↔ ∃ i, i < 6 ∧ fl.getLsbD i = true ∧ m.getLsbD (7 + i) = false := by
  rw [ne_zero_iff_getLsbD]
  refine exists_congr fun i => and_congr_right fun hi => ?_
  rw [BitVec.getLsbD_and, BitVec.getLsbD_not, mxcsrMasks_getLsbD m hi]
  simp [hi]

theorem unmasked_iff (fl : BitVec 6) (tiny : Bool) (m : Word32) :
    unmasked fl tiny m = true ↔
      (∃ i, i < 6 ∧ fl.getLsbD i = true ∧ m.getLsbD (7 + i) = false) ∨ (tiny = true ∧ m.getLsbD 11 = false) := by
  rw [unmasked, Bool.or_eq_true, bne_iff_ne, hasUnmasked_iff, Bool.and_eq_true, Bool.not_eq_true', mxcsrUm]

/-! ## The flags that an unmasked exception leaves (R157, D20) -/

/-- Without FTZ a tiny result sets no flag but UE that it does not set with it (R154). -/
theorem fnmsub32_fl_without_ftz {pick : Nat} {ie : Bool} {x y z : Word32} {rm : RoundMode} {daz ftz : Bool}
    (ht : (fnmsub32 pick ie x y z rm daz ftz).tiny = true) :
    (fnmsub32 pick ie x y z rm daz false).fl &&& ~~~((fnmsub32 pick ie x y z rm daz ftz).fl ||| flagUE) = 0 := by
  by_cases h : FiniteOperands (dazOf daz x) (dazOf daz y) (dazOf daz z) ∧
      exactValue (dazOf daz x) (dazOf daz y) (dazOf daz z) ≠ 0
  · obtain ⟨hf, hv⟩ := h
    have htiny : TinyAfterRounding rm (exactValue (dazOf daz x) (dazOf daz y) (dazOf daz z)) := by
      rw [← roundResult_tiny_iff rm ftz hv]
      rwa [fnmsub32_round pick ie rm ftz hf hv] at ht
    rw [fnmsub32_round pick ie rm false hf hv, fnmsub32_round pick ie rm ftz hf hv, roundResult_of_tiny rm hv htiny]
    cases ftz with
    | false =>
      rw [roundResult_of_tiny rm hv htiny, and_not_eq_zero_iff]
      intro i _ hi
      rw [BitVec.getLsbD_or, hi, Bool.true_or]
    | true =>
      rw [roundResult_of_tiny_ftz rm hv htiny]
      rcases denormalFlag_cases (dazOf daz x) (dazOf daz y) (dazOf daz z) with hd | hd <;> rw [hd] <;> dsimp only <;>
        split <;> decide
  · have hno := (fnmsub32_early pick ie rm ftz h).2
    rw [hno] at ht
    cases ht

/-- The described flags of a computation are among the possible ones, where those without FTZ are. -/
theorem xmFlagsDescribed_possible {fl flNoFtz : BitVec 6} {tiny : Bool}
    (h : tiny = true → flNoFtz &&& ~~~(fl ||| flagUE) = 0) (m : Word32) :
    xmFlagsDescribed fl flNoFtz tiny m &&& ~~~(xmFlagsPossible fl tiny) = 0 := by
  have hfl (i : Nat) (hi : fl.getLsbD i = true) : (xmFlagsPossible fl tiny).getLsbD i = true := by
    unfold xmFlagsPossible
    split
    · rw [BitVec.getLsbD_or, hi, Bool.true_or]
    · exact hi
  rw [and_not_eq_zero_iff]
  intro i hi hbit
  unfold xmFlagsDescribed at hbit
  split at hbit
  · rw [BitVec.getLsbD_and, Bool.and_eq_true] at hbit
    exact hfl i hbit.1
  · split at hbit
    · next hum =>
      have ht : tiny = true := (Bool.and_eq_true_iff.1 hum).1
      rw [xmFlagsPossible, if_pos ht]
      rw [BitVec.getLsbD_or, Bool.or_eq_true] at hbit
      rcases hbit with hbit | hbit
      · exact (and_not_eq_zero_iff _ _).1 (h ht) i hi hbit
      · rw [BitVec.getLsbD_or, hbit, Bool.or_true]
    · exact hfl i hbit

/-- The described flags are those of log 17's reading of R157. -/
theorem xmFlagsDescribed_describes (r r' : FmaResult) (m : Word32) :
    DescribedFlags r r' m (xmFlagsDescribed r.fl r'.fl r.tiny m) := by
  have hearly : r.fl &&& (flagIE ||| flagDE) &&& ~~~(mxcsrMasks m) ≠ 0 ↔
      (r.fl.getLsbD 0 = true ∧ m.getLsbD 7 = false) ∨ (r.fl.getLsbD 1 = true ∧ m.getLsbD 8 = false) := by
    rw [hasUnmasked_iff]
    refine ⟨fun ⟨i, hi, hfl, hm⟩ => ?_, ?_⟩
    · rw [BitVec.getLsbD_and, Bool.and_eq_true] at hfl
      obtain ⟨hfl, hpre⟩ := hfl
      interval_cases i
      · exact .inl ⟨hfl, hm⟩
      · exact .inr ⟨hfl, hm⟩
      all_goals exact absurd hpre (by decide)
    · rintro (⟨hfl, hm⟩ | ⟨hfl, hm⟩)
      · exact ⟨0, by decide, by rw [BitVec.getLsbD_and, hfl]; rfl, hm⟩
      · exact ⟨1, by decide, by rw [BitVec.getLsbD_and, hfl]; rfl, hm⟩
  have hum : (r.tiny && !mxcsrUm m) = true ↔ r.tiny = true ∧ m.getLsbD 11 = false := by
    rw [Bool.and_eq_true, Bool.not_eq_true', mxcsrUm]
  unfold DescribedFlags xmFlagsDescribed
  rw [← hearly, ← hum]
  refine ⟨fun h => if_pos h, fun h ht => ?_, fun h ht => ?_⟩
  · rw [if_neg h, if_pos ht]
    rfl
  · rw [if_neg h, if_neg ht]

/-- MXCSR after an unmasked exception: some of the possible flags ORed in, the described ones under
`set_as_described` (D20). -/
theorem xmMxcsr_eq {fl flNoFtz : BitVec 6} {tiny : Bool} (h : tiny = true → flNoFtz &&& ~~~(fl ||| flagUE) = 0)
    (p : PXmFlags) (draw : BitVec 6) (m : Word32) :
    ∃ fl', fl' &&& ~~~(xmFlagsPossible fl tiny) = 0 ∧
      (p = .setAsDescribed → fl' = xmFlagsDescribed fl flNoFtz tiny m) ∧
      xmMxcsr p draw fl flNoFtz tiny m = mxcsrOr m fl' := by
  cases p with
  | setAsDescribed => exact ⟨_, xmFlagsDescribed_possible h m, fun _ => rfl, rfl⟩
  | unconstrained =>
    refine ⟨xmFlagsPossible fl tiny &&& draw, ?_, nofun, rfl⟩
    rw [and_not_eq_zero_iff]
    intro i _ hi
    rw [BitVec.getLsbD_and, Bool.and_eq_true] at hi
    exact hi.1

/-! ## The exception raised (R157, R175) -/

/-- The numeric exception of a record: #XM or #UD, and MXCSR with some of the computation's flags ORed in. -/
theorem raiseNumeric_eq (op : FmaOp) (s : State) (w : Word32) :
    ∃ fl, fl &&& ~~~(xmFlagsPossible (compute op s w).fl (compute op s w).tiny) = 0 ∧
      (s.cfg.pXmFlags = .setAsDescribed →
        DescribedFlags (compute op s w) (computeWith op s w false) s.mxcsr fl) ∧
      raiseNumeric op s w =
        .fault (.exception (if osxmmexcpt s then .xm else .ud) { s with mxcsr := mxcsrOr s.mxcsr fl }) := by
  obtain ⟨fl, hpossible, hdescribed, hmxcsr⟩ :=
    xmMxcsr_eq (fun ht => fnmsub32_fl_without_ftz ht : (compute op s w).tiny = true →
        (computeWith op s w false).fl &&& ~~~((compute op s w).fl ||| flagUE) = 0)
      s.cfg.pXmFlags (Config.freeXmFlags s.draws) s.mxcsr
  refine ⟨fl, hpossible, fun hp => ?_, ?_⟩
  · rw [hdescribed hp]
    exact xmFlagsDescribed_describes _ _ _
  · rw [← hmxcsr]
    rfl

theorem mxcsrDaz_withoutFtz (s : State) : mxcsrDaz (withoutFtz s).mxcsr = mxcsrDaz s.mxcsr := by
  simp [mxcsrDaz, withoutFtz]

theorem mxcsrFtz_withoutFtz (s : State) : mxcsrFtz (withoutFtz s).mxcsr = false := by
  simp [mxcsrFtz, withoutFtz]

/-- The arithmetic without FTZ is that of the state with MXCSR.FTZ = 0. -/
theorem computeWith_false_eq_fnmsubOf (op : FmaOp) (s : State) (w : Word32) :
    computeWith op s w false = fnmsubOf op.form (withoutFtz s) op.dest op.src2 w (roundingOf op s) := by
  simp only [computeWith, fnmsubOf, mxcsrDaz_withoutFtz, mxcsrFtz_withoutFtz]
  cases op.form <;> rfl

/-- Without embedded rounding an active element whose exception is unmasked raises it (R114, R157). -/
theorem executeOp_raises {op : FmaOp} {next : Word64} {s : State} {w : Word32} (her : op.er = none)
    (ha : active op s = true) (hr : readSrc3 op s = .ok w) :
    let r := fnmsubOf op.form s op.dest op.src2 w (mxcsrRc s.mxcsr)
    let r' := fnmsubOf op.form (withoutFtz s) op.dest op.src2 w (mxcsrRc s.mxcsr)
    unmasked r.fl r.tiny s.mxcsr = true →
    ∃ fl, fl &&& ~~~(xmFlagsPossible r.fl r.tiny) = 0 ∧
      (s.cfg.pXmFlags = .setAsDescribed → DescribedFlags r r' s.mxcsr fl) ∧
      executeOp op next s =
        .fault (.exception (if osxmmexcpt s then .xm else .ud) { s with mxcsr := mxcsrOr s.mxcsr fl }) := by
  intro r r' hu
  have hround : roundingOf op s = mxcsrRc s.mxcsr := by simp [roundingOf, her]
  have hcompute : compute op s w = r := by rw [compute_eq_fnmsubOf, hround]
  have hcompute' : computeWith op s w false = r' := by rw [computeWith_false_eq_fnmsubOf, hround]
  have hraises : raisesNumeric op s (compute op s w) = true := by simpa [raisesNumeric, her, hcompute] using hu
  rw [executeOp_active ha hr, executeActive_raises hraises, ← hcompute, ← hcompute']
  exact raiseNumeric_eq op s w

/-- Settles O30: MXCSR's raw bits say what is unmasked, and both encodings raise it where their operands are read. -/
theorem unmaskedExceptionIsRaised : Obligations.UnmaskedExceptionIsRaised := by
  refine ⟨unmasked_iff, fun f o s next w h hn hr => ?_, fun f o s next w h hn hb ha hr => ?_⟩
  · rw [h.exec_eq hn]
    exact executeOp_raises rfl (active_vexOp f o s) hr
  · rw [h.exec_eq hn]
    exact executeOp_raises (evexOp_er_eq_none hb f) (active_evexOp_of ha f) hr

/-! ## Every exception leaves MXCSR but for flags other than ZE (R159, R175) -/

/-- An exception leaves the state as it was, but for flags other than ZE ORed into MXCSR. -/
def FaultsKeep (s : State) (r : Result) : Prop :=
  ∀ e t, r = .fault (.exception e t) →
    ∃ fl : BitVec 6, fl.getLsbD 2 = false ∧ t = { s with mxcsr := mxcsrOr s.mxcsr fl }

theorem faultsKeep_raise (e : Exception) (s : State) : FaultsKeep s (raise e s) := by
  intro e' t h
  injection h with h
  injection h with _ h
  exact ⟨flagNone, rfl, by rw [mxcsrOr_none, h]⟩

theorem faultsKeep_next (s t : State) : FaultsKeep s (.next t) := by
  intro _ _ h
  cases h

theorem faultsKeep_refused (s : State) (r : Refusal) : FaultsKeep s (.refused r) := by
  intro _ _ h
  cases h

theorem faultsKeep_absentByte (s : State) (p : Word64) : FaultsKeep s (.fault (.absentByte p s)) := by
  intro _ _ h
  cases h

theorem faultsKeep_stopWith (e : Stop) (s : State) : FaultsKeep s (stopWith e s) := by
  cases e with
  | exception e => exact faultsKeep_raise e s
  | absent p => exact faultsKeep_absentByte s p

/-- No computation can set ZE, so neither can its exception (R159). -/
theorem faultsKeep_raiseNumeric (op : FmaOp) (s : State) (w : Word32) : FaultsKeep s (raiseNumeric op s w) := by
  obtain ⟨fl, hpossible, _, hraise⟩ := raiseNumeric_eq op s w
  intro e t h
  rw [hraise] at h
  injection h with h
  injection h with _ h
  refine ⟨fl, Bool.eq_false_iff.2 fun hze => ?_, h.symm⟩
  have hposs := (and_not_eq_zero_iff _ _).1 hpossible 2 (by decide) hze
  have hfl : (compute op s w).fl.getLsbD 2 = false := fnmsub32_not_ze _ _ _ _ _ _ _ _
  unfold xmFlagsPossible at hposs
  split at hposs
  · rw [BitVec.getLsbD_or, hfl] at hposs
    exact absurd hposs (by decide)
  · rw [hfl] at hposs
    cases hposs

theorem faultsKeep_executeActive (op : FmaOp) (next : Word64) (s : State) (w : Word32) :
    FaultsKeep s (executeActive op next s w) := by
  cases h : raisesNumeric op s (compute op s w) with
  | true => rw [executeActive_raises h]; exact faultsKeep_raiseNumeric op s w
  | false => rw [executeActive_delivers h]; exact faultsKeep_next s _

theorem faultsKeep_executeOp (op : FmaOp) (next : Word64) (s : State) : FaultsKeep s (executeOp op next s) := by
  unfold executeOp
  split
  · split
    · exact faultsKeep_stopWith _ s
    · exact faultsKeep_executeActive op next s _
  · split
    · exact faultsKeep_stopWith _ s
    · exact faultsKeep_next s _

theorem faultsKeep_exec (i : Instr) (s : State) : FaultsKeep s (exec i s) := by
  rw [exec_eq]
  unfold executeChecked
  split
  · exact faultsKeep_refused s _
  · exact faultsKeep_raise _ s
  · exact faultsKeep_raise _ s
  · split
    · exact faultsKeep_refused s _
    · split
      · exact faultsKeep_raise _ s
      · split
        · exact faultsKeep_raise _ s
        · exact faultsKeep_executeOp _ _ s

theorem faultsKeep_overlong (s : State) (len : Nat) : FaultsKeep s (overlong s len) := by
  unfold overlong
  split
  · exact faultsKeep_refused s _
  · exact faultsKeep_raise _ s

theorem faultsKeep_pastFifteen (s : State) : FaultsKeep s (pastFifteen s) := by
  unfold pastFifteen
  split
  · exact faultsKeep_refused s _
  · exact faultsKeep_overlong s _
  · split
    · exact faultsKeep_refused s _
    · unfold unreadable
      split
      · exact faultsKeep_raise _ s
      · exact faultsKeep_raise _ s
      · exact faultsKeep_refused s _

theorem faultsKeep_endedEarly (s : State) (stop : Option FetchStop) : FaultsKeep s (endedEarly s stop) := by
  unfold endedEarly
  split
  · exact faultsKeep_pastFifteen s
  · exact faultsKeep_raise _ s
  · exact faultsKeep_absentByte s _
  · exact faultsKeep_refused s _

theorem faultsKeep_illegalEncoding (s : State) (len : Nat) : FaultsKeep s (illegalEncoding s len) := by
  unfold illegalEncoding
  split
  · exact faultsKeep_refused s _
  · exact faultsKeep_raise _ s

/-- What every exception of a step leaves (R175): nothing but flags of MXCSR is written. -/
theorem faultsKeep_step (s : State) : FaultsKeep s (step s) := by
  unfold step fetchInstr
  by_cases hm : s.mode = .mode32
  · rw [if_pos hm]
    exact faultsKeep_refused s _
  · rw [if_neg hm]
    cases decode (fetchBytes s).1 with
    | ok i => exact faultsKeep_exec i s
    | illegal len => exact faultsKeep_illegalEncoding s len
    | tooLong len => exact faultsKeep_overlong s len
    | refuse why => exact faultsKeep_refused s _
    | needMore => exact faultsKeep_endedEarly s _

/-- Settles O52: no flag set of the arithmetic has ZE, and a step writes to MXCSR by ORing in such flag sets alone. -/
theorem divideByZeroIsNeverSignalled : Obligations.DivideByZeroIsNeverSignalled := by
  refine ⟨fnmsub32_not_ze, fun s t h => ?_, fun s t e h => ?_⟩
  · obtain ⟨_, hframe, _⟩ := stepFrame s t h
    exact hframe.mxcsr.ze
  · obtain ⟨fl, hze, rfl⟩ := faultsKeep_step s e t h
    exact (MxcsrKept.or s.mxcsr hze).ze

end Sys2Proof.Machine
end

section
/-! PROOFS. Precise faults (O20): every way a step can end, case by case. Only an unmasked SIMD floating-point exception
leaves a state that is not the one before the step; `faultsKeep_step` says what of MXCSR it leaves (R157, R175, D9). -/

namespace Sys2Proof.Machine

/-- How a step from `s` can end: completed, refused, with an exception or stuck at an absent byte in the state as it was,
or with the unmasked SIMD floating-point exception, which alone leaves an MXCSR of its own (R157, R175, D9). -/
inductive EndsPrecisely (s : State) : Result → Prop where
  | completed (t : State) : EndsPrecisely s (.next t)
  | refused (why : Refusal) : EndsPrecisely s (.refused why)
  | raised (e : Exception) : EndsPrecisely s (.fault (.exception e s))
  | stuck (p : Word64) : EndsPrecisely s (.fault (.absentByte p s))
  | numeric (m : Word32) :
      EndsPrecisely s (.fault (.exception (if osxmmexcpt s then .xm else .ud) { s with mxcsr := m }))

/-! ## What an instruction answers (R110, R174) -/

theorem endsPrecisely_stopWith (e : Stop) (s : State) : EndsPrecisely s (stopWith e s) := by
  cases e with
  | exception e => exact .raised e
  | absent p => exact .stuck p

theorem endsPrecisely_executeActive (op : FmaOp) (next : Word64) (s : State) (w : Word32) :
    EndsPrecisely s (executeActive op next s w) := by
  cases h : raisesNumeric op s (compute op s w) with
  | true => rw [executeActive_raises h]; exact .numeric _
  | false => rw [executeActive_delivers h]; exact .completed _

theorem endsPrecisely_executeOp (op : FmaOp) (next : Word64) (s : State) :
    EndsPrecisely s (executeOp op next s) := by
  unfold executeOp
  split
  · split
    · exact endsPrecisely_stopWith _ s
    · exact endsPrecisely_executeActive op next s _
  · split
    · exact endsPrecisely_stopWith _ s
    · exact .completed _

theorem endsPrecisely_exec (i : Instr) (s : State) : EndsPrecisely s (exec i s) := by
  rw [exec_eq]
  unfold executeChecked
  split
  · exact .refused _
  · exact .raised _
  · exact .raised _
  · split
    · exact .refused _
    · split
      · exact .raised _
      · split
        · exact .raised _
        · exact endsPrecisely_executeOp _ _ s

/-! ## What the fetch answers where no instruction runs (R61, R70, R86) -/

theorem endsPrecisely_overlong (s : State) (len : Nat) : EndsPrecisely s (overlong s len) := by
  unfold overlong
  split
  · exact .refused _
  · exact .raised _

theorem endsPrecisely_illegalEncoding (s : State) (len : Nat) : EndsPrecisely s (illegalEncoding s len) := by
  unfold illegalEncoding
  split
  · exact .refused _
  · exact .raised _

theorem endsPrecisely_unreadable (s : State) (stop : Option FetchStop) : EndsPrecisely s (unreadable s stop) := by
  unfold unreadable
  split
  · exact .raised _
  · exact .raised _
  · exact .refused _

theorem endsPrecisely_pastFifteen (s : State) : EndsPrecisely s (pastFifteen s) := by
  unfold pastFifteen
  split
  · exact .refused _
  · exact endsPrecisely_overlong s _
  · split
    · exact .refused _
    · exact endsPrecisely_unreadable s _

theorem endsPrecisely_endedEarly (s : State) (stop : Option FetchStop) : EndsPrecisely s (endedEarly s stop) := by
  unfold endedEarly
  split
  · exact endsPrecisely_pastFifteen s
  · exact .raised _
  · exact .stuck _
  · exact .refused _

/-! ## A step -/

theorem endsPrecisely_step (s : State) : EndsPrecisely s (step s) := by
  unfold step fetchInstr
  by_cases hm : s.mode = .mode32
  · rw [if_pos hm]
    exact .refused _
  · rw [if_neg hm]
    cases decode (fetchBytes s).1 with
    | ok i => exact endsPrecisely_exec i s
    | illegal len => exact endsPrecisely_illegalEncoding s len
    | tooLong len => exact endsPrecisely_overlong s len
    | refuse why => exact .refused _
    | needMore => exact endsPrecisely_endedEarly s _

/-- An exception that changes MXCSR is #XM, or #UD with CR4.OSXMMEXCPT = 0 (R157). -/
theorem step_exception_of_mxcsr_ne {s t : State} {e : Exception} (h : step s = .fault (.exception e t))
    (hne : t.mxcsr ≠ s.mxcsr) : e = .xm ∨ (e = .ud ∧ osxmmexcpt s = false) := by
  have hends := endsPrecisely_step s
  rw [h] at hends
  cases hends with
  | raised => exact absurd rfl hne
  | numeric m =>
    cases hos : osxmmexcpt s with
    | true => exact .inl rfl
    | false => exact .inr ⟨rfl, rfl⟩

/-- A step stuck at an absent byte leaves the state as it was (D9). -/
theorem step_absentByte {s t : State} {p : Word64} (h : step s = .fault (.absentByte p t)) : t = s := by
  have hends := endsPrecisely_step s
  rw [h] at hends
  cases hends with
  | stuck => rfl

/-- Settles O20: an exception writes nothing but flags ORed into MXCSR, the numeric one alone writes any, and a stuck step
writes nothing. -/
theorem faultsArePrecise : Obligations.FaultsArePrecise := by
  refine ⟨fun s t e h => ?_, fun _ _ _ h => step_absentByte h⟩
  have hexception := step_exception_of_mxcsr_ne h
  obtain ⟨fl, hze, rfl⟩ := faultsKeep_step s e t h
  exact ⟨rfl, .or s.mxcsr hze, hexception⟩

end Sys2Proof.Machine
end

section
/-! PROOFS. Words of the spec (O3), and the refusals that come before every check of an instruction (O11, O14):
`Mode32`, and a `pc + len` past the top. -/

namespace Sys2Proof

/-- A word that an instruction is encoded as decodes to that instruction. -/
theorem decode_of_encode_eq {i : Instr} {bs : List Byte} (hwf : WellFormed i) (h : encode i = bs) :
    decode bs = .ok i := by
  simpa [h] using decode_encode hwf []

/-- Settles O3: each word is the encoding of the instruction that its row names, and the decoder inverts the encoder. -/
theorem specWordsDecode : Obligations.SpecWordsDecode := by
  refine ⟨?V1, ?V6, ?V12, ?V17, ?V10, ?V27, ?V30, ?V32, ?V36⟩ <;> exact decode_of_encode_eq (by decide) (by decide)

namespace Machine

/-! ## `Mode32` (R90, D2) -/

section mode32
variable {s : State} (hm : s.mode = .mode32)
include hm

/-- The step refuses before it fetches. -/
theorem step_mode32 : step s = .refused .mode32 := by
  simp only [step, fetchInstr, if_pos hm]

/-- Every form refuses, whatever its operands and conditions are. -/
theorem executeChecked_mode32 (ud : Bool) (op : FmaOp) : executeChecked ud op s = .refused .mode32 := by
  simp only [executeChecked, hm]

end mode32

/-- Settles O11: the step tests the mode before the fetch, and an instruction tests it before everything else. -/
theorem mode32IsRefused : Obligations.Mode32IsRefused := by
  refine fun s hm => ⟨step_mode32 hm, fun i => ?_⟩
  rw [exec_eq]
  exact executeChecked_mode32 hm _ _

/-! ## `pc + len` past the top (R28, D4) -/

/-- `pc` cannot advance where the sum wraps or is not canonical. -/
theorem nextPc_eq_none_iff (s : State) (len : Nat) :
    nextPc s len = none ↔
      2 ^ 64 ≤ s.pc.toNat + len ∨ canonical s.cfg (s.pc + BitVec.ofNat 64 len) = false := by
  rw [nextPc, ite_eq_right_iff, ← Nat.not_lt, ← Bool.not_eq_true, ← not_and_or]
  exact imp_congr_right fun _ => iff_of_false (Option.some_ne_none _) not_false

/-- Where `pc` cannot advance every form refuses, before the #UD conditions (log 10). -/
theorem executeChecked_pcPastTop {op : FmaOp} {s : State} (hm : s.mode = .mode64) (hn : nextPc s op.len = none)
    (ud : Bool) : executeChecked ud op s = .refused .pcPastTop := by
  simp only [executeChecked, hm, hn]

/-- Settles O14: in 64-bit mode the advance of `pc` is the first check, and its failure is D4's condition. -/
theorem pcPastTopIsRefused : Obligations.PcPastTopIsRefused := by
  intro s i hm htop
  rw [← nextPc_eq_none_iff, ← opOf_len] at htop
  rw [exec_eq]
  exact executeChecked_pcPastTop hm htop _

end Machine
end Sys2Proof
end
